-- ==== Sys2Proof/Word.lean ====
section
/-! DEFINITION. The widths OWM uses: 32-bit registers and command words, 8-bit operands and slot words,
64-bit ROM codes (00_scope.md R4, R6; 10_state.md section 4). -/

namespace Sys2Proof

/-- A command word or a register of the block: 32 bits. -/
abbrev Word := BitVec 32

/-- An operand byte, a byte on the line, or a slot word: 8 bits. -/
abbrev Byte := BitVec 8

/-- A ROM code as the 64-bit value whose bit p is the ROM bit at bit position p (R6, R111). -/
abbrev RomCode := BitVec 64

end Sys2Proof
end

