-- ==== Sys2Proof/Syntax.lean ====
section
/-! DEFINITION. OWM's instructions: the 16 commands a host writes to CMD and the 7 slot words the timing
engine takes from its queue (30_encoding.md R301–R306; spec/opcode_table.json). -/

namespace Sys2Proof

/-- One constructor per row of spec/opcode_table.json. -/
inductive Instr where
  /-- INIT pin, dirpin, dir_en (R451). -/
  | init (pin dirpin : Byte) (dirEn : Bool)
  /-- TEARDOWN (R455). -/
  | teardown
  /-- SET_FIFO_THRESH thresh (R458). -/
  | setFifoThresh (thresh : Byte)
  /-- WAIT_IDLE (R461). -/
  | waitIdle
  /-- RESET (R501). -/
  | reset
  /-- WRITE_BYTE data (R504). -/
  | writeByte (data : Byte)
  /-- WRITE_BYTE_PWR data (R507). -/
  | writeBytePwr (data : Byte)
  /-- END_POWER (R510). -/
  | endPower
  /-- READ_BYTE (R513). -/
  | readByte
  /-- TRIPLET dir_pref (R516). -/
  | triplet (dirPref : Bool)
  /-- CRC8_UPD acc, data (R553). -/
  | crc8Upd (acc data : Byte)
  /-- SEARCH_RESET (R601). -/
  | searchReset
  /-- SEARCH romcmd (R604). -/
  | search (romcmd : Byte)
  /-- FIRST (R622). -/
  | first
  /-- NEXT (R624). -/
  | next
  /-- SELECT (R651); the code is in SEL0 and SEL1. -/
  | select
  /-- Slot word RST (R421). -/
  | slotRst
  /-- Slot word W0 (R423). -/
  | slotW0
  /-- Slot word W1 (R422). -/
  | slotW1
  /-- Slot word RD (R426). -/
  | slotRd
  /-- Slot word REL (R425). -/
  | slotRel
  /-- Slot word W0 with P = 1 (R424). -/
  | slotW0Pwr
  /-- Slot word W1 with P = 1 (R424). -/
  | slotW1Pwr
  deriving DecidableEq, Repr

/-- The seven slot words the sequencer generates (R306): KIND, and P for the two powered writes. -/
inductive Slot where
  | rst | w0 | w1 | rd | rel | w0Pwr | w1Pwr
  deriving DecidableEq, Repr

/-- The instruction a slot word is. -/
def Slot.toInstr : Slot → Instr
  | .rst => .slotRst
  | .w0 => .slotW0
  | .w1 => .slotW1
  | .rd => .slotRd
  | .rel => .slotRel
  | .w0Pwr => .slotW0Pwr
  | .w1Pwr => .slotW1Pwr

/-- The slot word an instruction is, where it is one. -/
def Instr.slot? : Instr → Option Slot
  | .slotRst => some .rst
  | .slotW0 => some .w0
  | .slotW1 => some .w1
  | .slotRd => some .rd
  | .slotRel => some .rel
  | .slotW0Pwr => some .w0Pwr
  | .slotW1Pwr => some .w1Pwr
  | .init _ _ _ => none
  | .teardown => none
  | .setFifoThresh _ => none
  | .waitIdle => none
  | .reset => none
  | .writeByte _ => none
  | .writeBytePwr _ => none
  | .endPower => none
  | .readByte => none
  | .triplet _ => none
  | .crc8Upd _ _ => none
  | .searchReset => none
  | .search _ => none
  | .first => none
  | .next => none
  | .select => none

end Sys2Proof
end

