-- ==== Sys2Proof/WellFormed.lean ====
section
/-! DEFINITION. Which instructions have an encoding. Every operand is a byte or a bit, so the one check is
R302: when DIR_EN = 0, DIRPIN is reserved and must be 0. -/

namespace Sys2Proof

/-- R302, R303: INIT with DIR_EN = 0 has DIRPIN = 0; every other instruction is well formed. -/
def Instr.wf : Instr → Bool
  | .init _ dirpin dirEn => dirEn || dirpin == 0#8
  | .teardown => true
  | .setFifoThresh _ => true
  | .waitIdle => true
  | .reset => true
  | .writeByte _ => true
  | .writeBytePwr _ => true
  | .endPower => true
  | .readByte => true
  | .triplet _ => true
  | .crc8Upd _ _ => true
  | .searchReset => true
  | .search _ => true
  | .first => true
  | .next => true
  | .select => true
  | .slotRst => true
  | .slotW0 => true
  | .slotW1 => true
  | .slotRd => true
  | .slotRel => true
  | .slotW0Pwr => true
  | .slotW1Pwr => true

end Sys2Proof
end

