-- ==== Sys2Proof/Decode.lean ====
section
/-! DEFINITION. Decoding and encoding of command words (R301–R305) and slot words (R306). -/

namespace Sys2Proof

/-- Why a word is not an instruction. -/
inductive DecodeError where
  /-- OP is not in the table of R303 (R305). -/
  | unknownOpcode (op : Byte)
  /-- OP is in the table and a reserved bit of the word is 1 (R302). -/
  | reservedBits (w : Word)
  /-- Not one of the seven slot words of R306. -/
  | unknownSlotWord (w : Byte)
  deriving DecidableEq, Repr

/-! ## Fields of the command word (R301) -/

/-- OP, bits 7:0. -/
def fieldOp (w : Word) : Byte := w.extractLsb' 0 8

/-- A, bits 15:8. -/
def fieldA (w : Word) : Byte := w.extractLsb' 8 8

/-- B, bits 23:16. -/
def fieldB (w : Word) : Byte := w.extractLsb' 16 8

/-- C, bits 31:24. -/
def fieldC (w : Word) : Byte := w.extractLsb' 24 8

/-- `word = OP | (A << 8) | (B << 16) | (C << 24)` (R301). -/
def commandWord (op a b c : Byte) : Word := c ++ b ++ a ++ op

/-- A 1-bit operand: bit 0 of its byte, the other bits reserved (R302). -/
def bitOperand (b : Bool) : Byte := if b then 1#8 else 0#8

/-! ## Commands -/

/-- The command if every reserved bit of the word is 0, else the rejection by name (R303, R304). -/
def unlessReserved (w : Word) (clean : Bool) (i : Instr) : Except DecodeError Instr :=
  if clean then .ok i else .error (.reservedBits w)

/-- Decoding of a word written to CMD (R303): by OP, with every reserved bit required to be 0 (R302). -/
def decodeCommand (w : Word) : Except DecodeError Instr :=
  let a := fieldA w
  let b := fieldB w
  let c := fieldC w
  let noOperand := a == 0#8 && b == 0#8 && c == 0#8
  let onlyA := b == 0#8 && c == 0#8
  if fieldOp w = 0x01#8 then
    let dirEn := c == 1#8
    unlessReserved w (dirEn || (c == 0#8 && b == 0#8)) (.init a b dirEn)
  else if fieldOp w = 0x02#8 then unlessReserved w noOperand .teardown
  else if fieldOp w = 0x03#8 then unlessReserved w onlyA (.setFifoThresh a)
  else if fieldOp w = 0x04#8 then unlessReserved w noOperand .waitIdle
  else if fieldOp w = 0x10#8 then unlessReserved w noOperand .reset
  else if fieldOp w = 0x11#8 then unlessReserved w onlyA (.writeByte a)
  else if fieldOp w = 0x12#8 then unlessReserved w onlyA (.writeBytePwr a)
  else if fieldOp w = 0x13#8 then unlessReserved w noOperand .endPower
  else if fieldOp w = 0x14#8 then unlessReserved w noOperand .readByte
  else if fieldOp w = 0x15#8 then
    unlessReserved w ((a == 0#8 || a == 1#8) && onlyA) (.triplet (a == 1#8))
  else if fieldOp w = 0x20#8 then unlessReserved w (c == 0#8) (.crc8Upd a b)
  else if fieldOp w = 0x30#8 then unlessReserved w noOperand .searchReset
  else if fieldOp w = 0x31#8 then unlessReserved w onlyA (.search a)
  else if fieldOp w = 0x32#8 then unlessReserved w noOperand .first
  else if fieldOp w = 0x33#8 then unlessReserved w noOperand .next
  else if fieldOp w = 0x40#8 then unlessReserved w noOperand .select
  else .error (.unknownOpcode (fieldOp w))

/-! ## Slot words -/

/-- The slot words of R306: KIND in bits 2:0, P in bit 3, bits 7:4 zero. -/
def Slot.word : Slot → Byte
  | .rst => 0x00#8
  | .w0 => 0x01#8
  | .w1 => 0x02#8
  | .rd => 0x03#8
  | .rel => 0x04#8
  | .w0Pwr => 0x09#8
  | .w1Pwr => 0x0A#8

/-- KIND is bits 2:0 and P bit 3; the seven words of R306 are read, every other word is rejected by name. -/
def decodeSlot (w : Byte) : Except DecodeError Slot :=
  if w = 0x00#8 then .ok .rst
  else if w = 0x01#8 then .ok .w0
  else if w = 0x02#8 then .ok .w1
  else if w = 0x03#8 then .ok .rd
  else if w = 0x04#8 then .ok .rel
  else if w = 0x09#8 then .ok .w0Pwr
  else if w = 0x0A#8 then .ok .w1Pwr
  else .error (.unknownSlotWord w)

/-! ## Encoding -/

/-- How many bits the instruction's word has: 32 for a command (R301), 8 for a slot word (R306). -/
def Instr.nbits (i : Instr) : Nat := if i.slot?.isSome then 8 else 32

/-- The word of an instruction, from the table of R303 (commands) and R306 (slot words, in bits 7:0). -/
def encode : Instr → Word
  | .init pin dirpin dirEn => commandWord 0x01#8 pin dirpin (bitOperand dirEn)
  | .teardown => commandWord 0x02#8 0#8 0#8 0#8
  | .setFifoThresh thresh => commandWord 0x03#8 thresh 0#8 0#8
  | .waitIdle => commandWord 0x04#8 0#8 0#8 0#8
  | .reset => commandWord 0x10#8 0#8 0#8 0#8
  | .writeByte data => commandWord 0x11#8 data 0#8 0#8
  | .writeBytePwr data => commandWord 0x12#8 data 0#8 0#8
  | .endPower => commandWord 0x13#8 0#8 0#8 0#8
  | .readByte => commandWord 0x14#8 0#8 0#8 0#8
  | .triplet dirPref => commandWord 0x15#8 (bitOperand dirPref) 0#8 0#8
  | .crc8Upd acc data => commandWord 0x20#8 acc data 0#8
  | .searchReset => commandWord 0x30#8 0#8 0#8 0#8
  | .search romcmd => commandWord 0x31#8 romcmd 0#8 0#8
  | .first => commandWord 0x32#8 0#8 0#8 0#8
  | .next => commandWord 0x33#8 0#8 0#8 0#8
  | .select => commandWord 0x40#8 0#8 0#8 0#8
  | .slotRst => (Slot.word .rst).setWidth 32
  | .slotW0 => (Slot.word .w0).setWidth 32
  | .slotW1 => (Slot.word .w1).setWidth 32
  | .slotRd => (Slot.word .rd).setWidth 32
  | .slotRel => (Slot.word .rel).setWidth 32
  | .slotW0Pwr => (Slot.word .w0Pwr).setWidth 32
  | .slotW1Pwr => (Slot.word .w1Pwr).setWidth 32

/-- What the decoder reads from the bits of an opcode-table row: an 8-bit row is a slot word, a longer one a
command word. -/
def decodeTableWord (nbits w : Nat) : Option Instr :=
  if nbits ≤ 8 then
    match decodeSlot (BitVec.ofNat 8 w) with
    | .ok k => some k.toInstr
    | .error _ => none
  else
    match decodeCommand (BitVec.ofNat 32 w) with
    | .ok i => some i
    | .error _ => none

end Sys2Proof
end

