-- ==== Sys2Proof/Config.lean ====
section
/-! DEFINITION. What an implementation fixes (the parameters of 00_scope.md R3) and the free values
(R221, R431, ResourceFree of R3). -/

namespace Sys2Proof

/-- The parameters of R3. Times are in whole microseconds (DESIGN CHOICE, log 27: R3 gives bounds in microseconds and
states no granularity; unsafe for a statement about the times of every platform). They are held in `State.params`, which no step changes, so a
statement about every state is about every platform (assumption log 5). -/
structure Params where
  /-- N_GPIO: GPIO pins selectable as `pin` or `dirpin`. -/
  nGpio : Nat
  /-- HAS_DIR: the platform wires a direction-control GPIO. -/
  hasDir : Bool
  /-- DIR_TX_LEVEL: level of the direction pin while the master drives the line. -/
  dirTxLevel : Bool
  /-- TXQ_DEPTH: depth of the outbound queue in slot words. -/
  txqDepth : Nat
  /-- RXQ_DEPTH: depth of the inbound queue in sample words. -/
  rxqDepth : Nat
  /-- T_RSTL: reset low time. -/
  tRstl : Nat
  /-- T_MSP: presence sample point after release. -/
  tMsp : Nat
  /-- T_RSTH: time from release to the end of reset. -/
  tRsth : Nat
  /-- T_SLOT: duration of a time slot with recovery. -/
  tSlot : Nat
  /-- T_LOW1: low time of a write-1 slot. -/
  tLow1 : Nat
  /-- T_LOW0: low time of a write-0 slot. -/
  tLow0 : Nat
  /-- T_RL: low time that opens a read slot. -/
  tRl : Nat
  /-- T_MSR: read sample point from the slot's start. -/
  tMsr : Nat
  deriving DecidableEq, Repr

/-- The constraints of R3, each as the table gives it. -/
def Params.ok (p : Params) : Bool :=
  decide (1 ≤ p.nGpio) && decide (p.nGpio ≤ 256) && decide (1 ≤ p.txqDepth) &&
  decide (1 ≤ p.rxqDepth) && decide (p.rxqDepth ≤ 255) &&
  decide (480 ≤ p.tRstl) && decide (0 < p.tMsp) && decide (p.tMsp < p.tRsth) &&
  decide (60 ≤ p.tSlot) && decide (1 ≤ p.tLow1) && decide (p.tLow1 < 15) &&
  decide (60 ≤ p.tLow0) && decide (p.tLow0 < p.tSlot) &&
  decide (1 ≤ p.tRl) && decide (p.tRl < p.tMsr) && decide (p.tMsr ≤ 15)

/-- The defaults R3 lists. DESIGN CHOICE: the spec's suggestion, not a claim of the source (assumption log 5). -/
def Params.default : Params :=
  { nGpio := 30, hasDir := true, dirTxLevel := true, txqDepth := 4, rxqDepth := 4,
    tRstl := 480, tMsp := 70, tRsth := 480, tSlot := 70, tLow1 := 6, tLow0 := 60, tRl := 6, tMsr := 15 }

/-- Free value: the level a device leaves on the released line at the n-th unscripted sample (R431; log 2). -/
opaque Config.busSample : Nat → Bool

/-- Free value: the platform's n-th unscripted answer to INIT: none when no engine slot or program space is free
(ResourceFree, R3, R454), else the claimed slot and offset (R452; log 3). -/
opaque Config.engineClaim : Nat → Option (Nat × Nat)

/-- Free value: what the n-th read of SRCH, ROM0 or ROM1 during a command returns (R221; log 4). -/
opaque Config.busyRead : Nat → Word

end Sys2Proof
end

