-- ==== Sys2Proof/Machine/State.lean ====
section
/-! DEFINITION. The state of OWM as plain data (10_state.md), why a step can stop (60_exceptions.md R711), and the
state after the block reset (R121, R801). -/

namespace Sys2Proof.Machine

/-! ## The timing engine and the line -/

/-- What the master does to the line (R118, R403). -/
inductive Line where
  /-- Released: the open-drain output is off. -/
  | rel
  /-- Driven low. -/
  | low
  /-- Driven high: the strong pull-up. -/
  | pwr
  deriving DecidableEq, Repr

/-- The point a slot in progress has reached (R421–R426): between two points of its table nothing changes. -/
inductive Phase where
  /-- From t = 0: the line is driven low. -/
  | low
  /-- From the release point. -/
  | released
  /-- From the sample point, with the sample taken there. -/
  | sampled (v : Bool)
  deriving DecidableEq, Repr

/-- The engine's position (R104): STOPPED, IDLE, or RUN(k) with the point of the slot it has reached. -/
inductive Engine where
  | stopped
  | idle
  | run (k : Slot) (at_ : Phase)
  deriving DecidableEq, Repr

/-- A bus event (R119). -/
inductive BusEvent where
  | reset (sample : Bool)
  | write (bit powerAfter : Bool)
  | read (sample : Bool)
  | release
  deriving DecidableEq, Repr

/-- The claimed engine slot and program offset, opaque to every command (R118, R452). -/
structure Handle where
  slot : Nat
  offset : Nat
  deriving DecidableEq, Repr

/-! ## Registers -/

/-- The outcome codes, the only values RESULT.CODE takes (R702). -/
inductive Code where
  | ok | noPresence | exhausted | noResponse | crcFail | familyZero | noResource | illegal
  deriving DecidableEq, Repr

/-- RESULT: CODE, DATA and FLAG of the last completed command (R108). -/
structure ResultReg where
  code : Code
  data : Byte
  flag : Bool
  deriving DecidableEq, Repr

/-- CFG: PIN, DIRPIN, FIFO_THRESH, DIR_EN (R109). -/
structure CfgReg where
  pin : Byte
  dirpin : Byte
  thresh : Byte
  dirEn : Bool
  deriving DecidableEq, Repr

/-- The search state (R114): `rom_no`, LD, LFD, LDF and `crc8`, seen through ROM0, ROM1 and SRCH (R110, R111). -/
structure SearchReg where
  ld : BitVec 7
  lfd : BitVec 4
  ldf : Bool
  crc8 : Byte
  rom : RomCode
  deriving DecidableEq, Repr

/-! ## The sequencer's position in a command (R118 `s.seq`) -/

/-- The local variables of a search pass (R604): the bit position p about to be read, `last_zero`, `last_fam`. -/
structure Scan where
  p : Nat
  lastZero : Nat
  lastFam : Nat
  deriving DecidableEq, Repr

/-- Which sample the sequencer waits for. -/
inductive Wait where
  /-- RESET's presence sample (R501). -/
  | reset
  /-- The presence sample of a pass with this ROM command byte (R607). -/
  | search (romcmd : Byte)
  /-- SELECT's presence sample (R651). -/
  | select
  /-- Bit i of READ_BYTE, with the bits read so far (R513). -/
  | read (i : Nat) (acc : Byte)
  /-- TRIPLET's first sample (R516). -/
  | tripId (pref : Bool)
  /-- TRIPLET's second sample. -/
  | tripCmp (pref id : Bool)
  /-- The first sample of a search bit (R610). -/
  | scanId (sc : Scan)
  /-- The second sample of a search bit. -/
  | scanCmp (sc : Scan) (id : Bool)
  deriving DecidableEq, Repr

/-- What the sequencer does once it has pushed the slot words it holds. -/
inductive Cont where
  /-- The command is decoded and checked; its own steps begin (R303, R731). -/
  | start (i : Instr)
  /-- Wait for a sample and go on with it. -/
  | sample (w : Wait)
  /-- The direction of a search bit with these samples is written: once its write slot has ended the bit is recorded,
  or, after (1, 1), the pass aborts (R610–R617). -/
  | record (sc : Scan) (id cmp : Bool)
  /-- A pass found no presence: once the RST slot has ended it resets the tracking and completes (R607). -/
  | absent
  /-- Wait until the engine is IDLE and the queue empty, then Complete (R112). -/
  | done (r : ResultReg)
  deriving DecidableEq, Repr

/-- The sequencer's position: slot words still to be pushed onto `s.txq`, then how it goes on. -/
structure Seq where
  todo : List Slot
  cont : Cont
  deriving DecidableEq, Repr

/-! ## The environment (outside OWM) -/

/-- The phase of a reference device in a search bit (R432). -/
inductive BitPhase where
  | id | cmp | dir
  deriving DecidableEq, Repr

/-- The mode of a reference device (R432). -/
inductive DeviceMode where
  | waitCmd (k : Nat) (c : Byte)
  | search (p : Nat) (ph : BitPhase)
  | matchRom (p : Nat)
  | selected
  | inactive
  deriving DecidableEq, Repr

/-- A reference device (R432). -/
structure Device where
  rom : RomCode
  alarm : Bool
  mode : DeviceMode
  deriving DecidableEq, Repr

/-- What answers a sample on the released line (R404, R431). -/
inductive Bus where
  /-- Any line: the listed draws in slot order, then free values. -/
  | draws (script : List Bool)
  /-- The reference environment of 40_timing_engine.md section 5, which is no part of OWM. -/
  | reference (devices : List Device)
  deriving DecidableEq, Repr

/-- What happens next in a run: a host access, a turn of an agent, or the platform's block reset
(R309, R801, R841; log 1). -/
inductive Input where
  /-- R309 `cmd`: write the word to CMD and poll STATUS until BUSY = 0. -/
  | cmd (w : Word)
  /-- A host write of this width in bits at this byte offset of the block (R204). -/
  | write (width : Nat) (off : BitVec 6) (v : Word)
  /-- A host read (R204). -/
  | read (width : Nat) (off : BitVec 6)
  /-- The sequencer makes one move. -/
  | sequencerTurn
  /-- The timing engine reaches its next point. -/
  | engineTurn
  /-- The block reset (R801, R802). -/
  | blockReset
  deriving DecidableEq, Repr

/-! ## The state -/

/-- Everything the spec gives OWM (R105–R121), then the platform's parameters (R3), then the model's own fields:
the environment, the inputs still to come, the host's last read value and the index of the next free value. -/
structure State where
  result : ResultReg
  cfg : CfgReg
  srch : SearchReg
  selrom : RomCode
  engine : Engine
  line : Line
  txq : List Slot
  rxq : List Bool
  handle : Option Handle
  pullOff : Bool
  hist : List BusEvent
  seq : Option Seq
  params : Params
  bus : Bus
  pool : List (Option Handle)
  input : List Input
  readData : Word
  draws : Nat
  deriving DecidableEq, Repr

/-- The state after the block reset: every value of R121; the parameters' defaults (log 5); the model's own fields
as log 6 says. -/
def State.reset : State where
  result := { code := .ok, data := 0#8, flag := false }
  cfg := { pin := 0#8, dirpin := 0#8, thresh := 0#8, dirEn := false }
  srch := { ld := 0#7, lfd := 0#4, ldf := false, crc8 := 0#8, rom := 0#64 }
  selrom := 0#64
  engine := .stopped
  line := .rel
  txq := []
  rxq := []
  handle := none
  pullOff := false
  hist := []
  seq := none
  params := Params.default
  bus := .draws []
  pool := []
  input := []
  readData := 0#32
  draws := 0

/-! ## Why a step stops -/

/-- The faults of R711, each with what the model records. A fault changes no state and ends the run (R711, R712):
safe, since the hardware's behaviour there is unspecified and the model claims nothing of it. -/
inductive Fault where
  /-- A host write to CMD while BUSY = 1; raised by the register block (R105, R711). Safe. -/
  | busyWrite (w : Word)
  /-- A command that needs a handle while there is none; raised by every command but INIT and CRC8_UPD
  (R711, R713). Safe. -/
  | notClaimed (w : Word)
  /-- INIT while a handle is valid; raised by INIT (R451, R711). Safe. -/
  | alreadyClaimed (w : Word)
  /-- INIT with a pin outside the platform, or an absent, outside or equal direction pin; raised by INIT
  (R451, R711). Safe. -/
  | badPin (w : Word)
  /-- A bus command on the powered line; raised by RESET, WRITE_BYTE, WRITE_BYTE_PWR, READ_BYTE, TRIPLET, SEARCH,
  FIRST, NEXT, SELECT (R711, R713). Safe. -/
  | powered (w : Word)
  /-- A host access that is not 32 bits wide or not at a multiple of 4; raised by the register block
  (R204, R711). Safe. -/
  | badAccess (off : BitVec 6) (width : Nat)
  /-- A host write to SEL0 or SEL1 while BUSY = 1; raised by the register block (R220, R711). Safe. -/
  | selWhileBusy (off : BitVec 6) (v : Word)
  deriving DecidableEq, Repr

/-- Why the model gives no next state without a fault of the spec. -/
inductive Refusal where
  /-- An instruction whose meaning is not written; raised by exec's arms only. Safe. None is left. -/
  | notModelled (mnemonic : String)
  /-- A slot word given to a STOPPED engine: no program is running to take it (R104, R411, R412); raised by the
  slot words. No run reaches it, since a STOPPED engine's queue is empty. Safe (log 10). -/
  | engineStopped
  deriving DecidableEq, Repr

end Sys2Proof.Machine
end

