-- ==== Sys2Proof/Machine/Operands.lean ====
section
/-! DEFINITION. Operand forms: bits of bytes and ROM codes in the order of the line (R206, R207, R603), the slot
words that carry them, INIT's pins (R451), the queue threshold (R458), the direction of a search bit (R609). -/

namespace Sys2Proof.Machine

/-! ## Bits and bytes -/

/-- `x` with bit i set to b, the other bits unchanged (R603 `setRomBit`, R513 `b[i] <- …`). -/
def withBit {n : Nat} (x : BitVec n) (i : Nat) (b : Bool) : BitVec n :=
  if b then x ||| BitVec.twoPow n i else x &&& ~~~(BitVec.twoPow n i)

/-- The bits of a byte in the order they go on the line: least significant first (R206). -/
def byteBits (d : Byte) : List Bool :=
  [d.getLsbD 0, d.getLsbD 1, d.getLsbD 2, d.getLsbD 3, d.getLsbD 4, d.getLsbD 5, d.getLsbD 6, d.getLsbD 7]

/-- Byte k of a ROM code: `rom[k]` (R6, R111). -/
def romByte (r : RomCode) (k : Nat) : Byte := r.extractLsb' (8 * k) 8

/-- `rom[0], …, rom[7]`: the family code first (R207). -/
def romBytes (r : RomCode) : List Byte :=
  [romByte r 0, romByte r 1, romByte r 2, romByte r 3, romByte r 4, romByte r 5, romByte r 6, romByte r 7]

/-- The bits of a ROM code in the order of the line (R206, R207). -/
def romBits (r : RomCode) : List Bool := (romBytes r).flatMap byteBits

/-! ## Slot words -/

/-- The write slot of a bit (42_transfer.md `WriteBit`). -/
def writeSlot (b : Bool) : Slot := if b then .w1 else .w0

/-- The write slot of a bit with P = 1 (42_transfer.md `SlotP`). -/
def writeSlotPwr (b : Bool) : Slot := if b then .w1Pwr else .w0Pwr

/-- The slot words of `WriteBitsOf(d)` (42_transfer.md). -/
def byteSlots (d : Byte) : List Slot := (byteBits d).map writeSlot

/-- The slot words of WRITE_BYTE_PWR: bits 0..6 as in WRITE_BYTE, bit 7 with P = 1 (R507). -/
def byteSlotsPwr (d : Byte) : List Slot :=
  ((byteBits d).take 7).map writeSlot ++ [writeSlotPwr (d.getLsbD 7)]

/-- The slot words of SELECT after a presence: 0x55, then selrom[0] first (R651). -/
def selectSlots (r : RomCode) : List Slot := byteSlots 0x55#8 ++ (romBits r).map writeSlot

/-! ## Operands of commands -/

/-- INIT's pin check (R451): `pin ≥ N_GPIO`, or DIR_EN = 1 with no direction GPIO on the platform,
`dirpin ≥ N_GPIO`, or `dirpin = pin`. -/
def badPins (p : Params) (pin dirpin : Byte) (dirEn : Bool) : Bool :=
  decide (p.nGpio ≤ pin.toNat) ||
    (dirEn && (!p.hasDir || decide (p.nGpio ≤ dirpin.toNat) || decide (dirpin = pin)))

/-- The stored threshold: `min(thresh, RXQ_DEPTH)` (R458). -/
def clampThresh (p : Params) (thresh : Byte) : Byte := BitVec.ofNat 8 (min thresh.toNat p.rxqDepth)

/-- TRIPLET's DATA: zext_8({dir, cmp, id}) (R516). -/
def tripletByte (id cmp dir : Bool) : Byte :=
  0#5 ++ BitVec.ofBool dir ++ BitVec.ofBool cmp ++ BitVec.ofBool id

/-- The direction a triplet writes: the shared bit when the samples differ, else the preferred one
(R516, R610). -/
def direction (id cmp pref : Bool) : Bool := if id != cmp then id else pref

/-- The preferred direction at bit position p, bit number n = p + 1: the previous code's bit below LD, 1 at LD,
0 above (R609; 90_conflicts.md C5). -/
def preferred (r : SearchReg) (p : Nat) : Bool :=
  if p + 1 < r.ld.toNat then r.rom.getLsbD p else decide (p + 1 = r.ld.toNat)

end Sys2Proof.Machine
end

