-- ==== Sys2Proof/Machine/Bus.lean ====
section
/-! DEFINITION. The line's environment. The reference devices of 40_timing_engine.md section 5 are no part of OWM
(R431): they are one of the two environments a state may hold. -/

namespace Sys2Proof.Machine

/-- What a ROM command byte makes of a reference device (R434). -/
def Device.command (d : Device) (c : Byte) : DeviceMode :=
  if c = 0xF0#8 then .search 0 .id
  else if c = 0xEC#8 then if d.alarm then .search 0 .id else .inactive
  else if c = 0x55#8 then .matchRom 0
  else .inactive

/-- The level a reference device presents in a read slot: 0 pulls the line low (R434–R437). -/
def Device.presents (d : Device) : Bool :=
  match d.mode with
  | .search p .id => d.rom.getLsbD p
  | .search p .cmp => !d.rom.getLsbD p
  | .search _ .dir => true
  | .waitCmd _ _ => true
  | .matchRom _ => true
  | .selected => true
  | .inactive => true

/-- A reference device's next mode after a written bit (R434–R437). -/
def Device.afterWrite (d : Device) (b : Bool) : DeviceMode :=
  match d.mode with
  | .waitCmd k c => if k < 7 then .waitCmd (k + 1) (withBit c k b) else d.command (withBit c k b)
  | .search p .dir =>
    if b != d.rom.getLsbD p then .inactive else if p = 63 then .selected else .search (p + 1) .id
  | .matchRom p => if b != d.rom.getLsbD p then .inactive else if p = 63 then .selected else .matchRom (p + 1)
  | .search p .id => .search p .id
  | .search p .cmp => .search p .cmp
  | .selected => .selected
  | .inactive => .inactive

/-- A reference device's next mode after a read slot (R434, R435, R437). -/
def Device.afterRead (d : Device) : DeviceMode :=
  match d.mode with
  | .search p .id => .search p .cmp
  | .search p .cmp => .search p .dir
  | .search p .dir => .search p .dir
  | .waitCmd k c => .waitCmd k c
  | .matchRom p => .matchRom p
  | .selected => .selected
  | .inactive => .inactive

/-- A reference device after a bus event: Reset acts in every mode (R433, R437). -/
def Device.observe (d : Device) : BusEvent → Device
  | .reset _ => { d with mode := .waitCmd 0 0#8 }
  | .write b _ => { d with mode := d.afterWrite b }
  | .read _ => { d with mode := d.afterRead }
  | .release => d

/-- The environment after a bus event. -/
def Bus.observe (b : Bus) (e : BusEvent) : Bus :=
  match b with
  | .draws script => .draws script
  | .reference ds => .reference (ds.map fun d => d.observe e)

/-- The level of the released line at the sample point of a slot: every device pulls the presence window low
(R433); in a read slot the level is the AND of what the devices present, 1 if there are none (R404, R435). -/
def referenceLevel (ds : List Device) (k : Slot) : Bool :=
  if k = .rst then ds.isEmpty else ds.all fun d => d.presents

end Sys2Proof.Machine
end

