-- ==== Sys2Proof/Machine/Flags.lean ====
section
/-! DEFINITION. The status bits and the register words the host reads: STATUS (R106, R107, R120, R442), RESULT
(R108, R702), CFG (R109), SRCH (R110), and the Booleans of RESULT (R113). -/

namespace Sys2Proof.Machine

/-! ## STATUS -/

/-- STATUS.BUSY: a command is in progress (R105, R106, R112). -/
def State.busy (s : State) : Bool := s.seq.isSome

/-- STATUS.CLAIMED = 1 exactly when `s.handle ≠ none` (R120). -/
def State.claimed (s : State) : Bool := s.handle.isSome

/-- STATUS.POWER = 1 exactly when `s.line = PWR` (R120). -/
def State.power (s : State) : Bool := decide (s.line = .pwr)

/-- STATUS.RXRDY = 1 exactly when `len(s.rxq) ≥ max(1, CFG.FIFO_THRESH)` (R442). -/
def State.rxrdy (s : State) : Bool := decide (max 1 s.cfg.thresh.toNat ≤ s.rxq.length)

/-- STATUS.SSTATE: 2 EXHAUSTED if LDF, else 1 SEARCHING if LD ≠ 0, else 0 IDLE (R107). It is exact while BUSY too
(R219), so it follows FIRST's reset of LD and LDF; that R209 names only BUSY and RXRDY as changing between two reads
with no completion between is settled so (DESIGN CHOICE, log 28; unsafe). -/
def SearchReg.sstate (r : SearchReg) : BitVec 2 :=
  if r.ldf then 2#2 else if r.ld = 0#7 then 0#2 else 1#2

/-- STATUS (R106): BUSY bit 0, CLAIMED bit 1, POWER bit 2, RXRDY bit 3, SSTATE bits 5:4, bits 31:6 zero. Computed from
the state at every read, while BUSY too (R219; against R209's wording for SSTATE and POWER, DESIGN CHOICE, log 28). -/
def State.statusWord (s : State) : Word :=
  0#26 ++ s.srch.sstate ++ BitVec.ofBool s.rxrdy ++ BitVec.ofBool s.power ++
    BitVec.ofBool s.claimed ++ BitVec.ofBool s.busy

/-! ## RESULT -/

/-- The numeric outcome codes (R702). -/
def Code.byte : Code → Byte
  | .ok => 0x00#8
  | .noPresence => 0x01#8
  | .exhausted => 0x02#8
  | .noResponse => 0x03#8
  | .crcFail => 0x04#8
  | .familyZero => 0x05#8
  | .noResource => 0x10#8
  | .illegal => 0xFE#8

/-- RESULT = {15'b0, flag, data, code} (R108, R112). -/
def ResultReg.word (r : ResultReg) : Word :=
  0#15 ++ BitVec.ofBool r.flag ++ r.data ++ r.code.byte

/-- The result of a command that hands back the Boolean `b`: FLAG is b (R113). -/
def ResultReg.flagged (code : Code) (b : Bool) : ResultReg := { code := code, data := 0#8, flag := b }

/-- The result of a command that completes OK with nothing to hand back (R113). -/
def ResultReg.done : ResultReg := ResultReg.flagged .ok false

/-- The result of a command that hands back a byte: DATA is the byte, FLAG 0 (R108, R113). -/
def ResultReg.byte (d : Byte) : ResultReg := { code := .ok, data := d, flag := false }

/-- RESET's and SELECT's outcome from the RST sample: presence is its inverse (R502, R651). -/
def ResultReg.presence (v : Bool) : ResultReg :=
  if v then ResultReg.flagged .noPresence false else ResultReg.flagged .ok true

/-! ## CFG, SRCH, ROM and SEL -/

/-- CFG (R109): PIN 7:0, DIRPIN 15:8, FIFO_THRESH 23:16, DIR_EN bit 24, bits 31:25 zero. -/
def CfgReg.word (c : CfgReg) : Word :=
  0#7 ++ BitVec.ofBool c.dirEn ++ c.thresh ++ c.dirpin ++ c.pin

/-- SRCH (R110): LD 6:0, LFD 11:8, LDF bit 12, CRC8 23:16, the other bits zero. -/
def SearchReg.word (r : SearchReg) : Word :=
  0#8 ++ r.crc8 ++ 0#3 ++ BitVec.ofBool r.ldf ++ r.lfd ++ 0#1 ++ r.ld

/-- Bytes 0..3 of a ROM code, little-endian: ROM0 and SEL0 (R111, R208). -/
def lowWord (r : RomCode) : Word := r.extractLsb' 0 32

/-- Bytes 4..7 of a ROM code, little-endian: ROM1 and SEL1 (R111, R208). -/
def highWord (r : RomCode) : Word := r.extractLsb' 32 32

/-- The ROM code with bytes 0..3 replaced (a write to SEL0, R111). -/
def withLowWord (r : RomCode) (v : Word) : RomCode := highWord r ++ v

/-- The ROM code with bytes 4..7 replaced (a write to SEL1, R111). -/
def withHighWord (r : RomCode) (v : Word) : RomCode := v ++ lowWord r

end Sys2Proof.Machine
end

