-- ==== Sys2Proof/Machine/Ops.lean ====
section
/-! DEFINITION. The named operations over the state. OWM takes no exceptions (R701, R733): an outcome is a code in
RESULT written by `complete`, and host misuse is a fault (R711), raised by `guarded`. -/

namespace Sys2Proof.Machine

/-! ## Completion (R112) -/

/-- `Complete(code, data, flag)`: RESULT is written and BUSY becomes 0 as one update (R112). -/
def State.complete (s : State) (r : ResultReg) : State := { s with result := r, seq := none }

/-- An illegal word completes at once with ILLEGAL and changes nothing else (R304). -/
def State.completeIllegal (s : State) : State := s.complete (ResultReg.flagged .illegal false)

/-! ## Faults and the order of checks (R711, R713, R731) -/

/-- A fault if a check found one, else the next state. A fault carries no state: it changes none (R711). -/
def guarded (f : Option Fault) (t : State) : Host.Outcome State Fault Refusal :=
  match f with
  | some e => .fault e
  | none => .next t

/-- The check of every command that needs a handle (R713). -/
def State.unclaimedFault (s : State) (w : Word) : Option Fault :=
  if s.handle.isNone then some (.notClaimed w) else none

/-- The checks of a bus command: NotClaimed, then Powered (R713, R731). -/
def State.busFault (s : State) (w : Word) : Option Fault :=
  if s.handle.isNone then some (.notClaimed w)
  else if s.line = .pwr then some (.powered w) else none

/-- The checks of INIT: AlreadyClaimed, then BadPin (R451, R731). -/
def State.initFault (s : State) (w : Word) (pin dirpin : Byte) (dirEn : Bool) : Option Fault :=
  if s.handle.isSome then some (.alreadyClaimed w)
  else if badPins s.params pin dirpin dirEn then some (.badPin w) else none

/-! ## The search state -/

/-- ResetTracking: LD, LFD and LDF become 0 (R602). -/
def State.resetTracking (s : State) : State :=
  { s with srch := { s.srch with ld := 0#7, lfd := 0#4, ldf := false } }

/-- `rom_no[0..7] <- 0` and ResetTracking (R617). -/
def State.discardRom (s : State) : State :=
  { s with srch := { s.srch with ld := 0#7, lfd := 0#4, ldf := false, rom := 0#64 } }

/-! ## The line -/

/-- An event is appended to `s.hist` and the devices on the line see it (R119). -/
def State.record (s : State) (e : BusEvent) : State :=
  { s with hist := s.hist ++ [e], bus := s.bus.observe e }

/-- A draw of the released line's level in a slot: the next scripted draw, a free value when none is left
(R431), or the reference devices' level (R404, R433–R437). -/
def State.drawLevel (s : State) (k : Slot) : Bool × State :=
  match s.bus with
  | .draws (v :: rest) => (v, { s with bus := .draws rest })
  | .draws [] => (Config.busSample s.draws, { s with draws := s.draws + 1 })
  | .reference ds => (referenceLevel ds k, s)

/-- `Sample()`: the level of the line (R404): 0 while the master drives it low, 1 while it is powered, else what
the devices leave on it. -/
def State.sampleLine (s : State) (k : Slot) : Bool × State :=
  match s.line with
  | .low => (false, s)
  | .pwr => (true, s)
  | .rel => s.drawLevel k

/-- What OWM drives onto DQ: nothing, 0 or 1 (R401, R403). -/
def State.dqDrive (s : State) : Option Bool :=
  match s.line with
  | .rel => none
  | .low => some false
  | .pwr => some true

/-- The level OWM drives onto DIR, none when it does not drive it (R405). -/
def State.dirLevel (s : State) : Option Bool :=
  if s.cfg.dirEn && s.handle.isSome then
    some (if s.line = .rel then !s.params.dirTxLevel else s.params.dirTxLevel)
  else none

end Sys2Proof.Machine
end

