-- ==== Sys2Proof/Machine/Engine.lean ====
section
/-! DEFINITION. The timing engine (40_timing_engine.md): the points of a slot in order, their times, running a slot
to its end, and the meanings of the seven slot words (R421–R426). -/

namespace Sys2Proof.Machine

/-! ## What the slots are (R421–R426) -/

/-- The slots with a sample point: RST and RD (R307, R421, R426). -/
def slotSamples : Slot → Bool
  | .rst => true
  | .rd => true
  | .w0 => false
  | .w1 => false
  | .rel => false
  | .w0Pwr => false
  | .w1Pwr => false

/-- What the master does to the line from the slot's release point on: PWR when P = 1 (R424), else REL. -/
def releaseLine : Slot → Line
  | .w0Pwr => .pwr
  | .w1Pwr => .pwr
  | .rst => .rel
  | .w0 => .rel
  | .w1 => .rel
  | .rd => .rel
  | .rel => .rel

/-- The event a slot appends at its end; v is the sample of a slot that takes one (R421–R426). -/
def slotEvent (k : Slot) (v : Bool) : BusEvent :=
  match k with
  | .rst => .reset v
  | .w0 => .write false false
  | .w1 => .write true false
  | .rd => .read v
  | .rel => .release
  | .w0Pwr => .write false true
  | .w1Pwr => .write true true

/-- The time of a slot's release point, in µs from its start (R421–R426). -/
def releaseAt (p : Params) : Slot → Nat
  | .rst => p.tRstl
  | .w0 => p.tLow0
  | .w1 => p.tLow1
  | .rd => p.tRl
  | .rel => 0
  | .w0Pwr => p.tLow0
  | .w1Pwr => p.tLow1

/-- The time of a slot's sample point, where it has one (R421, R426). -/
def sampleAt (p : Params) : Slot → Option Nat
  | .rst => some (p.tRstl + p.tMsp)
  | .rd => some p.tMsr
  | .w0 => none
  | .w1 => none
  | .rel => none
  | .w0Pwr => none
  | .w1Pwr => none

/-- The time of a slot's end: its duration (R421–R426, R831). -/
def endAt (p : Params) : Slot → Nat
  | .rst => p.tRstl + p.tRsth
  | .w0 => p.tSlot
  | .w1 => p.tSlot
  | .rd => p.tSlot
  | .rel => 0
  | .w0Pwr => p.tSlot
  | .w1Pwr => p.tSlot

/-- The duration of the slot an event ends (R831). -/
def eventTime (p : Params) : BusEvent → Nat
  | .reset _ => endAt p .rst
  | .write b _ => endAt p (writeSlot b)
  | .read _ => endAt p .rd
  | .release => endAt p .rel

/-- The least time the slots of these events take: no gap between slots (R832). -/
def busTime (p : Params) (es : List BusEvent) : Nat := (es.map (eventTime p)).sum

/-! ## One point at a time -/

/-- A slot's end: its event is appended and the engine is IDLE again (R412, R421–R426). -/
def State.endSlot (s : State) (k : Slot) (v : Bool) : State :=
  { s.record (slotEvent k v) with engine := .idle }

/-- The slot's t = 0: the line is driven low; REL releases it and ends at once (R421–R425). -/
def State.takeSlot (s : State) (k : Slot) : State :=
  if k = .rel then { s with line := .rel }.endSlot .rel false
  else { s with line := .low, engine := .run k .low }

/-- The sample point: the level is pushed onto `s.rxq` (R307, R421, R426). -/
def State.samplePoint (s : State) (k : Slot) : State :=
  { (s.sampleLine k).2 with
    rxq := s.rxq ++ [(s.sampleLine k).1], engine := .run k (.sampled (s.sampleLine k).1) }

/-- The slot in progress reaches its next point (R421–R426); without one nothing happens. -/
def State.nextPoint (s : State) : State :=
  match s.engine with
  | .stopped => s
  | .idle => s
  | .run k .low => { s with line := releaseLine k, engine := .run k .released }
  | .run k .released => if slotSamples k then s.samplePoint k else s.endSlot k false
  | .run k (.sampled v) => s.endSlot k v

/-- One turn of the engine: it takes the head of `s.txq` when IDLE, else it reaches the next point of its slot
(R412); STOPPED it does nothing. -/
def State.engineTurn (s : State) : State :=
  match s.engine, s.txq with
  | .idle, k :: rest => { s with txq := rest }.takeSlot k
  | .idle, [] => s
  | .stopped, _ => s
  | .run _ _, _ => s.nextPoint

/-! ## Whole slots -/

/-- The slot in progress runs to its end (R413); a slot has at most three points after its start. -/
def State.finishSlot (s : State) : State := s.nextPoint.nextPoint.nextPoint

/-- A whole slot, from the taking of its word to its end. -/
def State.runSlot (s : State) (k : Slot) : State := (s.takeSlot k).finishSlot

/-- Whole slots, one after the other. -/
def State.runSlots (s : State) : List Slot → State
  | [] => s
  | k :: rest => (s.runSlot k).runSlots rest

/-- The engine runs everything it has: the slot in progress, then every queued word in order, and is IDLE with
`s.txq` empty (R412, R413). Callers have a running engine (R120). -/
def State.settle (s : State) : State := { s.finishSlot with txq := [] }.runSlots s.txq

/-! ## The meanings of the slot words -/

/-- A slot word given to the engine: a slot in progress ends first (R413), then the slot runs; a STOPPED engine
has no program to take it (R104, R412). -/
def State.slotMeaning (s : State) (k : Slot) : Host.Outcome State Fault Refusal :=
  if s.engine = .stopped then .refused .engineStopped else .next (s.finishSlot.runSlot k)

/-- SLOT_RST: bus reset and presence sample (R421). -/
def execSlotRst (s : State) : Host.Outcome State Fault Refusal := s.slotMeaning .rst

/-- SLOT_W0: write-0 slot (R423). -/
def execSlotW0 (s : State) : Host.Outcome State Fault Refusal := s.slotMeaning .w0

/-- SLOT_W1: write-1 slot (R422). -/
def execSlotW1 (s : State) : Host.Outcome State Fault Refusal := s.slotMeaning .w1

/-- SLOT_RD: read slot (R426). -/
def execSlotRd (s : State) : Host.Outcome State Fault Refusal := s.slotMeaning .rd

/-- SLOT_REL: end of the strong pull-up (R425). -/
def execSlotRel (s : State) : Host.Outcome State Fault Refusal := s.slotMeaning .rel

/-- SLOT_W0_PWR: write-0 slot that leaves the line powered (R424). -/
def execSlotW0Pwr (s : State) : Host.Outcome State Fault Refusal := s.slotMeaning .w0Pwr

/-- SLOT_W1_PWR: write-1 slot that leaves the line powered (R424). -/
def execSlotW1Pwr (s : State) : Host.Outcome State Fault Refusal := s.slotMeaning .w1Pwr

end Sys2Proof.Machine
end

