-- ==== Sys2Proof/Machine/Queue.lean ====
section
/-! DEFINITION. The sequencer's side of the two queues (42_transfer.md "Slot helpers"; R441). In a whole command
the engine's runs are folded into the places where the sequencer waits: for a sample, and before Complete. -/

namespace Sys2Proof.Machine

/-- Slot words pushed onto `s.txq`, in order. -/
def State.queue (s : State) (ws : List Slot) : State := { s with txq := s.txq ++ ws }

/-- The head of `s.rxq` is removed. A caller has just run a slot that pushed a sample, so the queue is not
empty. -/
def State.popSample (s : State) : Bool × State :=
  match s.rxq with
  | v :: rest => (v, { s with rxq := rest })
  | [] => (true, s)

/-- `Slot(k)` for RST and RD: push the word, wait for the sample, remove it (42_transfer.md). -/
def State.slot (s : State) (k : Slot) : Bool × State := (s.queue [k]).settle.popSample

/-- Complete after every queued slot has finished and the engine is IDLE (R112). -/
def State.finishWith (s : State) (r : ResultReg) : State := s.settle.complete r

end Sys2Proof.Machine
end

