-- ==== Sys2Proof/Machine/Lifecycle.lean ====
section
/-! DEFINITION. INIT, TEARDOWN, SET_FIFO_THRESH, WAIT_IDLE (41_lifecycle.md). Each has its own steps, which the
sequencer runs too, and its meaning: the checks of R713, then the steps. -/

namespace Sys2Proof.Machine

/-! ## INIT (R451) -/

/-- The platform's answer to INIT: the next scripted one, or a free value when none is left (R3 ResourceFree,
R452, R454). -/
def State.claim (s : State) : Option Handle × State :=
  match s.pool with
  | answer :: rest => (answer, { s with pool := rest })
  | [] => ((Config.engineClaim s.draws).map fun h => ⟨h.1, h.2⟩, { s with draws := s.draws + 1 })

/-- INIT's effect once an engine slot and offset are claimed (R451, R453). -/
def State.withClaim (s : State) (h : Handle) (pin dirpin : Byte) (dirEn : Bool) : State :=
  { s with
    handle := some h
    cfg := { pin := pin, dirpin := dirpin, thresh := 0#8, dirEn := dirEn }
    srch := { ld := 0#7, lfd := 0#4, ldf := false, crc8 := 0#8, rom := 0#64 }
    txq := []
    rxq := []
    line := .rel
    engine := .idle }

/-- INIT's steps after its checks: the pad pull goes off, then the claim (R451). -/
def initSteps (pin dirpin : Byte) (dirEn : Bool) (s : State) : State :=
  let claim := { s with pullOff := true }.claim
  match claim.1 with
  | none => claim.2.complete (ResultReg.flagged .noResource false)
  | some h => (claim.2.withClaim h pin dirpin dirEn).complete (ResultReg.flagged .ok true)

/-- INIT pin, dirpin, dir_en (R451). -/
def execInit (pin dirpin : Byte) (dirEn : Bool) (s : State) : Host.Outcome State Fault Refusal :=
  guarded (s.initFault (encode (.init pin dirpin dirEn)) pin dirpin dirEn) (initSteps pin dirpin dirEn s)

/-! ## TEARDOWN (R455) -/

/-- TEARDOWN's steps: a strong pull-up is ended, the engine stopped, the handle released (R411, R455). -/
def teardownSteps (s : State) : State :=
  let released := if s.line = .pwr then { s with line := .rel }.record .release else s
  { released with engine := .stopped, line := .rel, handle := none }.complete ResultReg.done

/-- TEARDOWN (R455). -/
def execTeardown (s : State) : Host.Outcome State Fault Refusal :=
  guarded (s.unclaimedFault (encode .teardown)) (teardownSteps s)

/-! ## SET_FIFO_THRESH (R458) -/

/-- SET_FIFO_THRESH's steps (R458). -/
def setFifoThreshSteps (thresh : Byte) (s : State) : State :=
  { s with cfg := { s.cfg with thresh := clampThresh s.params thresh } }.complete ResultReg.done

/-- SET_FIFO_THRESH thresh (R458). -/
def execSetFifoThresh (thresh : Byte) (s : State) : Host.Outcome State Fault Refusal :=
  guarded (s.unclaimedFault (encode (.setFifoThresh thresh))) (setFifoThreshSteps thresh s)

/-! ## WAIT_IDLE (R461) -/

/-- WAIT_IDLE's steps: wait until the engine is IDLE and `s.txq` empty (R461). -/
def waitIdleSteps (s : State) : State := s.finishWith ResultReg.done

/-- WAIT_IDLE (R461). -/
def execWaitIdle (s : State) : Host.Outcome State Fault Refusal :=
  guarded (s.unclaimedFault (encode .waitIdle)) (waitIdleSteps s)

end Sys2Proof.Machine
end

