-- ==== Sys2Proof/Machine/Crc8.lean ====
section
/-! DEFINITION. The CRC8 function and CRC8_UPD (43_crc8.md). -/

namespace Sys2Proof.Machine

/-- n rounds of R551's loop: the low bit of `acc ^ byte` decides whether 0x8C is XORed into the shifted
accumulator. -/
def crc8Rounds : Nat → Byte → Byte → Byte
  | 0, acc, _ => acc
  | n + 1, acc, byte =>
    let mix := (acc ^^^ byte).getLsbD 0
    let shifted := acc >>> 1
    crc8Rounds n (if mix then shifted ^^^ 0x8C#8 else shifted) (byte >>> 1)

/-- `crc8_step(acc, byte)` (R551). -/
def crc8Step (acc byte : Byte) : Byte := crc8Rounds 8 acc byte

/-- The fold of `crc8_step` over bytes from an accumulator (R556). -/
def crc8Fold (acc : Byte) (bytes : List Byte) : Byte := bytes.foldl crc8Step acc

/-- `Crc8Buffer(bytes)`: the fold from accumulator 0 (R552). -/
def crc8Buffer (bytes : List Byte) : Byte := crc8Fold 0#8 bytes

/-- CRC8_UPD's steps: a pure function of the operands into RESULT.DATA (R553). -/
def crc8UpdSteps (acc data : Byte) (s : State) : State := s.complete (ResultReg.byte (crc8Step acc data))

/-- CRC8_UPD acc, data: no check, claimed or not, powered or not (R553, R713). -/
def execCrc8Upd (acc data : Byte) (s : State) : Host.Outcome State Fault Refusal :=
  guarded none (crc8UpdSteps acc data s)

end Sys2Proof.Machine
end

