-- ==== Sys2Proof/Machine/Search.lean ====
section
/-! DEFINITION. SEARCH_RESET, SEARCH, FIRST, NEXT (44_search.md). LD and LFD hold bit numbers n = p + 1
(90_conflicts.md C2). -/

namespace Sys2Proof.Machine

/-! ## SEARCH_RESET (R601) -/

/-- SEARCH_RESET's steps: tracking forgotten, `rom_no` and `crc8` kept (R601). -/
def searchResetSteps (s : State) : State := s.resetTracking.complete ResultReg.done

/-- SEARCH_RESET (R601). -/
def execSearchReset (s : State) : Host.Outcome State Fault Refusal :=
  guarded (s.unclaimedFault (encode .searchReset)) (searchResetSteps s)

/-! ## One pass (R604) -/

/-- The local variables at the start of a pass (R604). -/
def Scan.start : Scan := { p := 0, lastZero := 0, lastFam := 0 }

/-- A discrepancy where the direction is 0 is a deferred branch: `last_zero <- n`, and `last_fam <- n` for a bit of
the family code (R611). -/
def Scan.after (sc : Scan) (id cmp dir : Bool) : Scan :=
  let deferred := !id && !cmp && !dir
  { p := sc.p + 1
    lastZero := if deferred then sc.p + 1 else sc.lastZero
    lastFam := if deferred && decide (sc.p + 1 ≤ 8) then sc.p + 1 else sc.lastFam }

/-- The direction is stored at bit position p, and after the eighth bit of a byte the byte is folded into `crc8`
(R612, R613). -/
def SearchReg.store (r : SearchReg) (p : Nat) (dir : Bool) : SearchReg :=
  let rom := withBit r.rom p dir
  { r with rom := rom, crc8 := if p % 8 = 7 then crc8Step r.crc8 (romByte rom (p / 8)) else r.crc8 }

/-- After the 64th bit: LD, LFD and LDF from the pass (R614). -/
def SearchReg.track (r : SearchReg) (sc : Scan) : SearchReg :=
  { r with
    ld := BitVec.ofNat 7 sc.lastZero
    lfd := BitVec.ofNat 4 sc.lastFam
    ldf := decide (sc.lastZero = 0) }

/-- Validation after R614: the CRC first, then the family code; a failure discards the code (R615–R617). -/
def State.verdict (s : State) (sc : Scan) : ResultReg × State :=
  let t := { s with srch := s.srch.track sc }
  if s.srch.crc8 ≠ 0#8 then (ResultReg.flagged .crcFail false, t.discardRom)
  else if romByte s.srch.rom 0 = 0#8 then (ResultReg.flagged .familyZero false, t.discardRom)
  else (ResultReg.flagged .ok true, t)

/-- The end of a pass whose 64 bits are stored (R614–R616). -/
def scanEnd (sc : Scan) (s : State) : State :=
  let v := s.verdict sc
  v.2.finishWith v.1

/-- The code with bit p of the pass stored (R612, R613). -/
def State.storeBit (s : State) (p : Nat) (dir : Bool) : State := { s with srch := s.srch.store p dir }

/-- The rest of a search bit once its direction is written: no response aborts the pass (R610, R617), else the bit is
recorded (R611–R613) and `rest` goes on. -/
def scanRecord (rest : Scan → State → State) (sc : Scan) (id cmp : Bool) (s : State) : State :=
  let dir := direction id cmp (preferred s.srch sc.p)
  if id && cmp then s.discardRom.finishWith (ResultReg.flagged .noResponse false)
  else rest (sc.after id cmp dir) (s.storeBit sc.p dir)

/-- The rest of a search bit once both samples are there: the direction is written, in every case (R610); then the bit
is recorded. -/
def scanWrite (rest : Scan → State → State) (sc : Scan) (id cmp : Bool) (s : State) : State :=
  scanRecord rest sc id cmp (s.queue [writeSlot (direction id cmp (preferred s.srch sc.p))])

/-- The rest of a search bit once the first sample is there (R610). -/
def scanCmp (rest : Scan → State → State) (sc : Scan) (id : Bool) (s : State) : State :=
  let cmp := s.slot .rd
  scanWrite rest sc id cmp.1 cmp.2

/-- k more bits of the pass, then its end (R604). -/
def scanBits : Nat → Scan → State → State
  | 0, sc, s => scanEnd sc s
  | k + 1, sc, s =>
    let id := s.slot .rd
    scanCmp (scanBits k) sc id.1 id.2

/-- The pass once the presence sample is there (R607, R608). -/
def searchPresence (romcmd : Byte) (v : Bool) (s : State) : State :=
  if v then s.resetTracking.finishWith (ResultReg.flagged .noPresence false)
  else scanBits 64 Scan.start (s.queue (byteSlots romcmd))

/-- `crc8 <- 0` (R605). -/
def State.zeroCrc (s : State) : State := { s with srch := { s.srch with crc8 := 0#8 } }

/-- The body of SEARCH from "crc8 <- 0" on (R604): an exhausted enumeration reports so without a slot (R606). -/
def searchPass (romcmd : Byte) (s : State) : State :=
  if s.srch.ldf then s.zeroCrc.resetTracking.complete (ResultReg.flagged .exhausted false)
  else
    let rst := s.zeroCrc.slot .rst
    searchPresence romcmd rst.1 rst.2

/-! ## SEARCH, FIRST, NEXT -/

/-- SEARCH romcmd: any byte is sent (R604, R620). -/
def execSearch (romcmd : Byte) (s : State) : Host.Outcome State Fault Refusal :=
  guarded (s.busFault (encode (.search romcmd))) (searchPass romcmd s)

/-- FIRST's steps: SEARCH_RESET's effect, then the pass with 0xF0 (R622). -/
def firstSteps (s : State) : State := searchPass 0xF0#8 s.resetTracking

/-- FIRST (R622, R623). -/
def execFirst (s : State) : Host.Outcome State Fault Refusal :=
  guarded (s.busFault (encode .first)) (firstSteps s)

/-- NEXT: the pass with 0xF0 (R624). -/
def execNext (s : State) : Host.Outcome State Fault Refusal :=
  guarded (s.busFault (encode .next)) (searchPass 0xF0#8 s)

end Sys2Proof.Machine
end

