-- ==== Sys2Proof/Machine/Select.lean ====
section
/-! DEFINITION. SELECT (45_select.md). -/

namespace Sys2Proof.Machine

/-- SELECT once the presence sample is there: without a presence nothing more, else 0x55 and the eight bytes of
`selrom` (R651). -/
def selectPresence (v : Bool) (s : State) : State :=
  (s.queue (if v then [] else selectSlots s.selrom)).finishWith (ResultReg.presence v)

/-- SELECT's steps (R651). -/
def selectSteps (s : State) : State :=
  let rst := s.slot .rst
  selectPresence rst.1 rst.2

/-- SELECT (R651, R652). -/
def execSelect (s : State) : Host.Outcome State Fault Refusal :=
  guarded (s.busFault (encode .select)) (selectSteps s)

end Sys2Proof.Machine
end

