-- ==== Sys2Proof/Machine/Transfer.lean ====
section
/-! DEFINITION. RESET, WRITE_BYTE, WRITE_BYTE_PWR, END_POWER, READ_BYTE, TRIPLET (42_transfer.md). -/

namespace Sys2Proof.Machine

/-! ## RESET (R501) -/

/-- RESET's steps: one RST slot; presence is the inverse of its sample (R501, R502). -/
def resetSteps (s : State) : State :=
  let rst := s.slot .rst
  rst.2.finishWith (ResultReg.presence rst.1)

/-- RESET (R501). -/
def execReset (s : State) : Host.Outcome State Fault Refusal :=
  guarded (s.busFault (encode .reset)) (resetSteps s)

/-! ## WRITE_BYTE, WRITE_BYTE_PWR (R504, R507) -/

/-- WRITE_BYTE's steps: eight write slots, bit 0 first (R504, R505). -/
def writeByteSteps (data : Byte) (s : State) : State :=
  (s.queue (byteSlots data)).finishWith ResultReg.done

/-- WRITE_BYTE data (R504). -/
def execWriteByte (data : Byte) (s : State) : Host.Outcome State Fault Refusal :=
  guarded (s.busFault (encode (.writeByte data))) (writeByteSteps data s)

/-- WRITE_BYTE_PWR's steps: the same bits, the last with P = 1 (R507). -/
def writeBytePwrSteps (data : Byte) (s : State) : State :=
  (s.queue (byteSlotsPwr data)).finishWith ResultReg.done

/-- WRITE_BYTE_PWR data (R507). -/
def execWriteBytePwr (data : Byte) (s : State) : Host.Outcome State Fault Refusal :=
  guarded (s.busFault (encode (.writeBytePwr data))) (writeBytePwrSteps data s)

/-! ## END_POWER (R510) -/

/-- The slot words END_POWER queues: REL on the powered line, none otherwise (R510). -/
def endPowerSlots (s : State) : List Slot := if s.line = .pwr then [.rel] else []

/-- END_POWER's steps (R510). -/
def endPowerSteps (s : State) : State := (s.queue (endPowerSlots s)).finishWith ResultReg.done

/-- END_POWER (R510). -/
def execEndPower (s : State) : Host.Outcome State Fault Refusal :=
  guarded (s.unclaimedFault (encode .endPower)) (endPowerSteps s)

/-! ## READ_BYTE (R513) -/

/-- n more read slots: bit i of the byte is the next one's sample (R513). -/
def readBits : Nat → Nat → Byte → State → Byte × State
  | 0, _, acc, s => (acc, s)
  | n + 1, i, acc, s =>
    let bit := s.slot .rd
    readBits n (i + 1) (withBit acc i bit.1) bit.2

/-- READ_BYTE from bit i on: the remaining n slots, then Complete with the byte (R513). -/
def readFrom (n i : Nat) (acc : Byte) (s : State) : State :=
  let byte := readBits n i acc s
  byte.2.finishWith (ResultReg.byte byte.1)

/-- READ_BYTE's steps (R513). -/
def readByteSteps (s : State) : State := readFrom 8 0 0#8 s

/-- READ_BYTE (R513). -/
def execReadByte (s : State) : Host.Outcome State Fault Refusal :=
  guarded (s.busFault (encode .readByte)) (readByteSteps s)

/-! ## TRIPLET (R516) -/

/-- TRIPLET once both samples are there: the direction is written, DATA = {dir, cmp, id} (R516). -/
def tripletWrite (pref id cmp : Bool) (s : State) : State :=
  let dir := direction id cmp pref
  (s.queue [writeSlot dir]).finishWith (ResultReg.byte (tripletByte id cmp dir))

/-- TRIPLET once the first sample is there (R516). -/
def tripletCmp (pref id : Bool) (s : State) : State :=
  let cmp := s.slot .rd
  tripletWrite pref id cmp.1 cmp.2

/-- TRIPLET's steps: a read, a second read, the write (R516). -/
def tripletSteps (pref : Bool) (s : State) : State :=
  let id := s.slot .rd
  tripletCmp pref id.1 id.2

/-- TRIPLET dir_pref (R516). -/
def execTriplet (dirPref : Bool) (s : State) : Host.Outcome State Fault Refusal :=
  guarded (s.busFault (encode (.triplet dirPref))) (tripletSteps dirPref s)

end Sys2Proof.Machine
end

