-- ==== Sys2Proof/Machine/Dispatch.lean ====
section
/-! DEFINITION. exec: one arm per row of spec/opcode_table.json, in the table's order. -/

namespace Sys2Proof.Machine

def exec (i : Instr) (s : State) : Host.Outcome State Fault Refusal :=
  match i with
  | .init pin dirpin dirEn => Sys2Proof.Machine.execInit pin dirpin dirEn s
  | .teardown => Sys2Proof.Machine.execTeardown s
  | .setFifoThresh thresh => Sys2Proof.Machine.execSetFifoThresh thresh s
  | .waitIdle => Sys2Proof.Machine.execWaitIdle s
  | .reset => Sys2Proof.Machine.execReset s
  | .writeByte data => Sys2Proof.Machine.execWriteByte data s
  | .writeBytePwr data => Sys2Proof.Machine.execWriteBytePwr data s
  | .endPower => Sys2Proof.Machine.execEndPower s
  | .readByte => Sys2Proof.Machine.execReadByte s
  | .triplet dirPref => Sys2Proof.Machine.execTriplet dirPref s
  | .crc8Upd acc data => Sys2Proof.Machine.execCrc8Upd acc data s
  | .searchReset => Sys2Proof.Machine.execSearchReset s
  | .search romcmd => Sys2Proof.Machine.execSearch romcmd s
  | .first => Sys2Proof.Machine.execFirst s
  | .next => Sys2Proof.Machine.execNext s
  | .select => Sys2Proof.Machine.execSelect s
  | .slotRst => Sys2Proof.Machine.execSlotRst s
  | .slotW0 => Sys2Proof.Machine.execSlotW0 s
  | .slotW1 => Sys2Proof.Machine.execSlotW1 s
  | .slotRd => Sys2Proof.Machine.execSlotRd s
  | .slotRel => Sys2Proof.Machine.execSlotRel s
  | .slotW0Pwr => Sys2Proof.Machine.execSlotW0Pwr s
  | .slotW1Pwr => Sys2Proof.Machine.execSlotW1Pwr s

end Sys2Proof.Machine
end

