-- ==== Sys2Proof/Machine/Sequencer.lean ====
section
/-! DEFINITION. The sequencer one move at a time (R101, R118 `s.seq`), so that host accesses and the engine's points
can fall anywhere inside a command. A move pushes one slot word, takes one sample, records a search bit, begins a
command or completes it, in the order of the command's pseudocode (log 21). -/

namespace Sys2Proof.Machine

/-! ## The checks and the steps of every command -/

/-- The checks a command makes before its own steps (R713, R731). Slot words are no commands (R306). -/
def commandFault (i : Instr) (s : State) : Option Fault :=
  match i with
  | .init pin dirpin dirEn => s.initFault (encode (.init pin dirpin dirEn)) pin dirpin dirEn
  | .teardown => s.unclaimedFault (encode .teardown)
  | .setFifoThresh thresh => s.unclaimedFault (encode (.setFifoThresh thresh))
  | .waitIdle => s.unclaimedFault (encode .waitIdle)
  | .reset => s.busFault (encode .reset)
  | .writeByte data => s.busFault (encode (.writeByte data))
  | .writeBytePwr data => s.busFault (encode (.writeBytePwr data))
  | .endPower => s.unclaimedFault (encode .endPower)
  | .readByte => s.busFault (encode .readByte)
  | .triplet dirPref => s.busFault (encode (.triplet dirPref))
  | .crc8Upd _ _ => none
  | .searchReset => s.unclaimedFault (encode .searchReset)
  | .search romcmd => s.busFault (encode (.search romcmd))
  | .first => s.busFault (encode .first)
  | .next => s.busFault (encode .next)
  | .select => s.busFault (encode .select)
  | .slotRst => none
  | .slotW0 => none
  | .slotW1 => none
  | .slotRd => none
  | .slotRel => none
  | .slotW0Pwr => none
  | .slotW1Pwr => none

/-- The whole of a command's own steps, as its meaning runs them. -/
def commandSteps (i : Instr) (s : State) : State :=
  match i with
  | .init pin dirpin dirEn => initSteps pin dirpin dirEn s
  | .teardown => teardownSteps s
  | .setFifoThresh thresh => setFifoThreshSteps thresh s
  | .waitIdle => waitIdleSteps s
  | .reset => resetSteps s
  | .writeByte data => writeByteSteps data s
  | .writeBytePwr data => writeBytePwrSteps data s
  | .endPower => endPowerSteps s
  | .readByte => readByteSteps s
  | .triplet dirPref => tripletSteps dirPref s
  | .crc8Upd acc data => crc8UpdSteps acc data s
  | .searchReset => searchResetSteps s
  | .search romcmd => searchPass romcmd s
  | .first => firstSteps s
  | .next => searchPass 0xF0#8 s
  | .select => selectSteps s
  | .slotRst => s
  | .slotW0 => s
  | .slotW1 => s
  | .slotRd => s
  | .slotRel => s
  | .slotW0Pwr => s
  | .slotW1Pwr => s

/-! ## Moves -/

/-- The sequencer's new position: slot words to push, then how it goes on. -/
def State.proceed (s : State) (todo : List Slot) (cont : Cont) : State := { s with seq := some ⟨todo, cont⟩ }

/-- The sequencer pushes these words, then waits and completes with r (R112). -/
def State.proceedDone (s : State) (todo : List Slot) (r : ResultReg) : State := s.proceed todo (.done r)

/-- The sequencer pushes these words, the last of which takes a sample, then waits for it (42_transfer.md). -/
def State.proceedSample (s : State) (todo : List Slot) (w : Wait) : State := s.proceed todo (.sample w)

/-- The start of a pass (R604–R607). An exhausted enumeration makes no slot and completes in this move. -/
def beginPass (romcmd : Byte) (s : State) : State :=
  if s.srch.ldf then s.zeroCrc.resetTracking.complete (ResultReg.flagged .exhausted false)
  else s.zeroCrc.proceedSample [.rst] (.search romcmd)

/-- The first move of a command's own steps. A command that queues no slot does all its steps in this move, so CFG
and RESULT change only at completion (R108, R219; log 22). FIRST's reset of LD, LFD and LDF comes in this move, before
its first slot (R622; SSTATE shows it while BUSY, DESIGN CHOICE, log 28). -/
def beginCommand (i : Instr) (s : State) : State :=
  match i with
  | .init pin dirpin dirEn => initSteps pin dirpin dirEn s
  | .teardown => teardownSteps s
  | .setFifoThresh thresh => setFifoThreshSteps thresh s
  | .waitIdle => s.proceedDone [] ResultReg.done
  | .reset => s.proceedSample [.rst] .reset
  | .writeByte data => s.proceedDone (byteSlots data) ResultReg.done
  | .writeBytePwr data => s.proceedDone (byteSlotsPwr data) ResultReg.done
  | .endPower => s.proceedDone (endPowerSlots s) ResultReg.done
  | .readByte => s.proceedSample [.rd] (.read 0 0#8)
  | .triplet dirPref => s.proceedSample [.rd] (.tripId dirPref)
  | .crc8Upd acc data => crc8UpdSteps acc data s
  | .searchReset => searchResetSteps s
  | .search romcmd => beginPass romcmd s
  | .first => beginPass 0xF0#8 s.resetTracking
  | .next => beginPass 0xF0#8 s
  | .select => s.proceedSample [.rst] .select
  | .slotRst => s
  | .slotW0 => s
  | .slotW1 => s
  | .slotRd => s
  | .slotRel => s
  | .slotW0Pwr => s
  | .slotW1Pwr => s

/-- READ_BYTE after bit i's sample (R513). -/
def resumeRead (i : Nat) (acc : Byte) (v : Bool) (s : State) : State :=
  let byte := withBit acc i v
  if i < 7 then s.proceedSample [.rd] (.read (i + 1) byte) else s.proceedDone [] (ResultReg.byte byte)

/-- TRIPLET after its second sample (R516, R518). -/
def resumeTriplet (pref id cmp : Bool) (s : State) : State :=
  let dir := direction id cmp pref
  s.proceedDone [writeSlot dir] (ResultReg.byte (tripletByte id cmp dir))

/-- A pass after the second sample of a bit: the direction is written, in every case (R610). -/
def resumeScan (sc : Scan) (id cmp : Bool) (s : State) : State :=
  s.proceed [writeSlot (direction id cmp (preferred s.srch sc.p))] (.record sc id cmp)

/-- A pass once the write slot of a bit has ended: no response aborts it (R610, R617), else the bit is recorded
(R611–R613) and the next bit is read, or after the 64th the pass is judged (R614–R617). LD, LFD and LDF, R617's undoing
of them, and the completion are one move, so SSTATE never shows the one without the other (R209, R217; DESIGN CHOICE,
log 28). -/
def recordBit (sc : Scan) (id cmp : Bool) (s : State) : State :=
  let dir := direction id cmp (preferred s.srch sc.p)
  if id && cmp then s.discardRom.complete (ResultReg.flagged .noResponse false)
  else
    let next := sc.after id cmp dir
    let stored := s.storeBit sc.p dir
    if sc.p < 63 then stored.proceedSample [.rd] (.scanId next)
    else (stored.verdict next).2.complete (stored.verdict next).1

/-- The sequencer goes on with the sample it waited for. -/
def resume (w : Wait) (v : Bool) (s : State) : State :=
  match w with
  | .reset => s.proceedDone [] (ResultReg.presence v)
  | .search romcmd =>
    if v then s.proceed [] .absent
    else s.proceedSample (byteSlots romcmd ++ [.rd]) (.scanId Scan.start)
  | .select => s.proceedDone (if v then [] else selectSlots s.selrom) (ResultReg.presence v)
  | .read i acc => resumeRead i acc v s
  | .tripId pref => s.proceedSample [.rd] (.tripCmp pref v)
  | .tripCmp pref id => resumeTriplet pref id v s
  | .scanId sc => s.proceedSample [.rd] (.scanCmp sc v)
  | .scanCmp sc id => resumeScan sc id v s

/-- Every slot the command queued has ended: the engine is at IDLE or STOPPED with `s.txq` empty, so a command may
complete (R112). -/
def State.atRest (s : State) : Bool := decide (s.engine = .idle ∨ s.engine = .stopped) && s.txq.isEmpty

/-- How the sequencer goes on once it holds no more slot words to push. -/
def State.continueWith (s : State) : Cont → State
  | .start i => beginCommand i s
  | .sample w =>
    match s.rxq with
    | v :: rest => resume w v { s with rxq := rest }
    | [] => s
  | .record sc id cmp => if s.atRest then recordBit sc id cmp s else s
  | .absent => if s.atRest then s.resetTracking.complete (ResultReg.flagged .noPresence false) else s
  | .done r => if s.atRest then s.complete r else s

/-- One move of the sequencer. It pushes a word only when `s.txq` has room and waits for a sample only until
`s.rxq` is not empty (R441); a move it must wait for changes nothing. -/
def State.sequencerTurn (s : State) : State :=
  match s.seq with
  | none => s
  | some ⟨[], cont⟩ => s.continueWith cont
  | some ⟨k :: rest, cont⟩ =>
    if s.txq.length < s.params.txqDepth then (s.queue [k]).proceed rest cont else s

end Sys2Proof.Machine
end

