-- ==== Sys2Proof/Machine/Registers.lean ====
section
/-! DEFINITION. The register block (20_memory.md): what a host access does. -/

namespace Sys2Proof.Machine

/-- BadAccess: not 32 bits wide, or not at a multiple of 4 (R204). -/
def accessFault (width : Nat) (off : BitVec 6) : Option Fault :=
  if width = 32 ∧ off.toNat % 4 = 0 then none else some (.badAccess off width)

/-! ## Reads -/

/-- What a register reads as: the map of 10_state.md section 4; CMD and the reserved offsets read 0 (R202). -/
def State.register (s : State) (off : BitVec 6) : Word :=
  if off = 0x04#6 then s.statusWord
  else if off = 0x08#6 then s.result.word
  else if off = 0x0C#6 then s.cfg.word
  else if off = 0x10#6 then s.srch.word
  else if off = 0x14#6 then lowWord s.srch.rom
  else if off = 0x18#6 then highWord s.srch.rom
  else if off = 0x1C#6 then lowWord s.selrom
  else if off = 0x20#6 then highWord s.selrom
  else 0#32

/-- SRCH, ROM0 and ROM1: unspecified while a command runs (R221). -/
def showsSearch (off : BitVec 6) : Bool := off == 0x10#6 || off == 0x14#6 || off == 0x18#6

/-- The value a 32-bit read returns, and the state after it: a free value for the search state while BUSY (R221),
the exact register otherwise (R209, R219). -/
def State.readValue (s : State) (off : BitVec 6) : Word × State :=
  if s.busy && showsSearch off then (Config.busyRead s.draws, { s with draws := s.draws + 1 })
  else (s.register off, s)

/-- A host read (R204, R205, R209): the host gets the value, and nothing of OWM changes. -/
def hostRead (width : Nat) (off : BitVec 6) (s : State) : Host.Outcome State Fault Refusal :=
  guarded (accessFault width off) { (s.readValue off).2 with readData := (s.readValue off).1 }

/-! ## Writes -/

/-- A write to CMD (R105, R731): BusyWrite first, then decoding, then the command's checks; the accepted command is
in progress from this access on. An illegal word completes at once (R304). -/
def writeCmd (w : Word) (s : State) : Host.Outcome State Fault Refusal :=
  if s.busy then .fault (.busyWrite w)
  else
    match decodeCommand w with
    | .error _ => .next s.completeIllegal
    | .ok i => guarded (commandFault i s) (s.proceed [] (.start i))

/-- A write to SEL0 or SEL1: a fault while BUSY (R220), else the new value (R111). -/
def writeSel (off : BitVec 6) (v : Word) (r : RomCode) (s : State) : Host.Outcome State Fault Refusal :=
  if s.busy then .fault (.selWhileBusy off v) else .next { s with selrom := r }

/-- A 32-bit aligned write: CMD, SEL0 and SEL1 take it, every other offset ignores it (R202). -/
def State.writeRegister (s : State) (off : BitVec 6) (v : Word) : Host.Outcome State Fault Refusal :=
  if off = 0x00#6 then writeCmd v s
  else if off = 0x1C#6 then writeSel off v (withLowWord s.selrom v) s
  else if off = 0x20#6 then writeSel off v (withHighWord s.selrom v) s
  else .next s

/-- A host write: BadAccess is checked before anything else (R204, R731). -/
def hostWrite (width : Nat) (off : BitVec 6) (v : Word) (s : State) : Host.Outcome State Fault Refusal :=
  match accessFault width off with
  | some f => .fault f
  | none => s.writeRegister off v

/-- R309 `cmd`: the word is written to CMD and STATUS polled until BUSY = 0: the command's whole meaning
(R217, R731). -/
def hostCmd (w : Word) (s : State) : Host.Outcome State Fault Refusal :=
  if s.busy then .fault (.busyWrite w)
  else
    match decodeCommand w with
    | .error _ => .next s.completeIllegal
    | .ok i => exec i s

/-! ## Block reset -/

/-- The block reset: every piece of OWM's state at its value of R121, a command in progress abandoned (R801, R802);
the platform, the environment, the inputs to come and the host's own value are not OWM's and stay. -/
def State.blockReset (s : State) : State :=
  { State.reset with
    params := s.params, bus := s.bus, pool := s.pool, input := s.input, readData := s.readData,
    draws := s.draws }

/-! ## What happens next -/

/-- One input: a host access, a turn of an agent, or the block reset. -/
def runInput (a : Input) (s : State) : Host.Outcome State Fault Refusal :=
  match a with
  | .cmd w => hostCmd w s
  | .write width off v => hostWrite width off v s
  | .read width off => hostRead width off s
  | .sequencerTurn => .next s.sequencerTurn
  | .engineTurn => .next s.engineTurn
  | .blockReset => .next s.blockReset

/-- With no input left OWM goes on by itself: an IDLE engine takes a queued slot word and runs it as the instruction
it is, a slot in progress reaches its next point, else the sequencer moves; with no command it waits (R412, R803). -/
def runOn (s : State) : Host.Outcome State Fault Refusal :=
  match s.engine, s.txq with
  | .idle, k :: rest => exec k.toInstr { s with txq := rest }
  | .idle, [] => .next s.sequencerTurn
  | .stopped, _ => .next s.sequencerTurn
  | .run _ _, _ => .next s.nextPoint

/-- The next thing to happen: the first input, or, with none left, OWM's own move. -/
def stepState (s : State) : Host.Outcome State Fault Refusal :=
  match s.input with
  | [] => runOn s
  | a :: rest => runInput a { s with input := rest }

/-- The state in which the next step runs the given instruction: a command word as the host's next `cmd` with no
command in progress, a slot word at the head of a running engine's queue with no input before it. A word that is no
slot word cannot stand in the queue and leaves the state as it is. -/
def State.placeWord (s : State) (nbits w : Nat) : State :=
  if nbits ≤ 8 then
    match decodeSlot (BitVec.ofNat 8 w) with
    | .ok k =>
      { s with
        input := []
        engine := .idle
        handle := some (s.handle.getD ⟨0, 0⟩)
        txq := k :: s.txq }
    | .error _ => s
  else { s with input := .cmd (BitVec.ofNat 32 w) :: s.input, seq := none }

end Sys2Proof.Machine
end

