-- ==== Sys2Proof/Machine/Step.lean ====
section
/-! DEFINITION. The step of the machine and the placing of an instruction where the step fetches. -/

namespace Sys2Proof.Machine

/-- One step: the first input, or OWM's own next move (Registers.lean `stepState`). -/
def step (s : State) : Host.Outcome State Fault Refusal := stepState s

/-- The state with an instruction's word placed where the next step takes it (Registers.lean `placeWord`). -/
def State.withFetchWord (s : State) (nbits w : Nat) : State := s.placeWord nbits w

end Sys2Proof.Machine
end

