-- ==== Sys2Proof/Safety.lean ====
section
/-! DEFINITION. The terms claims use: launch states (R842), finishing a command in progress, and the invariant of
the machine (R116, R120, R403, R441, R443, R520). -/

namespace Sys2Proof.Machine

/-! ## Launch states -/

/-- Between commands: BUSY 0, both queues empty, the engine at IDLE or STOPPED (R443). -/
abbrev State.Quiet (s : State) : Prop :=
  s.seq = none ∧ s.txq = [] ∧ s.rxq = [] ∧ (s.engine = .idle ∨ s.engine = .stopped)

/-- Between commands of a claimed block (R842): the engine is at IDLE. -/
abbrev State.Claimed (s : State) : Prop :=
  s.handle ≠ none ∧ s.engine = .idle ∧ s.seq = none ∧ s.txq = [] ∧ s.rxq = []

/-- A bus command may run (R713, R842): claimed, between commands, the line released. -/
abbrev State.Ready (s : State) : Prop := s.Claimed ∧ s.line = .rel

/-! ## Finishing the command in progress -/

/-- What is left of a command once the sample it waits for is there. -/
def finishWait (w : Wait) (v : Bool) (s : State) : State :=
  match w with
  | .reset => s.finishWith (ResultReg.presence v)
  | .search romcmd => searchPresence romcmd v s
  | .select => selectPresence v s
  | .read i acc => readFrom (7 - i) (i + 1) (withBit acc i v) s
  | .tripId pref => tripletCmp pref v s
  | .tripCmp pref id => tripletWrite pref id v s
  | .scanId sc => scanCmp (scanBits (63 - sc.p)) sc v s
  | .scanCmp sc id => scanWrite (scanBits (63 - sc.p)) sc id v s

/-- What is left of a command once the sequencer's slot words have run. -/
def finishCont (c : Cont) (s : State) : State :=
  match c with
  | .start i => commandSteps i s
  | .sample w => finishWait w s.popSample.1 s.popSample.2
  | .record sc id cmp => scanRecord (scanBits (63 - sc.p)) sc id cmp s
  | .absent => s.resetTracking.finishWith (ResultReg.flagged .noPresence false)
  | .done r => s.complete r

/-- The state once the command in progress, if any, has completed with no further host access: its remaining slot
words and its remaining steps, taken as the command's meaning takes them. -/
def State.finish (s : State) : State :=
  match s.seq with
  | none => s
  | some q => finishCont q.cont (s.queue q.todo).settle

/-! ## The search state (R116) -/

/-- What R116 says of the search state between commands. -/
abbrev SearchReg.Ok (r : SearchReg) : Prop :=
  r.ld.toNat ≤ 64 ∧ r.lfd.toNat ≤ 8 ∧ r.lfd.toNat ≤ r.ld.toNat ∧
    (r.ldf = true → r.ld = 0#7 ∧ r.lfd = 0#4) ∧
    (r.rom = 0#64 ∨ (crc8Buffer (romBytes r.rom) = 0#8 ∧ romByte r.rom 0 ≠ 0#8))

/-- What the code gathered so far and the local variables say of each other in the middle of a pass (R604,
R611–R613). -/
abbrev Scan.Ok (sc : Scan) (r : SearchReg) : Prop :=
  sc.p ≤ 63 ∧ sc.lastZero ≤ sc.p ∧ sc.lastFam ≤ 8 ∧ sc.lastFam ≤ sc.lastZero ∧
    r.crc8 = crc8Buffer ((romBytes r.rom).take (sc.p / 8))

/-- The search state is as R116 says, except in the middle of a pass, where it is as the pass has it. -/
def State.SearchOk (s : State) : Prop :=
  match s.seq with
  | none => s.srch.Ok
  | some q =>
    match q.cont with
    | .start _ => s.srch.Ok
    | .done _ => s.srch.Ok
    | .sample (.search _) => s.srch.Ok ∧ s.srch.crc8 = 0#8
    | .sample (.scanId sc) => sc.Ok s.srch
    | .sample (.scanCmp sc _) => sc.Ok s.srch
    | .record sc _ _ => sc.Ok s.srch
    | .absent => s.srch.Ok
    | .sample .reset => s.srch.Ok
    | .sample .select => s.srch.Ok
    | .sample (.read _ _) => s.srch.Ok
    | .sample (.tripId _) => s.srch.Ok
    | .sample (.tripCmp _ _) => s.srch.Ok

/-! ## The environment after a sample -/

/-- The environment after the sample of a slot and the slot's event (R119, R431). -/
def State.busAfter (s : State) (k : Slot) : Bus :=
  (s.drawLevel k).2.bus.observe (slotEvent k (s.drawLevel k).1)

/-! ## A pass as a function of its samples -/

/-- The draws of a pass's sample pairs, in slot order (R119, R610). -/
def pairDraws (pairs : List (Bool × Bool)) : List Bool := pairs.flatMap fun x => [x.1, x.2]

/-- The direction written at bit position p of a pass that starts from `r` and samples the pair x there
(R609, R610). -/
def passDir (r : SearchReg) (p : Nat) (x : Bool × Bool) : Bool := direction x.1 x.2 (preferred r p)

/-- The events of the bits of a pass with these sample pairs: per bit two reads and the write of the direction
(R610). -/
def passEvents (r : SearchReg) (pairs : List (Bool × Bool)) : List BusEvent :=
  pairs.zipIdx.flatMap fun xp => [.read xp.1.1, .read xp.1.2, .write (passDir r xp.2 xp.1) false]

/-- A deferred branch at bit number n: both samples 0 and direction 0 (R611). -/
def deferred (r : SearchReg) (pairs : List (Bool × Bool)) (n : Nat) : Prop :=
  1 ≤ n ∧ pairs[n - 1]? = some (false, false) ∧ passDir r (n - 1) (false, false) = false

/-- `n` is the highest deferred bit number up to `limit`, 0 if there is none (R611, R614). -/
def lastDeferred (r : SearchReg) (pairs : List (Bool × Bool)) (limit n : Nat) : Prop :=
  n ≤ limit ∧ (n = 0 ∨ deferred r pairs n) ∧ ∀ m, n < m → m ≤ limit → ¬ deferred r pairs m

/-- The code `rom` has the directions of the pass at its first k bit positions (R612). -/
def gathered (r : SearchReg) (pairs : List (Bool × Bool)) (k : Nat) (rom : RomCode) : Prop :=
  ∀ p x, p < k → pairs[p]? = some x → rom.getLsbD p = passDir r p x

/-! ## An enumeration (R630, R631) -/

/-- The order of R631: the bits compared in the order of the line, the first bit the most significant. -/
def lineBefore (a b : RomCode) : Prop :=
  ∃ p, (∀ q, q < p → a.getLsbD q = b.getLsbD q) ∧ a.getLsbD p = false ∧ b.getLsbD p = true

/-- FIRST, then k times NEXT. -/
def enumerate : Nat → State → Host.Outcome State Fault Refusal
  | 0, s => exec .first s
  | k + 1, s =>
    match enumerate k s with
    | .next t => exec .next t
    | .fault f => .fault f
    | .refused r => .refused r

/-! ## Slots and samples in flight -/

/-- What the line is once the slot in progress has ended (R421–R426). -/
def State.lineAfterSlot (s : State) : Line :=
  match s.engine with
  | .run k _ => releaseLine k
  | .idle => s.line
  | .stopped => s.line

/-- Every slot of the list but REL starts with the line released (R520). -/
def startReleased (l : Line) : List Slot → Bool
  | [] => true
  | k :: rest => (decide (k = .rel) || decide (l = .rel)) && startReleased (releaseLine k) rest

/-- The line after the slots of the list. -/
def lineAfter (l : Line) : List Slot → Line
  | [] => l
  | k :: rest => lineAfter (releaseLine k) rest

/-- The slot words not yet taken by the engine: queued, or still to be pushed by the sequencer. -/
def State.pendingSlots (s : State) : List Slot :=
  match s.seq with
  | none => s.txq
  | some q => s.txq ++ q.todo

/-- The sample the slot in progress will still push. -/
def Engine.awaited : Engine → Nat
  | .run k .low => if slotSamples k then 1 else 0
  | .run k .released => if slotSamples k then 1 else 0
  | .run _ (.sampled _) => 0
  | .idle => 0
  | .stopped => 0

/-- The samples outstanding: in `s.rxq`, from the slot in progress, and from the slots not yet taken (R441). -/
def State.outstanding (s : State) : Nat :=
  s.rxq.length + s.engine.awaited + s.pendingSlots.countP slotSamples

/-- The samples a sequencer that goes on so still takes before it pushes another slot word: 1 when it waits for one,
else 0. -/
def Cont.wanted : Cont → Nat
  | .sample _ => 1
  | .start _ => 0
  | .record _ _ _ => 0
  | .absent => 0
  | .done _ => 0

/-- A sequencer that goes on so may push more slot words: it waits for a sample, or to record a search bit. -/
def Cont.goesOn : Cont → Bool
  | .sample _ => true
  | .record _ _ _ => true
  | .start _ => false
  | .absent => false
  | .done _ => false

/-- The samples the sequencer still takes before it pushes another slot word. -/
def State.wanted (s : State) : Nat :=
  match s.seq with
  | none => 0
  | some q => q.cont.wanted

/-- A command past its start goes on to slots it has not pushed yet. -/
def State.goesOn (s : State) : Bool :=
  match s.seq with
  | none => false
  | some q => q.cont.goesOn

/-- What the master does to the line at every point the engine can be at: low from a slot's start to its release
point, then as the slot releases it; never low while the engine waits; released while it is STOPPED (R403, R411, R412,
R421–R426). -/
def State.LineOk (s : State) : Prop :=
  match s.engine with
  | .run _ .low => s.line = .low
  | .run k .released => s.line = releaseLine k
  | .run k (.sampled _) => s.line = releaseLine k
  | .idle => s.line ≠ .low
  | .stopped => s.line = .rel

/-- A command about to begin has passed its checks, with nothing in flight (R731). -/
def State.StartOk (s : State) : Prop :=
  ∀ q i, s.seq = some q → q.cont = .start i →
    i.slot? = none ∧ q.todo = [] ∧ s.txq = [] ∧ s.rxq =
      [] ∧ (s.engine = .idle ∨ s.engine = .stopped) ∧ commandFault i s = none

/-! ## The invariant -/

/-- What every step keeps. -/
structure State.Inv (s : State) : Prop where
  /-- The platform's parameters meet R3. -/
  params : s.params.ok = true
  /-- `s.engine = STOPPED` exactly when `s.handle = none` (R120). -/
  stopped : s.engine = .stopped ↔ s.handle = none
  /-- The line is as the engine's point says; so while `s.handle = none`, `s.line = REL` (R403, R412). -/
  driven : s.LineOk
  /-- A STOPPED engine is given no slot: without a handle no slot word is pending and no command goes on to
  one (R412, R713). -/
  parked : s.handle = none → s.pendingSlots = [] ∧ s.goesOn = false
  /-- Between commands both queues are empty and the engine is at IDLE or STOPPED (R443). -/
  quiet : s.seq = none → s.Quiet
  /-- The queues keep their depths (R441). -/
  depths : s.txq.length ≤ s.params.txqDepth ∧ s.rxq.length ≤ s.params.rxqDepth
  /-- Every sample caused is one the sequencer takes (R441, R443). -/
  samples : s.outstanding = s.wanted
  /-- Every slot but REL starts with the line released (R520). -/
  released : startReleased s.lineAfterSlot s.pendingSlots = true
  /-- A command that goes on to another slot leaves the line released for it (R520). -/
  waiting : s.goesOn = true → lineAfter s.lineAfterSlot s.pendingSlots = .rel
  /-- A command about to begin has passed its checks (R731). -/
  start : s.StartOk
  /-- CFG.FIFO_THRESH is at most RXQ_DEPTH (R109, R458). -/
  thresh : s.cfg.thresh.toNat ≤ s.params.rxqDepth
  /-- The search state (R116). -/
  search : s.SearchOk

end Sys2Proof.Machine
end

