-- ==== Sys2Proof/Certificates/Slice0/Obligations.lean ====
section
/-! DEFINITION. The statements for the provers, one `def Obligations.<Name> : Prop` each; OBLIGATIONS.json lists them.
A result is stated as an equation for the next state, so that everything not written in it is unchanged. -/

open Sys2Proof Sys2Proof.Machine

/-! ## Encoding (30_encoding.md) -/

/-- R301, R303, R306: every well-formed instruction is read back from its own word, every operand at every value. -/
def Obligations.DecodingReadsBackEveryEncoding : Prop :=
  ∀ i : Instr, i.wf = true → decodeTableWord i.nbits (encode i).toNat = some i

/-- R303: the word selects the row of this match and mask. -/
def selectsRow (w mtch mask : Word) : Prop := w &&& mask = mtch

/-- R303: what the decoder reads from a word is the command whose row the word selects (INIT with the extra
condition w[24] = 1 or w[23:16] = 0), and a word that selects no row is no command. -/
def Obligations.DecodingFollowsMatchAndMask : Prop :=
  ∀ w : Word,
    ((∃ p d e, decodeCommand w = .ok (.init p d e)) ↔
      selectsRow w 0x00000001#32 0xFE0000FF#32 ∧ (w.getLsbD 24 = true ∨ w.extractLsb' 16 8 = 0#8)) ∧
    (decodeCommand w = .ok .teardown ↔ selectsRow w 0x00000002#32 0xFFFFFFFF#32) ∧
    ((∃ t, decodeCommand w = .ok (.setFifoThresh t)) ↔ selectsRow w 0x00000003#32 0xFFFF00FF#32) ∧
    (decodeCommand w = .ok .waitIdle ↔ selectsRow w 0x00000004#32 0xFFFFFFFF#32) ∧
    (decodeCommand w = .ok .reset ↔ selectsRow w 0x00000010#32 0xFFFFFFFF#32) ∧
    ((∃ d, decodeCommand w = .ok (.writeByte d)) ↔ selectsRow w 0x00000011#32 0xFFFF00FF#32) ∧
    ((∃ d, decodeCommand w = .ok (.writeBytePwr d)) ↔ selectsRow w 0x00000012#32 0xFFFF00FF#32) ∧
    (decodeCommand w = .ok .endPower ↔ selectsRow w 0x00000013#32 0xFFFFFFFF#32) ∧
    (decodeCommand w = .ok .readByte ↔ selectsRow w 0x00000014#32 0xFFFFFFFF#32) ∧
    ((∃ d, decodeCommand w = .ok (.triplet d)) ↔ selectsRow w 0x00000015#32 0xFFFFFEFF#32) ∧
    ((∃ a d, decodeCommand w = .ok (.crc8Upd a d)) ↔ selectsRow w 0x00000020#32 0xFF0000FF#32) ∧
    (decodeCommand w = .ok .searchReset ↔ selectsRow w 0x00000030#32 0xFFFFFFFF#32) ∧
    ((∃ c, decodeCommand w = .ok (.search c)) ↔ selectsRow w 0x00000031#32 0xFFFF00FF#32) ∧
    (decodeCommand w = .ok .first ↔ selectsRow w 0x00000032#32 0xFFFFFFFF#32) ∧
    (decodeCommand w = .ok .next ↔ selectsRow w 0x00000033#32 0xFFFFFFFF#32) ∧
    (decodeCommand w = .ok .select ↔ selectsRow w 0x00000040#32 0xFFFFFFFF#32)

/-- R301–R303, R306: a word the decoder accepts is the encoding of the well-formed command it is read as, so no two
words are read as one command; the same of slot words. -/
def Obligations.AcceptedWordsAreEncodings : Prop :=
  (∀ (w : Word) (i : Instr), decodeCommand w = .ok i → encode i = w ∧ i.wf = true ∧ i.slot? = none) ∧
  (∀ (w : Byte) (k : Slot), decodeSlot w = .ok k → k.word = w)

/-- R303, R306: words written out bit by bit from the encoding table, one of each family. -/
def Obligations.WrittenOutWordsDecode : Prop :=
  decodeCommand 0b00000001000001000000001100000001#32 = .ok (.init 3#8 4#8 true) ∧
  decodeCommand 0b00000000000000001100110000010001#32 = .ok (.writeByte 0xCC#8) ∧
  decodeCommand 0b00000000000000000000000100010101#32 = .ok (.triplet true) ∧
  decodeCommand 0b00000000001101000001001000100000#32 = .ok (.crc8Upd 0x12#8 0x34#8) ∧
  decodeCommand 0b00000000000000001110110000110001#32 = .ok (.search 0xEC#8) ∧
  decodeCommand 0b00000000000000000000000001000000#32 = .ok .select ∧
  decodeSlot 0b00001010#8 = .ok .w1Pwr

/-- R304: an illegal word completes at once with ILLEGAL (0xFE), DATA 0, FLAG 0, and changes nothing else, claimed or
not, powered or not, whether the host polls (`cmd`) or only writes the word. -/
def Obligations.IllegalWordsOnlyReportIllegal : Prop :=
  ∀ (s : State) (w : Word) (e : DecodeError), s.busy = false → decodeCommand w = .error e →
    hostCmd w s = .next { s with result := { code := .illegal, data := 0#8, flag := false } } ∧
    hostWrite 32 0x00#6 w s = .next { s with result := { code := .illegal, data := 0#8, flag := false } } ∧
    Code.byte .illegal = 0xFE#8

/-! ## The step -/

/-- R309, R731: a step whose next input is `cmd w` runs the decoded command on the state with that input taken. A step
on any other input is that host access, turn of an agent or block reset, on the state with that input taken. -/
def Obligations.StepRunsTheDecodedCommand : Prop :=
  ∀ (s : State) (rest : List Input),
    (let u : State := { s with input := rest };
      (∀ w i, s.input = .cmd w :: rest → s.busy = false → decodeCommand w = .ok i → step s = exec i u) ∧
      (∀ w, s.input = .cmd w :: rest → step s = hostCmd w u) ∧
      (∀ width off v, s.input = .write width off v :: rest → step s = hostWrite width off v u) ∧
      (∀ width off, s.input = .read width off :: rest → step s = hostRead width off u) ∧
      (s.input = .sequencerTurn :: rest → step s = .next u.sequencerTurn) ∧
      (s.input = .engineTurn :: rest → step s = .next u.engineTurn) ∧
      (s.input = .blockReset :: rest → step s = .next u.blockReset))

/-- R412: with no input left an IDLE engine takes the head of `s.txq` and the step runs it as the instruction it is; a
slot in progress goes to its next point; an engine with nothing to do leaves the sequencer its move. -/
def Obligations.StepRunsTheQueuedSlotWord : Prop :=
  ∀ s : State, s.input = [] →
    (∀ k rest, s.engine = .idle → s.txq = k :: rest → step s = exec k.toInstr { s with txq := rest }) ∧
    (∀ k ph, s.engine = .run k ph → step s = .next s.engineTurn) ∧
    ((s.engine = .idle ∧ s.txq = []) ∨ s.engine = .stopped → step s = .next s.sequencerTurn)

/-! ## Reset (R121, R801) -/

/-- R121, R801, R802: after the block reset, from every state, every piece of state has its value of R121 and every
register reads 0; the machine's reset state is such a state. -/
def Obligations.BlockResetGivesTheResetValues : Prop :=
  (∀ (s : State) (rest : List Input), s.input = .blockReset :: rest →
    ∃ t, step s = .next t ∧ t.engine = .stopped ∧ t.line = .rel ∧ t.txq = [] ∧ t.rxq = [] ∧ t.handle = none ∧
      t.pullOff = false ∧ t.hist = [] ∧ t.seq = none ∧ (∀ off, t.register off = 0#32)) ∧
  (let t := State.reset;
    t.engine = .stopped ∧ t.line = .rel ∧ t.txq = [] ∧ t.rxq = [] ∧ t.handle = none ∧
      t.pullOff = false ∧ t.hist = [] ∧ t.seq = none ∧ (∀ off, t.register off = 0#32))

/-! ## The register block (20_memory.md) -/

/-- R106, R442: the bits of STATUS, the register at offset 0x04. That SSTATE and POWER are what LD, LDF
and the line say in every state, while BUSY = 1 too (R107, R120 and R219 before R209), is the model's choice, log
entry 28. -/
def Obligations.StatusShowsTheBlock : Prop :=
  ∀ s : State,
    s.register 0x04#6 = s.statusWord ∧
    (s.statusWord.getLsbD 0 = true ↔ s.seq ≠ none) ∧
    (s.statusWord.getLsbD 1 = true ↔ s.handle ≠ none) ∧
    (s.statusWord.getLsbD 2 = true ↔ s.line = .pwr) ∧
    (s.statusWord.getLsbD 3 = true ↔ max 1 s.cfg.thresh.toNat ≤ s.rxq.length) ∧
    (s.statusWord.extractLsb' 4 2 =
      if s.srch.ldf = true then 2#2 else if s.srch.ld ≠ 0#7 then 1#2 else 0#2) ∧
    s.statusWord.extractLsb' 6 26 = 0#26

/-- R106, R108–R111: STATUS, RESULT, CFG and SRCH stand at offsets 0x04, 0x08, 0x0C and 0x10; the fields of RESULT, CFG
and SRCH stand at their bits, the reserved bits read 0, and ROM0, ROM1, SEL0, SEL1 show bytes 0..3 and 4..7 with the
lower index in the less significant bits. R702: the number of each outcome code. -/
def Obligations.RegistersShowTheirFields : Prop :=
  ∀ s : State,
    (s.register 0x04#6 = s.statusWord ∧ s.register 0x08#6 = s.result.word ∧ s.register 0x0C#6 = s.cfg.word ∧
      s.register 0x10#6 = s.srch.word) ∧
    (s.result.word.extractLsb' 0 8 = s.result.code.byte ∧ s.result.word.extractLsb' 8 8 = s.result.data ∧
      s.result.word.getLsbD 16 = s.result.flag ∧ s.result.word.extractLsb' 17 15 = 0#15) ∧
    (Code.byte .ok = 0x00#8 ∧ Code.byte .noPresence = 0x01#8 ∧ Code.byte .exhausted = 0x02#8 ∧
      Code.byte .noResponse = 0x03#8 ∧ Code.byte .crcFail = 0x04#8 ∧ Code.byte .familyZero = 0x05#8 ∧
      Code.byte .noResource = 0x10#8 ∧ Code.byte .illegal = 0xFE#8) ∧
    (s.cfg.word.extractLsb' 0 8 = s.cfg.pin ∧ s.cfg.word.extractLsb' 8 8 = s.cfg.dirpin ∧
      s.cfg.word.extractLsb' 16 8 = s.cfg.thresh ∧ s.cfg.word.getLsbD 24 = s.cfg.dirEn ∧
      s.cfg.word.extractLsb' 25 7 = 0#7) ∧
    (s.srch.word.extractLsb' 0 7 = s.srch.ld ∧ s.srch.word.getLsbD 7 = false ∧
      s.srch.word.extractLsb' 8 4 = s.srch.lfd ∧ s.srch.word.getLsbD 12 = s.srch.ldf ∧
      s.srch.word.extractLsb' 13 3 = 0#3 ∧ s.srch.word.extractLsb' 16 8 = s.srch.crc8 ∧
      s.srch.word.extractLsb' 24 8 = 0#8) ∧
    (∀ k, k < 4 →
      (s.register 0x14#6).extractLsb' (8 * k) 8 = romByte s.srch.rom k ∧
      (s.register 0x18#6).extractLsb' (8 * k) 8 = romByte s.srch.rom (4 + k) ∧
      (s.register 0x1C#6).extractLsb' (8 * k) 8 = romByte s.selrom k ∧
      (s.register 0x20#6).extractLsb' (8 * k) 8 = romByte s.selrom (4 + k))

/-- R202, R209, R219, R221: a 32-bit aligned read hands the host a value and changes nothing of OWM. The value is the
register's, but that of SRCH, ROM0 and ROM1 while BUSY is left open. (`draws` is the model's index of free values.) -/
def Obligations.HostReadsChangeNothing : Prop :=
  ∀ (s : State) (off : BitVec 6), off.toNat % 4 = 0 →
    ∃ v d, hostRead 32 off s = .next { s with readData := v, draws := d } ∧
      ((s.busy = true ∧ (off = 0x10#6 ∨ off = 0x14#6 ∨ off = 0x18#6)) ∨ (v = s.register off ∧ d = s.draws))

/-- R204, R731: an access that is not 32 bits wide or not at a multiple of 4 faults with BadAccess, in every state,
before anything else is looked at. -/
def Obligations.BadAccessesFault : Prop :=
  ∀ (s : State) (width : Nat) (off : BitVec 6) (v : Word), (width ≠ 32 ∨ off.toNat % 4 ≠ 0) →
    hostRead width off s = .fault (.badAccess off width) ∧
    hostWrite width off v s = .fault (.badAccess off width)

/-- R202: a read of CMD or of a reserved offset 0x24..0x3F hands the host 0; writes to the read-only registers and to
the reserved offsets are ignored; while BUSY or not. -/
def Obligations.ReservedAndReadOnlyOffsets : Prop :=
  ∀ (s : State) (off : BitVec 6) (v : Word), off.toNat % 4 = 0 →
    ((off.toNat = 0 ∨ 0x24 ≤ off.toNat) → hostRead 32 off s = .next { s with readData := 0#32 }) ∧
    ((off.toNat ≠ 0 ∧ off.toNat ≠ 0x1C ∧ off.toNat ≠ 0x20) → hostWrite 32 off v s = .next s)

/-- R111, R210, R220: while no command runs a write to SEL0 or SEL1 replaces that half of `selrom` and nothing else,
and reads back; while a command runs it faults with SelWhileBusy. -/
def Obligations.SelWritesStoreTheirHalf : Prop :=
  ∀ (s : State) (v : Word),
    (s.busy = false →
      (∃ t, hostWrite 32 0x1C#6 v s = .next t ∧ t = { s with selrom := t.selrom } ∧
        t.register 0x1C#6 = v ∧ t.register 0x20#6 = s.register 0x20#6) ∧
      (∃ t, hostWrite 32 0x20#6 v s = .next t ∧ t = { s with selrom := t.selrom } ∧
        t.register 0x20#6 = v ∧ t.register 0x1C#6 = s.register 0x1C#6)) ∧
    (s.busy = true →
      hostWrite 32 0x1C#6 v s = .fault (.selWhileBusy 0x1C#6 v) ∧
      hostWrite 32 0x20#6 v s = .fault (.selWhileBusy 0x20#6 v))

/-- R105, R711, R731: a write to CMD while BUSY = 1 faults with BusyWrite whatever the word, decoded or not. -/
def Obligations.CmdWritesWhileBusyFault : Prop :=
  ∀ (s : State) (w : Word), s.busy = true →
    hostWrite 32 0x00#6 w s = .fault (.busyWrite w) ∧ hostCmd w s = .fault (.busyWrite w)

/-! ## Lifecycle (41_lifecycle.md) -/

/-- R451, R453: INIT on an unclaimed block whose pin is below N_GPIO and, with DIR_EN = 1, whose platform wires a
direction GPIO and whose direction pin is below N_GPIO and is not the data pin. When the platform grants a slot, the handle is claimed,
CFG set, the search state zero, the queues empty, the line released and the engine IDLE, RESULT OK with FLAG 1; when
it does not, only the pad pull has gone off and RESULT is NO_RESOURCE with FLAG 0; with no scripted answer, one of the
two happens. SEL0, SEL1 and the history are as before. -/
def Obligations.InitClaimsOrReportsNoResource : Prop :=
  ∀ (s : State) (pin dirpin : Byte) (dirEn : Bool),
    s.handle = none → pin.toNat < s.params.nGpio →
    (dirEn = true → s.params.hasDir = true ∧ dirpin.toNat < s.params.nGpio ∧ dirpin ≠ pin) →
    (∀ h rest, s.pool = some h :: rest →
      exec (.init pin dirpin dirEn) s = .next { s with
        result := { code := .ok, data := 0#8, flag := true }
        cfg := { pin := pin, dirpin := dirpin, thresh := 0#8, dirEn := dirEn }
        srch := { ld := 0#7, lfd := 0#4, ldf := false, crc8 := 0#8, rom := 0#64 }
        engine := .idle, line := .rel, txq := [], rxq := [], handle := some h, pullOff := true, seq := none
        pool := rest }) ∧
    (∀ rest, s.pool = none :: rest →
      exec (.init pin dirpin dirEn) s = .next { s with
        result := { code := .noResource, data := 0#8, flag := false }, pullOff := true, seq := none
        pool := rest }) ∧
    (s.pool = [] →
      (∃ h d, exec (.init pin dirpin dirEn) s = .next { s with
        result := { code := .ok, data := 0#8, flag := true }
        cfg := { pin := pin, dirpin := dirpin, thresh := 0#8, dirEn := dirEn }
        srch := { ld := 0#7, lfd := 0#4, ldf := false, crc8 := 0#8, rom := 0#64 }
        engine := .idle, line := .rel, txq := [], rxq := [], handle := some h, pullOff := true, seq := none
        draws := d }) ∨
      (∃ d, exec (.init pin dirpin dirEn) s = .next { s with
        result := { code := .noResource, data := 0#8, flag := false }, pullOff := true, seq := none
        draws := d }))

/-- R451, R711, R731: INIT on a claimed block faults with AlreadyClaimed, whatever its pins; on an unclaimed one it
faults with BadPin exactly when pin ≥ N_GPIO, or DIR_EN = 1 with no direction GPIO, dirpin ≥ N_GPIO or dirpin = pin. -/
def Obligations.InitChecksClaimThenPins : Prop :=
  ∀ (s : State) (pin dirpin : Byte) (dirEn : Bool),
    (s.handle ≠ none →
      exec (.init pin dirpin dirEn) s = .fault (.alreadyClaimed (encode (.init pin dirpin dirEn)))) ∧
    (s.handle = none →
      (exec (.init pin dirpin dirEn) s = .fault (.badPin (encode (.init pin dirpin dirEn))) ↔
        (s.params.nGpio ≤ pin.toNat ∨
          (dirEn = true ∧ (s.params.hasDir = false ∨ s.params.nGpio ≤ dirpin.toNat ∨ dirpin = pin)))))

/-- R455, R411: TEARDOWN of a claimed block: the engine is STOPPED, the handle released, the line REL; a strong
pull-up is ended with a Release event, otherwise no event; the registers keep their values. -/
def Obligations.TeardownReleasesTheEngine : Prop :=
  ∀ s : State, s.handle ≠ none →
    (s.line = .pwr → exec .teardown s = .next { s with
      result := { code := .ok, data := 0#8, flag := false }
      engine := .stopped, handle := none, line := .rel, seq := none
      hist := s.hist ++ [.release], bus := s.bus.observe .release }) ∧
    (s.line ≠ .pwr → exec .teardown s = .next { s with
      result := { code := .ok, data := 0#8, flag := false }
      engine := .stopped, handle := none, line := .rel, seq := none })

/-- R458: SET_FIFO_THRESH stores min(thresh, RXQ_DEPTH) and changes nothing else but RESULT. -/
def Obligations.ThresholdIsClamped : Prop :=
  ∀ (s : State) (thresh : Byte), s.handle ≠ none →
    exec (.setFifoThresh thresh) s = .next { s with
      result := { code := .ok, data := 0#8, flag := false }, seq := none
      cfg := { s.cfg with thresh := BitVec.ofNat 8 (min thresh.toNat s.params.rxqDepth) } }

/-- R461, R216: between commands WAIT_IDLE completes without waiting and changes nothing but RESULT, powered or
not. -/
def Obligations.WaitIdleChangesOnlyResult : Prop :=
  ∀ s : State, s.Claimed →
    exec .waitIdle s = .next { s with result := { code := .ok, data := 0#8, flag := false } }

/-! ## Checks (60_exceptions.md) -/

/-- R456, R711, R713: without a handle every command other than INIT and CRC8_UPD faults with NotClaimed and records
its word. -/
def Obligations.CommandsNeedAHandle : Prop :=
  ∀ (s : State) (i : Instr), s.handle = none → i.slot? = none →
    (∀ p d e, i ≠ .init p d e) → (∀ a d, i ≠ .crc8Upd a d) →
    exec i s = .fault (.notClaimed (encode i))

/-- R713, R711: on the powered line each of the nine bus commands faults with Powered and records its word. -/
def Obligations.BusCommandsNeedAReleasedLine : Prop :=
  ∀ (s : State) (d c : Byte) (pref : Bool), s.handle ≠ none → s.line = .pwr →
    exec .reset s = .fault (.powered (encode .reset)) ∧
    exec (.writeByte d) s = .fault (.powered (encode (.writeByte d))) ∧
    exec (.writeBytePwr d) s = .fault (.powered (encode (.writeBytePwr d))) ∧
    exec .readByte s = .fault (.powered (encode .readByte)) ∧
    exec (.triplet pref) s = .fault (.powered (encode (.triplet pref))) ∧
    exec (.search c) s = .fault (.powered (encode (.search c))) ∧
    exec .first s = .fault (.powered (encode .first)) ∧
    exec .next s = .fault (.powered (encode .next)) ∧
    exec .select s = .fault (.powered (encode .select))

/-- R701, R521, R731: a command whose checks find nothing completes: it answers a next state with BUSY = 0; and it
faults only with what its checks find. -/
def Obligations.CheckedCommandsComplete : Prop :=
  ∀ (s : State) (i : Instr), i.slot? = none →
    (commandFault i s = none → ∃ t, exec i s = .next t ∧ t.busy = false) ∧
    (∀ f, commandFault i s = some f → exec i s = .fault f)

/-! ## Transfer (42_transfer.md) -/

/-- R501, R502: RESET runs one RST slot. FLAG is presence, the inverse of its sample; CODE is OK or NO_PRESENCE; the
one event is Reset(v). The sample is the line's level, a scripted draw being taken as it stands. -/
def Obligations.ResetReportsPresence : Prop :=
  ∀ s : State, s.Ready →
    (let v := (s.drawLevel .rst).1;
      exec .reset s = .next { s with
        result := { code := if v then .noPresence else .ok, data := 0#8, flag := !v }
        hist := s.hist ++ [.reset v], bus := s.busAfter .rst, draws := (s.drawLevel .rst).2.draws }) ∧
    (∀ v rest, s.bus = .draws (v :: rest) →
      exec .reset s = .next { s with
        result := { code := if v then .noPresence else .ok, data := 0#8, flag := !v }
        hist := s.hist ++ [.reset v], bus := .draws rest })

/-- R504, R505: WRITE_BYTE appends exactly the eight events Write(data[i], false), i = 0..7 in that order, completes
OK and changes nothing else; the line is released after it. -/
def Obligations.WriteByteSendsLsbFirst : Prop :=
  ∀ (s : State) (data : Byte), s.Ready →
    (let es := (List.range 8).map fun i => BusEvent.write (data.getLsbD i) false;
      exec (.writeByte data) s = .next { s with
        result := { code := .ok, data := 0#8, flag := false }
        hist := s.hist ++ es, bus := es.foldl Bus.observe s.bus })

/-- R507, R424: WRITE_BYTE_PWR sends the same bits, the eighth with power after it, and leaves the line powered. -/
def Obligations.WriteBytePwrHoldsTheLine : Prop :=
  ∀ (s : State) (data : Byte), s.Ready →
    (let es := (List.range 7).map (fun i => BusEvent.write (data.getLsbD i) false) ++ [.write (data.getLsbD 7) true];
      exec (.writeBytePwr data) s = .next { s with
        result := { code := .ok, data := 0#8, flag := false }
        line := .pwr, hist := s.hist ++ es, bus := es.foldl Bus.observe s.bus })

/-- R510, R425: END_POWER releases a powered line with one Release event, and does nothing to one that is not
powered. -/
def Obligations.EndPowerReleasesTheLine : Prop :=
  ∀ s : State, s.Claimed →
    (s.line = .pwr → exec .endPower s = .next { s with
      result := { code := .ok, data := 0#8, flag := false }
      line := .rel, hist := s.hist ++ [.release], bus := s.bus.observe .release }) ∧
    (s.line ≠ .pwr → exec .endPower s = .next { s with
      result := { code := .ok, data := 0#8, flag := false } })

/-- R513, R514: READ_BYTE takes eight samples, appends exactly the eight events Read(v_i), and DATA = Σ v_i · 2^i;
scripted draws are taken in order. -/
def Obligations.ReadByteCollectsItsSamples : Prop :=
  ∀ s : State, s.Ready →
    (∃ (vs : List Bool) (data : Byte) (b : Bus) (d : Nat),
      vs.length = 8 ∧ data.toNat = ((vs.zipIdx.map fun x => if x.1 then 2 ^ x.2 else 0).sum) ∧
      exec .readByte s = .next { s with
        result := { code := .ok, data := data, flag := false }
        hist := s.hist ++ vs.map BusEvent.read, bus := b, draws := d }) ∧
    (∀ (vs rest : List Bool) (data : Byte), s.bus = .draws (vs ++ rest) → vs.length = 8 →
      data.toNat = ((vs.zipIdx.map fun x => if x.1 then 2 ^ x.2 else 0).sum) →
      exec .readByte s = .next { s with
        result := { code := .ok, data := data, flag := false }
        hist := s.hist ++ vs.map BusEvent.read, bus := .draws rest })

/-- R516, R518: TRIPLET reads id, reads cmp, writes id when they differ and dir_pref when they are equal, appends
exactly those three events, and DATA = {dir, cmp, id}; scripted draws are taken in order. -/
def Obligations.TripletReadsTwiceAndWrites : Prop :=
  ∀ (s : State) (pref : Bool), s.Ready →
    (∃ (id cmp : Bool) (b : Bus) (d : Nat),
      (let dir := if id = cmp then pref else id;
        exec (.triplet pref) s = .next { s with
          result := { code := .ok, data := 0#5 ++ BitVec.ofBool dir ++ BitVec.ofBool cmp ++ BitVec.ofBool id, flag := false }
          hist := s.hist ++ [.read id, .read cmp, .write dir false], bus := b, draws := d })) ∧
    (∀ (id cmp : Bool) (rest : List Bool), s.bus = .draws (id :: cmp :: rest) →
      (let dir := if id = cmp then pref else id;
        exec (.triplet pref) s = .next { s with
          result := { code := .ok, data := 0#5 ++ BitVec.ofBool dir ++ BitVec.ofBool cmp ++ BitVec.ofBool id, flag := false }
          hist := s.hist ++ [.read id, .read cmp, .write dir false], bus := .draws rest }))

/-! ## CRC8 (43_crc8.md) -/

/-- R553: CRC8_UPD puts crc8_step(acc, data) into DATA, in every state, claimed or not, powered or not, and changes
nothing else; SRCH.CRC8 is neither read nor written. -/
def Obligations.CrcUpdateReturnsTheStep : Prop :=
  ∀ (s : State) (acc data : Byte),
    exec (.crc8Upd acc data) s = .next { s with
      result := { code := .ok, data := crc8Step acc data, flag := false }, seq := none }

/-- The table of R558, row by row. -/
def crcTable : List Byte :=
  [0x00, 0x5E, 0xBC, 0xE2, 0x61, 0x3F, 0xDD, 0x83, 0xC2, 0x9C, 0x7E, 0x20, 0xA3, 0xFD, 0x1F, 0x41] ++
  [0x9D, 0xC3, 0x21, 0x7F, 0xFC, 0xA2, 0x40, 0x1E, 0x5F, 0x01, 0xE3, 0xBD, 0x3E, 0x60, 0x82, 0xDC] ++
  [0x23, 0x7D, 0x9F, 0xC1, 0x42, 0x1C, 0xFE, 0xA0, 0xE1, 0xBF, 0x5D, 0x03, 0x80, 0xDE, 0x3C, 0x62] ++
  [0xBE, 0xE0, 0x02, 0x5C, 0xDF, 0x81, 0x63, 0x3D, 0x7C, 0x22, 0xC0, 0x9E, 0x1D, 0x43, 0xA1, 0xFF] ++
  [0x46, 0x18, 0xFA, 0xA4, 0x27, 0x79, 0x9B, 0xC5, 0x84, 0xDA, 0x38, 0x66, 0xE5, 0xBB, 0x59, 0x07] ++
  [0xDB, 0x85, 0x67, 0x39, 0xBA, 0xE4, 0x06, 0x58, 0x19, 0x47, 0xA5, 0xFB, 0x78, 0x26, 0xC4, 0x9A] ++
  [0x65, 0x3B, 0xD9, 0x87, 0x04, 0x5A, 0xB8, 0xE6, 0xA7, 0xF9, 0x1B, 0x45, 0xC6, 0x98, 0x7A, 0x24] ++
  [0xF8, 0xA6, 0x44, 0x1A, 0x99, 0xC7, 0x25, 0x7B, 0x3A, 0x64, 0x86, 0xD8, 0x5B, 0x05, 0xE7, 0xB9] ++
  [0x8C, 0xD2, 0x30, 0x6E, 0xED, 0xB3, 0x51, 0x0F, 0x4E, 0x10, 0xF2, 0xAC, 0x2F, 0x71, 0x93, 0xCD] ++
  [0x11, 0x4F, 0xAD, 0xF3, 0x70, 0x2E, 0xCC, 0x92, 0xD3, 0x8D, 0x6F, 0x31, 0xB2, 0xEC, 0x0E, 0x50] ++
  [0xAF, 0xF1, 0x13, 0x4D, 0xCE, 0x90, 0x72, 0x2C, 0x6D, 0x33, 0xD1, 0x8F, 0x0C, 0x52, 0xB0, 0xEE] ++
  [0x32, 0x6C, 0x8E, 0xD0, 0x53, 0x0D, 0xEF, 0xB1, 0xF0, 0xAE, 0x4C, 0x12, 0x91, 0xCF, 0x2D, 0x73] ++
  [0xCA, 0x94, 0x76, 0x28, 0xAB, 0xF5, 0x17, 0x49, 0x08, 0x56, 0xB4, 0xEA, 0x69, 0x37, 0xD5, 0x8B] ++
  [0x57, 0x09, 0xEB, 0xB5, 0x36, 0x68, 0x8A, 0xD4, 0x95, 0xCB, 0x29, 0x77, 0xF4, 0xAA, 0x48, 0x16] ++
  [0xE9, 0xB7, 0x55, 0x0B, 0x88, 0xD6, 0x34, 0x6A, 0x2B, 0x75, 0x97, 0xC9, 0x4A, 0x14, 0xF6, 0xA8] ++
  [0x74, 0x2A, 0xC8, 0x96, 0x15, 0x4B, 0xA9, 0xF7, 0xB6, 0xE8, 0x0A, 0x54, 0xD7, 0x89, 0x6B, 0x35]

/-- R554, R558: crc8_step(acc, byte) is the entry of the spec's table at acc XOR byte. -/
def Obligations.CrcStepIsTheTable : Prop :=
  ∀ acc byte : Byte, crcTable[(acc ^^^ byte).toNat]? = some (crc8Step acc byte)

/-- R557: crc8_step is linear over XOR. -/
def Obligations.CrcStepIsLinear : Prop :=
  ∀ a1 a2 b1 b2 : Byte, crc8Step (a1 ^^^ a2) (b1 ^^^ b2) = crc8Step a1 b1 ^^^ crc8Step a2 b2

/-- R555: T[x] = crc8_step(0, x) is a permutation with T[0] = 0; a step gives 0 exactly when the byte equals the
accumulator; so a byte sequence and a check byte fold to 0 exactly when the check byte is the sequence's CRC. -/
def Obligations.CrcResidueIsZeroOnlyForTheCheckByte : Prop :=
  Function.Bijective (crc8Step 0#8) ∧ crc8Step 0#8 0#8 = 0#8 ∧
  (∀ acc byte : Byte, crc8Step acc byte = 0#8 ↔ byte = acc) ∧
  (∀ (r : List Byte) (c : Byte), crc8Buffer (r ++ [c]) = 0#8 ↔ c = crc8Buffer r)

/-- R552, R556: Crc8Buffer of nothing is 0, one more byte is one more step, and the fold is compositional. -/
def Obligations.CrcBufferIsAFold : Prop :=
  crc8Buffer [] = 0#8 ∧
  (∀ (bs : List Byte) (b : Byte), crc8Buffer (bs ++ [b]) = crc8Step (crc8Buffer bs) b) ∧
  (∀ a b : List Byte, crc8Buffer (a ++ b) = crc8Fold (crc8Buffer a) b)

/-! ## Search (44_search.md) -/

/-- R601: SEARCH_RESET zeroes LD, LFD and LDF, keeps `rom_no` and `crc8`, appends no event and is legal while the line
is powered. -/
def Obligations.SearchResetKeepsTheCode : Prop :=
  ∀ s : State, s.handle ≠ none →
    exec .searchReset s = .next { s with
      result := { code := .ok, data := 0#8, flag := false }, seq := none
      srch := { ld := 0#7, lfd := 0#4, ldf := false, crc8 := s.srch.crc8, rom := s.srch.rom } }

/-- R606, R605, R624: with LDF = 1 at entry SEARCH and NEXT perform no slot, reset the tracking and `crc8`, keep
`rom_no` and report EXHAUSTED with FLAG 0. -/
def Obligations.ExhaustedSearchesMakeNoSlot : Prop :=
  ∀ (s : State) (c : Byte), s.handle ≠ none → s.line ≠ .pwr → s.srch.ldf = true →
    (let t : State := { s with
        result := { code := .exhausted, data := 0#8, flag := false }, seq := none
        srch := { ld := 0#7, lfd := 0#4, ldf := false, crc8 := 0#8, rom := s.srch.rom } };
      exec (.search c) s = .next t ∧ exec .next s = .next t)

/-- R607, R605: a pass whose RST sample is 1 appends exactly Reset(1), resets the tracking and `crc8`, keeps `rom_no`
and reports NO_PRESENCE with FLAG 0: SEARCH and NEXT from LDF = 0, FIRST from every search state. -/
def Obligations.NoPresenceEndsThePass : Prop :=
  ∀ (s : State) (c : Byte), s.Ready → (s.drawLevel .rst).1 = true →
    (let t : State := { s with
        result := { code := .noPresence, data := 0#8, flag := false }
        srch := { ld := 0#7, lfd := 0#4, ldf := false, crc8 := 0#8, rom := s.srch.rom }
        hist := s.hist ++ [.reset true], bus := s.busAfter .rst, draws := (s.drawLevel .rst).2.draws };
      (s.srch.ldf = false → exec (.search c) s = .next t ∧ exec .next s = .next t) ∧ exec .first s = .next t)

/-- R604, R605, R608–R618: what SEARCH does from LDF = 0 with a presence, as a function of the sample pairs it takes,
whatever the line answers (LDF = 1: ExhaustedSearchesMakeNoSlot; no presence: NoPresenceEndsThePass; FIRST and NEXT:
FirstAndNextAreSearch). It sends the ROM command byte, then per bit two reads and the write of the direction. Either the last
pair is its first (1, 1): the code is discarded and NO_RESPONSE reported, `crc8` being the CRC of the complete bytes
gathered; or all 64 pairs are there, and the CRC, then the family code, of the gathered code decide: CRC_FAIL,
FAMILY_ZERO, or found, with LD and LFD the last deferred bit numbers (of 64, of 8) and LDF = 1 exactly when there is
none. The direction is the shared bit of two different samples, else below LD the previous code's bit, at LD 1, above
LD 0 (R609, R610). Scripted draws are taken in slot order: the presence sample, then the two samples of each pair. -/
def Obligations.PassFollowsItsSamples : Prop :=
  ∀ (s : State) (c : Byte), s.Ready → s.srch.ldf = false → (s.drawLevel .rst).1 = false →
    (∀ (p : Nat) (id cmp : Bool), passDir s.srch p (id, cmp) =
      if id ≠ cmp then id
      else if p + 1 < s.srch.ld.toNat then s.srch.rom.getLsbD p else decide (p + 1 = s.srch.ld.toNat)) ∧
    ∃ (pairs : List (Bool × Bool)) (rom : RomCode) (b : Bus) (d : Nat),
      (∀ (drawn : List (Bool × Bool)) (rest : List Bool), drawn.length = 64 →
        s.bus = .draws (false :: pairDraws drawn ++ rest) →
        pairs = drawn.take pairs.length ∧ b = .draws (pairDraws (drawn.drop pairs.length) ++ rest) ∧ d = s.draws) ∧
      (let after (code : Code) (flag : Bool) (srch : SearchReg) : State := { s with
          result := { code := code, data := 0#8, flag := flag }
          srch := srch
          hist := s.hist ++ [.reset false] ++ ((List.range 8).map fun i => BusEvent.write (c.getLsbD i) false) ++
            passEvents s.srch pairs
          bus := b, draws := d };
        let failed (crc : Byte) : SearchReg := { ld := 0#7, lfd := 0#4, ldf := false, crc8 := crc, rom := 0#64 };
        (∃ k, k < 64 ∧ pairs.length = k + 1 ∧ pairs[k]? = some (true, true) ∧
          (∀ p : Nat, p < k → pairs[p]? ≠ some (true, true)) ∧ gathered s.srch pairs k rom ∧
          exec (.search c) s =
            .next (after .noResponse false (failed (crc8Buffer ((romBytes rom).take (k / 8)))))) ∨
        (pairs.length = 64 ∧ (∀ p : Nat, pairs[p]? ≠ some (true, true)) ∧ gathered s.srch pairs 64 rom ∧
          (crc8Buffer (romBytes rom) ≠ 0#8 →
            exec (.search c) s = .next (after .crcFail false (failed (crc8Buffer (romBytes rom))))) ∧
          (crc8Buffer (romBytes rom) = 0#8 → romByte rom 0 = 0#8 →
            exec (.search c) s = .next (after .familyZero false (failed 0#8))) ∧
          (crc8Buffer (romBytes rom) = 0#8 → romByte rom 0 ≠ 0#8 →
            ∃ n m, lastDeferred s.srch pairs 64 n ∧ lastDeferred s.srch pairs 8 m ∧
              exec (.search c) s = .next (after .ok true
                { ld := BitVec.ofNat 7 n, lfd := BitVec.ofNat 4 m, ldf := decide (n = 0), crc8 := 0#8, rom := rom }))))

/-- R616, R613, R618: whenever SEARCH, FIRST or NEXT completes with FLAG 1, from any state, CODE is OK and `rom_no` is
a code whose eight bytes fold to 0 and whose family code is not 0; with FLAG 0 CODE is not OK and LD, LFD, LDF are
0. -/
def Obligations.OnlyValidCodesAreFound : Prop :=
  ∀ (s t : State) (i : Instr) (c : Byte), (i = .search c ∨ i = .first ∨ i = .next) → exec i s = .next t →
    (t.result.flag = true → t.result.code = .ok ∧
      crc8Buffer (romBytes t.srch.rom) = 0#8 ∧ romByte t.srch.rom 0 ≠ 0#8 ∧ t.srch.crc8 = 0#8) ∧
    (t.result.flag = false → t.result.code ≠ .ok ∧
      t.srch.ld = 0#7 ∧ t.srch.lfd = 0#4 ∧ t.srch.ldf = false)

/-- R622, R623, R624: FIRST with its checks passed is SEARCH 0xF0 from the state with LD = LFD = LDF = 0, and NEXT is
SEARCH 0xF0; both complete, and FIRST never with EXHAUSTED. -/
def Obligations.FirstAndNextAreSearch : Prop :=
  ∀ s : State, s.handle ≠ none → s.line ≠ .pwr →
    exec .first s = exec (.search 0xF0#8)
      { s with srch := { ld := 0#7, lfd := 0#4, ldf := false, crc8 := s.srch.crc8, rom := s.srch.rom } } ∧
    (∃ t, exec .first s = .next t ∧ t.result.code ≠ .exhausted) ∧
    exec .next s = exec (.search 0xF0#8) s ∧ (∃ t, exec .next s = .next t)

/-- R632, R622: what FIRST does is independent of the search state before it: two states that differ only there give
the same RESULT, the same events and the same environment, and, unless no device is present (then `rom_no` is kept),
the same state. -/
def Obligations.FirstForgetsTheSearchState : Prop :=
  ∀ (s : State) (r : SearchReg), s.Ready →
    ∃ t u, exec .first s = .next t ∧ exec .first { s with srch := r } = .next u ∧
      u = { t with srch := u.srch } ∧
      (t.result.code ≠ .noPresence → u = t) ∧
      (t.result.code = .noPresence → t.srch.rom = s.srch.rom ∧ u.srch = { t.srch with rom := r.rom })

/-- R630, R631: on the reference bus with any number of devices whose codes are distinct and valid, FIRST and then NEXT
after NEXT find every device's code exactly once, in ascending order of the bits as they go on the line; LDF is 1
exactly after the last; and the command after that finds none: EXHAUSTED, or, with no device at all, FIRST's
NO_PRESENCE. -/
def Obligations.EnumerationFindsEveryDeviceOnce : Prop :=
  ∀ (s : State) (ds : List Device), s.Ready → s.bus = .reference ds → (ds.map fun d => d.rom).Nodup →
    (∀ d ∈ ds, crc8Buffer (romBytes d.rom) = 0#8 ∧ romByte d.rom 0 ≠ 0#8) →
    ∃ codes : List RomCode, codes.Perm (ds.map fun d => d.rom) ∧ codes.Pairwise lineBefore ∧
      (∀ k c, codes[k]? = some c → ∃ t, enumerate k s = .next t ∧
        t.result = { code := .ok, data := 0#8, flag := true } ∧ t.srch.rom = c ∧
        t.srch.ldf = decide (k + 1 = codes.length)) ∧
      ∃ t, enumerate codes.length s = .next t ∧ t.srch.ldf = false ∧
        t.result = { code := if ds = [] then .noPresence else .exhausted, data := 0#8, flag := false }

/-- R633, R614, R618, R606: on the reference bus with one device whose code is valid, FIRST finds it with LDF = 1 in
201 events, and the NEXT after it reports EXHAUSTED with no event. -/
def Obligations.SingleDeviceIsFoundThenExhausted : Prop :=
  ∀ (s : State) (d : Device), s.Ready → s.bus = .reference [d] →
    crc8Buffer (romBytes d.rom) = 0#8 → romByte d.rom 0 ≠ 0#8 →
    ∃ t, exec .first s = .next t ∧ t.result = { code := .ok, data := 0#8, flag := true } ∧
      t.srch = { ld := 0#7, lfd := 0#4, ldf := true, crc8 := 0#8, rom := d.rom } ∧
      t.hist.length = s.hist.length + 201 ∧
      exec .next t = .next { t with
        result := { code := .exhausted, data := 0#8, flag := false }
        srch := { ld := 0#7, lfd := 0#4, ldf := false, crc8 := 0#8, rom := d.rom } }

/-! ## Select (45_select.md) -/

/-- R651–R654: SELECT after a presence sends 0x55 and the 64 bits of `selrom`, the family code's bit 0 first, and
reports OK with FLAG 1 whatever the code; without a presence it appends Reset(1) only and reports NO_PRESENCE with
FLAG 0. -/
def Obligations.SelectSendsTheCode : Prop :=
  ∀ s : State, s.Ready →
    ((s.drawLevel .rst).1 = false →
      (let es := (List.range 8).map (fun i => BusEvent.write ((0x55#8 : Byte).getLsbD i) false) ++
          (List.range 64).map (fun p => BusEvent.write (s.selrom.getLsbD p) false);
        exec .select s = .next { s with
          result := { code := .ok, data := 0#8, flag := true }
          hist := s.hist ++ [.reset false] ++ es, bus := es.foldl Bus.observe (s.busAfter .rst)
          draws := (s.drawLevel .rst).2.draws })) ∧
    ((s.drawLevel .rst).1 = true →
      exec .select s = .next { s with
        result := { code := .noPresence, data := 0#8, flag := false }
        hist := s.hist ++ [.reset true], bus := s.busAfter .rst, draws := (s.drawLevel .rst).2.draws })

/-! ## Slot words (40_timing_engine.md) -/

/-- R422–R425: a write slot taken by an IDLE engine leaves the line released, with P = 1 powered, and appends its
Write; REL releases the line and appends Release; nothing else changes. -/
def Obligations.WriteAndReleaseSlots : Prop :=
  ∀ s : State, s.engine = .idle →
    (let after (l : Line) (e : BusEvent) : State :=
        { s with line := l, hist := s.hist ++ [e], bus := s.bus.observe e };
      exec .slotW0 s = .next (after .rel (.write false false)) ∧
      exec .slotW1 s = .next (after .rel (.write true false)) ∧
      exec .slotW0Pwr s = .next (after .pwr (.write false true)) ∧
      exec .slotW1Pwr s = .next (after .pwr (.write true true)) ∧
      exec .slotRel s = .next (after .rel .release))

/-- R421, R426, R307: an RST or RD slot taken by an IDLE engine releases the line, pushes the sampled level onto
`s.rxq` and appends Reset(v) or Read(v); nothing else changes. -/
def Obligations.SampleSlots : Prop :=
  ∀ s : State, s.engine = .idle →
    (let after (k : Slot) (e : BusEvent) : State := { s with
        line := .rel, rxq := s.rxq ++ [(s.drawLevel k).1], hist := s.hist ++ [e]
        bus := s.busAfter k, draws := (s.drawLevel k).2.draws };
      exec .slotRst s = .next (after .rst (.reset (s.drawLevel .rst).1)) ∧
      exec .slotRd s = .next (after .rd (.read (s.drawLevel .rd).1)))

/-- R411, R412 and log entry 10 (the model's choice): a slot word given to a STOPPED engine is refused by name. -/
def Obligations.StoppedEngineTakesNoSlotWord : Prop :=
  ∀ (s : State) (k : Slot), s.engine = .stopped → exec k.toInstr s = .refused .engineStopped

/-- R412, R421–R426: the points of a slot one by one. Taken, it drives the line low; at the release point the line is
released, or powered with P = 1; then a slot without a sample ends, and a slot with one pushes its sample and ends
after that; REL releases the line, appends Release and ends in the same turn (R425). And the times of the points from the slot's start, as the parameters give them: the release point, the
sample point of RST and RD, the end; with parameters that meet R3 they stand in this order. (State holds no clock: log
entry 9; times are whole microseconds: log entry 27.) -/
def Obligations.SlotPointsInOrder : Prop :=
  (∀ p : Params,
    (releaseAt p .rst = p.tRstl ∧ releaseAt p .w0 = p.tLow0 ∧ releaseAt p .w1 = p.tLow1 ∧ releaseAt p .rd = p.tRl ∧
      releaseAt p .rel = 0 ∧ releaseAt p .w0Pwr = p.tLow0 ∧ releaseAt p .w1Pwr = p.tLow1) ∧
    (∀ k, sampleAt p k =
      if k = .rst then some (p.tRstl + p.tMsp) else if k = .rd then some p.tMsr else none) ∧
    (∀ k, endAt p k = if k = .rst then p.tRstl + p.tRsth else if k = .rel then 0 else p.tSlot) ∧
    (p.ok = true → ∀ k, k ≠ .rel → 0 < releaseAt p k ∧ releaseAt p k < endAt p k ∧
      ∀ t, sampleAt p k = some t → releaseAt p k < t ∧ t < endAt p k)) ∧
  (∀ (s : State) (k : Slot) (rest : List Slot), s.engine = .idle → s.txq = k :: rest → k ≠ .rel →
    s.engineTurn = { s with txq := rest, line := .low, engine := .run k .low } ∧
    (let released : State := { s with
        txq := rest, engine := .run k .released
        line := if k = .w0Pwr ∨ k = .w1Pwr then .pwr else .rel };
      s.engineTurn.engineTurn = released ∧
      ((k ≠ .rst ∧ k ≠ .rd) →
        released.engineTurn = { released with
          engine := .idle, hist := s.hist ++ [slotEvent k false], bus := s.bus.observe (slotEvent k false) }) ∧
      ((k = .rst ∨ k = .rd) →
        (let v := (s.drawLevel k).1;
          let sampled : State := { released with
            engine := .run k (.sampled v), rxq := s.rxq ++ [v]
            bus := (s.drawLevel k).2.bus, draws := (s.drawLevel k).2.draws };
          released.engineTurn = sampled ∧
          sampled.engineTurn = { sampled with
            engine := .idle, hist := s.hist ++ [slotEvent k v], bus := s.busAfter k })))) ∧
  (∀ (s : State) (rest : List Slot), s.engine = .idle → s.txq = .rel :: rest →
    s.engineTurn = { s with
      txq := rest, line := .rel, hist := s.hist ++ [.release], bus := s.bus.observe .release })

/-- R832, R831: the least bus time of every command with the default parameters, as the events it appends take it. A
host between commands finds the line released or powered; INIT, TEARDOWN, SET_FIFO_THRESH, CRC8_UPD and SEARCH_RESET
take none from any state. -/
def Obligations.CommandsTakeTheirBusTime : Prop :=
  (∀ (s t : State) (i : Instr), s.Claimed → (s.line = .rel ∨ s.line = .pwr) → exec i s = .next t →
    (let time := busTime Params.default (t.hist.drop s.hist.length);
      (i = .reset → time = 960) ∧
      (((∃ d, i = .writeByte d ∨ i = .writeBytePwr d) ∨ i = .readByte) → time = 560) ∧
      ((∃ pref, i = .triplet pref) → time = 210) ∧
      ((i = .endPower ∨ i = .waitIdle) → time = 0) ∧
      (((∃ c, i = .search c) ∨ i = .first ∨ i = .next) →
        ((t.result.code = .ok ∨ t.result.code = .crcFail ∨ t.result.code = .familyZero) → time = 14960) ∧
        (t.result.code = .noPresence → time = 960) ∧ (t.result.code = .exhausted → time = 0)) ∧
      (i = .select → t.result.flag = true → time = 6000))) ∧
  (∀ (s t : State) (i : Instr), exec i s = .next t →
    ((∃ p d e, i = .init p d e) ∨ i = .teardown ∨ (∃ x, i = .setFifoThresh x) ∨ (∃ a d, i = .crc8Upd a d) ∨
      i = .searchReset) →
    busTime Params.default (t.hist.drop s.hist.length) = 0)

/-- R401, R403, R405: DQ is not driven while the line is REL, driven low while it is LOW and high while it is PWR. With
DIR_EN = 1 and a handle, DIR has the transmit level while the line is driven and the other level while it is released;
with DIR_EN = 0 or without a handle it is not driven. -/
def Obligations.DirPinFollowsTheLine : Prop :=
  ∀ s : State,
    (s.line = .rel → s.dqDrive = none) ∧ (s.line = .low → s.dqDrive = some false) ∧
    (s.line = .pwr → s.dqDrive = some true) ∧
    (s.cfg.dirEn = false → s.dirLevel = none) ∧
    (s.cfg.dirEn = true → s.handle ≠ none → (s.line = .low ∨ s.line = .pwr) →
      s.dirLevel = some s.params.dirTxLevel) ∧
    (s.cfg.dirEn = true → s.handle ≠ none → s.line = .rel → s.dirLevel = some (!s.params.dirTxLevel)) ∧
    (s.handle = none → s.dirLevel = none)

/-! ## The whole machine -/

/-- R109, R114, R115, R519: which instructions write which state. SEL, the parameters and the host's inputs are
written by none; CFG by INIT and SET_FIFO_THRESH; the search state by INIT, SEARCH_RESET, SEARCH, FIRST and NEXT; the
handle by INIT and TEARDOWN; the pad pull by INIT; RESULT by no slot word. -/
def Obligations.EveryRegisterHasItsWriters : Prop :=
  ∀ (i : Instr) (s t : State), exec i s = .next t →
    t.selrom = s.selrom ∧ t.params = s.params ∧ t.input = s.input ∧ t.readData = s.readData ∧
    ((∀ p d e, i ≠ .init p d e) → (∀ x, i ≠ .setFifoThresh x) → t.cfg = s.cfg) ∧
    ((∀ p d e, i ≠ .init p d e) → i ≠ .searchReset → (∀ c, i ≠ .search c) → i ≠ .first → i ≠ .next →
      t.srch = s.srch) ∧
    ((∀ p d e, i ≠ .init p d e) → i ≠ .teardown → t.handle = s.handle) ∧
    ((∀ p d e, i ≠ .init p d e) → t.pullOff = s.pullOff ∧ t.pool = s.pool) ∧
    (i.slot? ≠ none → t.result = s.result ∧ t.seq = s.seq)

/-- R442, R459: FIFO_THRESH changes nothing but RXRDY. From two states that differ only in it every instruction other
than INIT and SET_FIFO_THRESH gives two states that differ only in it, or stops on both alike; so does every host write;
one move of the sequencer, which never waits on RXRDY, gives two states that differ only in it, unless it begins INIT
or SET_FIFO_THRESH, and so does every turn of the engine; every register but CFG reads the same in both, but for
STATUS bit 3. -/
def Obligations.ThresholdChangesOnlyRxrdy : Prop :=
  ∀ (s : State) (x : Byte),
    (let u : State := { s with cfg := { s.cfg with thresh := x } };
      (∀ i : Instr, (∀ p d e, i ≠ .init p d e) → (∀ y, i ≠ .setFifoThresh y) →
        (∀ t, exec i s = .next t → exec i u = .next { t with cfg := u.cfg }) ∧
        (∀ f, exec i s = .fault f → exec i u = .fault f) ∧ (∀ r, exec i s = .refused r → exec i u = .refused r)) ∧
      (∀ width off v,
        (∀ t, hostWrite width off v s = .next t → hostWrite width off v u = .next { t with cfg := u.cfg }) ∧
        (∀ f, hostWrite width off v s = .fault f → hostWrite width off v u = .fault f)) ∧
      ((∀ q p d e, s.seq = some q → q.cont ≠ .start (.init p d e)) →
        (∀ q y, s.seq = some q → q.cont ≠ .start (.setFifoThresh y)) →
        u.sequencerTurn = { s.sequencerTurn with cfg := u.cfg }) ∧
      u.engineTurn = { s.engineTurn with cfg := u.cfg } ∧
      (∀ off, off ≠ 0x0C#6 → off ≠ 0x04#6 → u.register off = s.register off) ∧
      (∀ b, b ≠ 3 → u.statusWord.getLsbD b = s.statusWord.getLsbD b))

/-- R119, R215: no step but the block reset removes or changes a bus event. -/
def Obligations.HistoryOnlyGrows : Prop :=
  ∀ s t : State, (∀ rest, s.input ≠ .blockReset :: rest) → step s = .next t → s.hist <+: t.hist

/-- R443, R520, R116, R403: what the invariant says of a state between commands and of the next slot: RXRDY reads 0, no
slot but REL is taken on a line that is not released, the search state is as R116 says, and the line is released while
there is no handle and never low while the engine waits. R108, R219: a move of the sequencer that leaves BUSY = 1 and
every turn of the engine keep RESULT and CFG. And of a command past its first move: the sequencer changes the search
state only when every slot it queued has ended, and LD, LFD or LDF, and so SSTATE, only as it completes the command;
the engine never changes the search state. (The spec records a search bit after its write slot, R610, R612; that the
sequencer waits until that slot has ended is the model's choice, log entry 21, and that no access sees LD, LFD and LDF
changed before the completion is the model's choice, log entry 28.) -/
def Obligations.InvariantGivesTheSpecsRules : Prop :=
  ∀ s : State, s.Inv →
    (s.busy = false → s.txq = [] ∧ s.rxq = [] ∧ (s.engine = .idle ∨ s.engine = .stopped) ∧
      s.statusWord.getLsbD 3 = false ∧ s.srch.Ok) ∧
    (∀ k rest, s.engine = .idle → s.txq = k :: rest → k ≠ .rel → s.line = .rel) ∧
    (s.handle = none → s.line = .rel) ∧ (s.engine = .idle → s.line ≠ .low) ∧
    (∀ q, s.seq = some q → (∀ i, q.cont ≠ .start i) →
      (s.sequencerTurn.srch ≠ s.srch →
        q.todo = [] ∧ s.txq = [] ∧ s.rxq = [] ∧ (s.engine = .idle ∨ s.engine = .stopped)) ∧
      (s.sequencerTurn.busy = true →
        s.sequencerTurn.srch.ld = s.srch.ld ∧ s.sequencerTurn.srch.lfd = s.srch.lfd ∧
          s.sequencerTurn.srch.ldf = s.srch.ldf)) ∧
    (s.sequencerTurn.busy = true → s.sequencerTurn.result = s.result ∧ s.sequencerTurn.cfg = s.cfg) ∧
    s.engineTurn.srch = s.srch ∧ s.engineTurn.result = s.result ∧ s.engineTurn.cfg = s.cfg

/-- R121: the state after reset meets the invariant. (Its parameters are R3's defaults, log entry 5.) -/
def Obligations.ResetMeetsTheInvariant : Prop := State.reset.Inv

/-- R116, R120, R403, R441, R443, R520: every step keeps the invariant, from every state that meets it, whichever host
access, turn of an agent or block reset comes next. -/
def Obligations.EveryStepKeepsTheInvariant : Prop :=
  ∀ s t : State, s.Inv → step s = .next t → t.Inv

/-- R217, R413, R414: no move of the sequencer or of the engine changes what the command in progress comes to: the
block, finished after the move, is the block finished before it. So every interleaving of the two gives the outcome
the command's meaning gives. -/
def Obligations.MovesKeepTheOutcome : Prop :=
  ∀ s : State, s.StartOk → (s.busy = false → s.Quiet) →
    s.sequencerTurn.finish = s.finish ∧ s.engineTurn.finish = s.finish ∧ s.nextPoint.finish = s.finish

/-- R309, R105: a word written to CMD on its own starts exactly what `cmd` runs: once the command in progress has
finished, the state is the one `cmd` gives; and one faults exactly when the other does, with the same fault. R105, R106,
R108, R219: an accepted command is in progress from this access on, BUSY = 1, and nothing but the sequencer's position
has changed, so RESULT and CFG read as before it. -/
def Obligations.WritingCmdStartsTheCommand : Prop :=
  (∀ (s : State) (w : Word), s.Quiet →
    (∀ t, hostWrite 32 0x00#6 w s = .next t → hostCmd w s = .next t.finish) ∧
    (∀ f, hostWrite 32 0x00#6 w s = .fault f ↔ hostCmd w s = .fault f)) ∧
  (∀ (s : State) (w : Word) (i : Instr), s.busy = false → decodeCommand w = .ok i → commandFault i s = none →
    ∃ t, hostWrite 32 0x00#6 w s = .next t ∧ t.busy = true ∧ t = { s with seq := t.seq })

/-- R742: with no further host access, the block's own steps bring the command in progress to completion: after some
number of steps the state is the one `finish` gives, and BUSY is 0 in it. -/
def Obligations.CommandsCompleteByThemselves : Prop :=
  ∀ s : State, s.Inv → s.input = [] →
    (∃ k, Host.Core.run Sys2Proof.core k s = .next s.finish) ∧ s.finish.busy = false

/-- R712, R711, R742: only a host access can fault; a step that is a turn of an agent, a block reset or OWM's own move
always gives a next state, whatever the draws. -/
def Obligations.OnlyHostAccessesStop : Prop :=
  ∀ s : State, s.Inv → (∀ w rest, s.input ≠ .cmd w :: rest) →
    (∀ width off v rest, s.input ≠ .write width off v :: rest) →
    (∀ width off rest, s.input ≠ .read width off :: rest) → ∃ t, step s = .next t
end

