-- ==== Sys2Proof/Laws/State.lean ====
section
/-! SUPPORT. What each named update of the state does to each field, so that no proof unfolds a record update. -/

namespace Sys2Proof.Machine

/-! ## Complete (R112) -/

@[simp] theorem complete_result (s : State) (r : ResultReg) : (s.complete r).result = r := rfl
@[simp] theorem complete_cfg (s : State) (r : ResultReg) : (s.complete r).cfg = s.cfg := rfl
@[simp] theorem complete_srch (s : State) (r : ResultReg) : (s.complete r).srch = s.srch := rfl
@[simp] theorem complete_selrom (s : State) (r : ResultReg) : (s.complete r).selrom = s.selrom := rfl
@[simp] theorem complete_engine (s : State) (r : ResultReg) : (s.complete r).engine = s.engine := rfl
@[simp] theorem complete_line (s : State) (r : ResultReg) : (s.complete r).line = s.line := rfl
@[simp] theorem complete_txq (s : State) (r : ResultReg) : (s.complete r).txq = s.txq := rfl
@[simp] theorem complete_rxq (s : State) (r : ResultReg) : (s.complete r).rxq = s.rxq := rfl
@[simp] theorem complete_handle (s : State) (r : ResultReg) : (s.complete r).handle = s.handle := rfl
@[simp] theorem complete_pullOff (s : State) (r : ResultReg) : (s.complete r).pullOff = s.pullOff := rfl
@[simp] theorem complete_hist (s : State) (r : ResultReg) : (s.complete r).hist = s.hist := rfl
@[simp] theorem complete_seq (s : State) (r : ResultReg) : (s.complete r).seq = none := rfl
@[simp] theorem complete_params (s : State) (r : ResultReg) : (s.complete r).params = s.params := rfl
@[simp] theorem complete_bus (s : State) (r : ResultReg) : (s.complete r).bus = s.bus := rfl
@[simp] theorem complete_pool (s : State) (r : ResultReg) : (s.complete r).pool = s.pool := rfl
@[simp] theorem complete_input (s : State) (r : ResultReg) : (s.complete r).input = s.input := rfl
@[simp] theorem complete_readData (s : State) (r : ResultReg) : (s.complete r).readData = s.readData := rfl
@[simp] theorem complete_draws (s : State) (r : ResultReg) : (s.complete r).draws = s.draws := rfl

/-! ## ResetTracking (R602) -/

@[simp] theorem resetTracking_result (s : State) : (s.resetTracking).result = s.result := rfl
@[simp] theorem resetTracking_cfg (s : State) : (s.resetTracking).cfg = s.cfg := rfl
@[simp] theorem resetTracking_srch (s : State) :
    (s.resetTracking).srch = { s.srch with ld := 0#7, lfd := 0#4, ldf := false } := rfl
@[simp] theorem resetTracking_selrom (s : State) : (s.resetTracking).selrom = s.selrom := rfl
@[simp] theorem resetTracking_engine (s : State) : (s.resetTracking).engine = s.engine := rfl
@[simp] theorem resetTracking_line (s : State) : (s.resetTracking).line = s.line := rfl
@[simp] theorem resetTracking_txq (s : State) : (s.resetTracking).txq = s.txq := rfl
@[simp] theorem resetTracking_rxq (s : State) : (s.resetTracking).rxq = s.rxq := rfl
@[simp] theorem resetTracking_handle (s : State) : (s.resetTracking).handle = s.handle := rfl
@[simp] theorem resetTracking_pullOff (s : State) : (s.resetTracking).pullOff = s.pullOff := rfl
@[simp] theorem resetTracking_hist (s : State) : (s.resetTracking).hist = s.hist := rfl
@[simp] theorem resetTracking_seq (s : State) : (s.resetTracking).seq = s.seq := rfl
@[simp] theorem resetTracking_params (s : State) : (s.resetTracking).params = s.params := rfl
@[simp] theorem resetTracking_bus (s : State) : (s.resetTracking).bus = s.bus := rfl
@[simp] theorem resetTracking_pool (s : State) : (s.resetTracking).pool = s.pool := rfl
@[simp] theorem resetTracking_input (s : State) : (s.resetTracking).input = s.input := rfl
@[simp] theorem resetTracking_readData (s : State) : (s.resetTracking).readData = s.readData := rfl
@[simp] theorem resetTracking_draws (s : State) : (s.resetTracking).draws = s.draws := rfl

/-! ## Discarding a code (R617) -/

@[simp] theorem discardRom_result (s : State) : (s.discardRom).result = s.result := rfl
@[simp] theorem discardRom_cfg (s : State) : (s.discardRom).cfg = s.cfg := rfl
@[simp] theorem discardRom_srch (s : State) :
    (s.discardRom).srch = { s.srch with ld := 0#7, lfd := 0#4, ldf := false, rom := 0#64 } := rfl
@[simp] theorem discardRom_selrom (s : State) : (s.discardRom).selrom = s.selrom := rfl
@[simp] theorem discardRom_engine (s : State) : (s.discardRom).engine = s.engine := rfl
@[simp] theorem discardRom_line (s : State) : (s.discardRom).line = s.line := rfl
@[simp] theorem discardRom_txq (s : State) : (s.discardRom).txq = s.txq := rfl
@[simp] theorem discardRom_rxq (s : State) : (s.discardRom).rxq = s.rxq := rfl
@[simp] theorem discardRom_handle (s : State) : (s.discardRom).handle = s.handle := rfl
@[simp] theorem discardRom_pullOff (s : State) : (s.discardRom).pullOff = s.pullOff := rfl
@[simp] theorem discardRom_hist (s : State) : (s.discardRom).hist = s.hist := rfl
@[simp] theorem discardRom_seq (s : State) : (s.discardRom).seq = s.seq := rfl
@[simp] theorem discardRom_params (s : State) : (s.discardRom).params = s.params := rfl
@[simp] theorem discardRom_bus (s : State) : (s.discardRom).bus = s.bus := rfl
@[simp] theorem discardRom_pool (s : State) : (s.discardRom).pool = s.pool := rfl
@[simp] theorem discardRom_input (s : State) : (s.discardRom).input = s.input := rfl
@[simp] theorem discardRom_readData (s : State) : (s.discardRom).readData = s.readData := rfl
@[simp] theorem discardRom_draws (s : State) : (s.discardRom).draws = s.draws := rfl

/-! ## `crc8 <- 0` (R605) -/

@[simp] theorem zeroCrc_result (s : State) : (s.zeroCrc).result = s.result := rfl
@[simp] theorem zeroCrc_cfg (s : State) : (s.zeroCrc).cfg = s.cfg := rfl
@[simp] theorem zeroCrc_srch (s : State) : (s.zeroCrc).srch = { s.srch with crc8 := 0#8 } := rfl
@[simp] theorem zeroCrc_selrom (s : State) : (s.zeroCrc).selrom = s.selrom := rfl
@[simp] theorem zeroCrc_engine (s : State) : (s.zeroCrc).engine = s.engine := rfl
@[simp] theorem zeroCrc_line (s : State) : (s.zeroCrc).line = s.line := rfl
@[simp] theorem zeroCrc_txq (s : State) : (s.zeroCrc).txq = s.txq := rfl
@[simp] theorem zeroCrc_rxq (s : State) : (s.zeroCrc).rxq = s.rxq := rfl
@[simp] theorem zeroCrc_handle (s : State) : (s.zeroCrc).handle = s.handle := rfl
@[simp] theorem zeroCrc_pullOff (s : State) : (s.zeroCrc).pullOff = s.pullOff := rfl
@[simp] theorem zeroCrc_hist (s : State) : (s.zeroCrc).hist = s.hist := rfl
@[simp] theorem zeroCrc_seq (s : State) : (s.zeroCrc).seq = s.seq := rfl
@[simp] theorem zeroCrc_params (s : State) : (s.zeroCrc).params = s.params := rfl
@[simp] theorem zeroCrc_bus (s : State) : (s.zeroCrc).bus = s.bus := rfl
@[simp] theorem zeroCrc_pool (s : State) : (s.zeroCrc).pool = s.pool := rfl
@[simp] theorem zeroCrc_input (s : State) : (s.zeroCrc).input = s.input := rfl
@[simp] theorem zeroCrc_readData (s : State) : (s.zeroCrc).readData = s.readData := rfl
@[simp] theorem zeroCrc_draws (s : State) : (s.zeroCrc).draws = s.draws := rfl

/-! ## A bus event (R119) -/

@[simp] theorem record_result (s : State) (e : BusEvent) : (s.record e).result = s.result := rfl
@[simp] theorem record_cfg (s : State) (e : BusEvent) : (s.record e).cfg = s.cfg := rfl
@[simp] theorem record_srch (s : State) (e : BusEvent) : (s.record e).srch = s.srch := rfl
@[simp] theorem record_selrom (s : State) (e : BusEvent) : (s.record e).selrom = s.selrom := rfl
@[simp] theorem record_engine (s : State) (e : BusEvent) : (s.record e).engine = s.engine := rfl
@[simp] theorem record_line (s : State) (e : BusEvent) : (s.record e).line = s.line := rfl
@[simp] theorem record_txq (s : State) (e : BusEvent) : (s.record e).txq = s.txq := rfl
@[simp] theorem record_rxq (s : State) (e : BusEvent) : (s.record e).rxq = s.rxq := rfl
@[simp] theorem record_handle (s : State) (e : BusEvent) : (s.record e).handle = s.handle := rfl
@[simp] theorem record_pullOff (s : State) (e : BusEvent) : (s.record e).pullOff = s.pullOff := rfl
@[simp] theorem record_hist (s : State) (e : BusEvent) : (s.record e).hist = s.hist ++ [e] := rfl
@[simp] theorem record_seq (s : State) (e : BusEvent) : (s.record e).seq = s.seq := rfl
@[simp] theorem record_params (s : State) (e : BusEvent) : (s.record e).params = s.params := rfl
@[simp] theorem record_bus (s : State) (e : BusEvent) : (s.record e).bus = s.bus.observe e := rfl
@[simp] theorem record_pool (s : State) (e : BusEvent) : (s.record e).pool = s.pool := rfl
@[simp] theorem record_input (s : State) (e : BusEvent) : (s.record e).input = s.input := rfl
@[simp] theorem record_readData (s : State) (e : BusEvent) : (s.record e).readData = s.readData := rfl
@[simp] theorem record_draws (s : State) (e : BusEvent) : (s.record e).draws = s.draws := rfl

/-! ## Queueing slot words (R441) -/

@[simp] theorem queue_result (s : State) (ws : List Slot) : (s.queue ws).result = s.result := rfl
@[simp] theorem queue_cfg (s : State) (ws : List Slot) : (s.queue ws).cfg = s.cfg := rfl
@[simp] theorem queue_srch (s : State) (ws : List Slot) : (s.queue ws).srch = s.srch := rfl
@[simp] theorem queue_selrom (s : State) (ws : List Slot) : (s.queue ws).selrom = s.selrom := rfl
@[simp] theorem queue_engine (s : State) (ws : List Slot) : (s.queue ws).engine = s.engine := rfl
@[simp] theorem queue_line (s : State) (ws : List Slot) : (s.queue ws).line = s.line := rfl
@[simp] theorem queue_txq (s : State) (ws : List Slot) : (s.queue ws).txq = s.txq ++ ws := rfl
@[simp] theorem queue_rxq (s : State) (ws : List Slot) : (s.queue ws).rxq = s.rxq := rfl
@[simp] theorem queue_handle (s : State) (ws : List Slot) : (s.queue ws).handle = s.handle := rfl
@[simp] theorem queue_pullOff (s : State) (ws : List Slot) : (s.queue ws).pullOff = s.pullOff := rfl
@[simp] theorem queue_hist (s : State) (ws : List Slot) : (s.queue ws).hist = s.hist := rfl
@[simp] theorem queue_seq (s : State) (ws : List Slot) : (s.queue ws).seq = s.seq := rfl
@[simp] theorem queue_params (s : State) (ws : List Slot) : (s.queue ws).params = s.params := rfl
@[simp] theorem queue_bus (s : State) (ws : List Slot) : (s.queue ws).bus = s.bus := rfl
@[simp] theorem queue_pool (s : State) (ws : List Slot) : (s.queue ws).pool = s.pool := rfl
@[simp] theorem queue_input (s : State) (ws : List Slot) : (s.queue ws).input = s.input := rfl
@[simp] theorem queue_readData (s : State) (ws : List Slot) : (s.queue ws).readData = s.readData := rfl
@[simp] theorem queue_draws (s : State) (ws : List Slot) : (s.queue ws).draws = s.draws := rfl

/-! ## A slot's end (R412) -/

@[simp] theorem endSlot_result (s : State) (k : Slot) (v : Bool) : (s.endSlot k v).result = s.result := rfl
@[simp] theorem endSlot_cfg (s : State) (k : Slot) (v : Bool) : (s.endSlot k v).cfg = s.cfg := rfl
@[simp] theorem endSlot_srch (s : State) (k : Slot) (v : Bool) : (s.endSlot k v).srch = s.srch := rfl
@[simp] theorem endSlot_selrom (s : State) (k : Slot) (v : Bool) : (s.endSlot k v).selrom = s.selrom := rfl
@[simp] theorem endSlot_engine (s : State) (k : Slot) (v : Bool) : (s.endSlot k v).engine = .idle := rfl
@[simp] theorem endSlot_line (s : State) (k : Slot) (v : Bool) : (s.endSlot k v).line = s.line := rfl
@[simp] theorem endSlot_txq (s : State) (k : Slot) (v : Bool) : (s.endSlot k v).txq = s.txq := rfl
@[simp] theorem endSlot_rxq (s : State) (k : Slot) (v : Bool) : (s.endSlot k v).rxq = s.rxq := rfl
@[simp] theorem endSlot_handle (s : State) (k : Slot) (v : Bool) : (s.endSlot k v).handle = s.handle := rfl
@[simp] theorem endSlot_pullOff (s : State) (k : Slot) (v : Bool) : (s.endSlot k v).pullOff = s.pullOff := rfl
@[simp] theorem endSlot_hist (s : State) (k : Slot) (v : Bool) :
    (s.endSlot k v).hist = s.hist ++ [slotEvent k v] := rfl
@[simp] theorem endSlot_seq (s : State) (k : Slot) (v : Bool) : (s.endSlot k v).seq = s.seq := rfl
@[simp] theorem endSlot_params (s : State) (k : Slot) (v : Bool) : (s.endSlot k v).params = s.params := rfl
@[simp] theorem endSlot_bus (s : State) (k : Slot) (v : Bool) :
    (s.endSlot k v).bus = s.bus.observe (slotEvent k v) := rfl
@[simp] theorem endSlot_pool (s : State) (k : Slot) (v : Bool) : (s.endSlot k v).pool = s.pool := rfl
@[simp] theorem endSlot_input (s : State) (k : Slot) (v : Bool) : (s.endSlot k v).input = s.input := rfl
@[simp] theorem endSlot_readData (s : State) (k : Slot) (v : Bool) : (s.endSlot k v).readData = s.readData := rfl
@[simp] theorem endSlot_draws (s : State) (k : Slot) (v : Bool) : (s.endSlot k v).draws = s.draws := rfl

/-! ## The sequencer's position (R118) -/

@[simp] theorem proceed_result (s : State) (todo : List Slot) (cont : Cont) :
    (s.proceed todo cont).result = s.result := rfl
@[simp] theorem proceed_cfg (s : State) (todo : List Slot) (cont : Cont) : (s.proceed todo cont).cfg = s.cfg := rfl
@[simp] theorem proceed_srch (s : State) (todo : List Slot) (cont : Cont) :
    (s.proceed todo cont).srch = s.srch := rfl
@[simp] theorem proceed_selrom (s : State) (todo : List Slot) (cont : Cont) :
    (s.proceed todo cont).selrom = s.selrom := rfl
@[simp] theorem proceed_engine (s : State) (todo : List Slot) (cont : Cont) :
    (s.proceed todo cont).engine = s.engine := rfl
@[simp] theorem proceed_line (s : State) (todo : List Slot) (cont : Cont) :
    (s.proceed todo cont).line = s.line := rfl
@[simp] theorem proceed_txq (s : State) (todo : List Slot) (cont : Cont) : (s.proceed todo cont).txq = s.txq := rfl
@[simp] theorem proceed_rxq (s : State) (todo : List Slot) (cont : Cont) : (s.proceed todo cont).rxq = s.rxq := rfl
@[simp] theorem proceed_handle (s : State) (todo : List Slot) (cont : Cont) :
    (s.proceed todo cont).handle = s.handle := rfl
@[simp] theorem proceed_pullOff (s : State) (todo : List Slot) (cont : Cont) :
    (s.proceed todo cont).pullOff = s.pullOff := rfl
@[simp] theorem proceed_hist (s : State) (todo : List Slot) (cont : Cont) :
    (s.proceed todo cont).hist = s.hist := rfl
@[simp] theorem proceed_seq (s : State) (todo : List Slot) (cont : Cont) :
    (s.proceed todo cont).seq = some ⟨todo, cont⟩ := rfl
@[simp] theorem proceed_params (s : State) (todo : List Slot) (cont : Cont) :
    (s.proceed todo cont).params = s.params := rfl
@[simp] theorem proceed_bus (s : State) (todo : List Slot) (cont : Cont) : (s.proceed todo cont).bus = s.bus := rfl
@[simp] theorem proceed_pool (s : State) (todo : List Slot) (cont : Cont) :
    (s.proceed todo cont).pool = s.pool := rfl
@[simp] theorem proceed_input (s : State) (todo : List Slot) (cont : Cont) :
    (s.proceed todo cont).input = s.input := rfl
@[simp] theorem proceed_readData (s : State) (todo : List Slot) (cont : Cont) :
    (s.proceed todo cont).readData = s.readData := rfl
@[simp] theorem proceed_draws (s : State) (todo : List Slot) (cont : Cont) :
    (s.proceed todo cont).draws = s.draws := rfl

end Sys2Proof.Machine
end

