-- ==== Sys2Proof/Laws/Engine.lean ====
section
/-! SUPPORT. What a whole slot does to the state, whatever the state, and what running the queue does (R412,
R421–R426). -/

namespace Sys2Proof.Machine

/-! ## Samples -/

/-- A draw changes only the environment and the index of the next free value. -/
theorem drawLevel_snd (s : State) (k : Slot) :
    (s.drawLevel k).2 = { s with bus := (s.drawLevel k).2.bus, draws := (s.drawLevel k).2.draws } := by
  unfold State.drawLevel
  split <;> rfl

/-- A draw reads only the environment and the index of the next free value. -/
theorem drawLevel_congr {s t : State} (k : Slot) (hb : s.bus = t.bus) (hd : s.draws = t.draws) :
    (s.drawLevel k).1 = (t.drawLevel k).1 ∧ (s.drawLevel k).2.bus = (t.drawLevel k).2.bus ∧
      (s.drawLevel k).2.draws = (t.drawLevel k).2.draws := by
  unfold State.drawLevel
  rw [hb, hd]
  split <;> simp_all

/-! ## Whole slots -/

theorem nextPoint_idle {s : State} (h : s.engine = .idle) : s.nextPoint = s := by
  simp [State.nextPoint, h]

theorem nextPoint_stopped {s : State} (h : s.engine = .stopped) : s.nextPoint = s := by
  simp [State.nextPoint, h]

theorem finishSlot_idle {s : State} (h : s.engine = .idle) : s.finishSlot = s := by
  simp [State.finishSlot, nextPoint_idle h]

theorem finishSlot_stopped {s : State} (h : s.engine = .stopped) : s.finishSlot = s := by
  simp [State.finishSlot, nextPoint_stopped h]

/-- A slot without a sample: the line is at its release action, the event is appended, the engine is IDLE; nothing
else of OWM changes (R422–R425). -/
theorem runSlot_write (s : State) {k : Slot} (h : slotSamples k = false) :
    s.runSlot k =
      { s with
        line := releaseLine k
        engine := .idle
        hist := s.hist ++ [slotEvent k false]
        bus := s.bus.observe (slotEvent k false) } := by
  cases k <;> simp_all [slotSamples] <;> rfl

/-- A slot with a sample: the line is released, the sample is pushed, the event is appended, the engine is IDLE;
nothing else of OWM changes (R421, R426). -/
theorem runSlot_sample (s : State) {k : Slot} (h : slotSamples k = true) :
    s.runSlot k =
      { s with
        line := .rel
        engine := .idle
        rxq := s.rxq ++ [(s.drawLevel k).1]
        hist := s.hist ++ [slotEvent k (s.drawLevel k).1]
        bus := s.busAfter k
        draws := (s.drawLevel k).2.draws } := by
  have key : ∀ t : State, t.bus = s.bus → t.draws = s.draws →
      (t.drawLevel k).1 = (s.drawLevel k).1 ∧ (t.drawLevel k).2.bus = (s.drawLevel k).2.bus ∧
        (t.drawLevel k).2.draws = (s.drawLevel k).2.draws :=
    fun t hb hd => drawLevel_congr k hb hd
  have hk : k ≠ .rel := by rintro rfl; simp [slotSamples] at h
  have hr : releaseLine k = .rel := by cases k <;> simp_all [slotSamples, releaseLine]
  obtain ⟨k1, k2, k3⟩ := key { s with line := .rel, engine := .run k .released } rfl rfl
  have hd := drawLevel_snd { s with line := .rel, engine := .run k .released } k
  simp only [State.runSlot, State.takeSlot, hk, if_false, State.finishSlot, State.nextPoint, hr, h, if_true,
    State.samplePoint, State.sampleLine, State.endSlot, State.record, State.busAfter]
  rw [hd]
  simp only [k1, k2, k3]

/-! ## Running the queue -/

theorem runSlots_append (s : State) (a b : List Slot) : s.runSlots (a ++ b) = (s.runSlots a).runSlots b := by
  induction a generalizing s with
  | nil => rfl
  | cons k a ih => exact ih (s.runSlot k)

/-- On an engine at rest with nothing queued, there is nothing to run. -/
theorem settle_rest {s : State} (h : s.engine = .idle ∨ s.engine = .stopped) (ht : s.txq = []) : s.settle = s := by
  have hf : s.finishSlot = s := by
    rcases h with h | h
    · exact finishSlot_idle h
    · exact finishSlot_stopped h
  simp only [State.settle, ht, State.runSlots, hf]
  rw [← ht]

/-- On an IDLE engine with nothing queued, the queued words run as whole slots. -/
theorem settle_queue_idle {s : State} (h : s.engine = .idle) (ht : s.txq = []) (ws : List Slot) :
    (s.queue ws).settle = s.runSlots ws := by
  have hf : (s.queue ws).finishSlot = s.queue ws := finishSlot_idle (by simpa using h)
  simp only [State.settle, hf, queue_txq, ht, List.nil_append]
  congr 1
  simp only [State.queue]
  rw [← ht]

/-- What write slots without power do: their events, the line released, the engine IDLE; nothing else of OWM
changes (R422, R423). -/
theorem runSlots_writes (s : State) (bits : List Bool) (h : bits ≠ []) :
    s.runSlots (bits.map writeSlot) =
      { s with
        line := .rel
        engine := .idle
        hist := s.hist ++ bits.map (BusEvent.write · false)
        bus := bits.foldl (fun b v => b.observe (.write v false)) s.bus } := by
  have one : ∀ (t : State) (b : Bool), t.runSlot (writeSlot b) =
      { t with line := .rel, engine := .idle, hist := t.hist ++ [.write b false],
               bus := t.bus.observe (.write b false) } := by
    intro t b
    cases b <;> exact runSlot_write t rfl
  induction bits generalizing s with
  | nil => exact absurd rfl h
  | cons b bits ih =>
    rw [List.map_cons, State.runSlots, one]
    by_cases hb : bits = []
    · subst hb; simp [State.runSlots]
    · rw [ih _ hb]; simp

end Sys2Proof.Machine
end

