-- ==== Sys2Proof/Laws/Queue.lean ====
section
/-! SUPPORT. The engine's work commutes with the sequencer's own bookkeeping, and what the queue operations do
(R414, R441). -/

namespace Sys2Proof.Machine

/-! ## The engine neither reads nor writes the sequencer's registers -/

/-- The state with the sequencer's own registers replaced: RESULT, the search state and the position. -/
def State.withSeq (s : State) (r : ResultReg) (x : SearchReg) (q : Option Seq) : State :=
  { s with result := r, srch := x, seq := q }

theorem nextPoint_withSeq (s : State) (r : ResultReg) (x : SearchReg) (q : Option Seq) :
    (s.withSeq r x q).nextPoint = s.nextPoint.withSeq r x q := by
  unfold State.nextPoint State.withSeq State.samplePoint State.sampleLine State.drawLevel
  rcases s with ⟨_, _, _, _, _ | _ | ⟨k, _ | _ | v⟩, _ | _ | _, _, _, _, _, _, _, _, (_ | _) | _, _, _, _, _⟩ <;>
    first
    | rfl
    | (cases k <;> rfl)

theorem nextPoint_txq (s : State) (l : List Slot) :
    { s with txq := l }.nextPoint = { s.nextPoint with txq := l } := by
  unfold State.nextPoint State.samplePoint State.sampleLine State.drawLevel
  rcases s with ⟨_, _, _, _, _ | _ | ⟨k, _ | _ | v⟩, _ | _ | _, _, _, _, _, _, _, _, (_ | _) | _, _, _, _, _⟩ <;>
    first
    | rfl
    | (cases k <;> rfl)

theorem nextPoint_keeps_txq (s : State) : s.nextPoint.txq = s.txq := by
  conv_lhs => rw [show s = { s with txq := s.txq } from rfl, nextPoint_txq]

/-- Samples already in `s.rxq` stay in front of the one the slot pushes. -/
theorem nextPoint_rxq (s : State) (l : List Bool) :
    { s with rxq := l ++ s.rxq }.nextPoint = { s.nextPoint with rxq := l ++ s.nextPoint.rxq } := by
  unfold State.nextPoint State.samplePoint State.sampleLine State.drawLevel
  rcases s with ⟨_, _, _, _, _ | _ | ⟨k, _ | _ | v⟩, _ | _ | _, _, _, _, _, _, _, _, (_ | _) | _, _, _, _, _⟩ <;>
    first
    | rfl
    | (cases k <;> simp [slotSamples, State.endSlot, State.record])

theorem finishSlot_withSeq (s : State) (r : ResultReg) (x : SearchReg) (q : Option Seq) :
    (s.withSeq r x q).finishSlot = s.finishSlot.withSeq r x q := by
  simp only [State.finishSlot, nextPoint_withSeq]

theorem finishSlot_txq (s : State) (l : List Slot) :
    { s with txq := l }.finishSlot = { s.finishSlot with txq := l } := by
  simp only [State.finishSlot, nextPoint_txq]

theorem finishSlot_keeps_txq (s : State) : s.finishSlot.txq = s.txq := by
  simp only [State.finishSlot, nextPoint_keeps_txq]

theorem finishSlot_rxq (s : State) (l : List Bool) :
    { s with rxq := l ++ s.rxq }.finishSlot = { s.finishSlot with rxq := l ++ s.finishSlot.rxq } := by
  simp only [State.finishSlot]
  rw [nextPoint_rxq, nextPoint_rxq, nextPoint_rxq]

theorem runSlot_withSeq (s : State) (k : Slot) (r : ResultReg) (x : SearchReg) (q : Option Seq) :
    (s.withSeq r x q).runSlot k = (s.runSlot k).withSeq r x q := by
  have : (s.withSeq r x q).takeSlot k = (s.takeSlot k).withSeq r x q := by
    unfold State.takeSlot
    split <;> rfl
  simp only [State.runSlot, this, finishSlot_withSeq]

theorem runSlot_rxq (s : State) (k : Slot) (l : List Bool) :
    { s with rxq := l ++ s.rxq }.runSlot k = { s.runSlot k with rxq := l ++ (s.runSlot k).rxq } := by
  cases h : slotSamples k
  · simp only [runSlot_write _ h]
  · obtain ⟨h1, h2, h3⟩ := drawLevel_congr (s := { s with rxq := l ++ s.rxq }) (t := s) k rfl rfl
    simp only [runSlot_sample _ h, State.busAfter, h1, h2, h3, List.append_assoc]

theorem runSlots_withSeq (s : State) (ks : List Slot) (r : ResultReg) (x : SearchReg) (q : Option Seq) :
    (s.withSeq r x q).runSlots ks = (s.runSlots ks).withSeq r x q := by
  induction ks generalizing s with
  | nil => rfl
  | cons k ks ih => simp only [State.runSlots, runSlot_withSeq, ih]

theorem runSlots_rxq (s : State) (ks : List Slot) (l : List Bool) :
    { s with rxq := l ++ s.rxq }.runSlots ks = { s.runSlots ks with rxq := l ++ (s.runSlots ks).rxq } := by
  induction ks generalizing s with
  | nil => rfl
  | cons k ks ih => simp only [State.runSlots, runSlot_rxq, ih]

theorem settle_withSeq (s : State) (r : ResultReg) (x : SearchReg) (q : Option Seq) :
    (s.withSeq r x q).settle = s.settle.withSeq r x q := by
  simp only [State.settle, finishSlot_withSeq, ← runSlots_withSeq]
  rfl

theorem settle_rxq (s : State) (l : List Bool) :
    { s with rxq := l ++ s.rxq }.settle = { s.settle with rxq := l ++ s.settle.rxq } := by
  simp only [State.settle, finishSlot_rxq]
  exact runSlots_rxq { s.finishSlot with txq := [] } s.txq l

/-! ## The engine at rest -/

theorem nextPoint_engine (s : State) :
    s.nextPoint.nextPoint.nextPoint.engine = .idle ∨ s.nextPoint.nextPoint.nextPoint.engine = .stopped := by
  rcases h : s.engine with _ | _ | ⟨k, _ | _ | v⟩
  · right; simp [nextPoint_stopped h, h]
  · left; simp [nextPoint_idle h, h]
  all_goals
    left
    cases hk : slotSamples k <;> simp [State.nextPoint, h, hk, State.endSlot, State.samplePoint]

theorem finishSlot_engine (s : State) : s.finishSlot.engine = .idle ∨ s.finishSlot.engine = .stopped :=
  nextPoint_engine s

theorem runSlot_engine (s : State) (k : Slot) : (s.runSlot k).engine = .idle := by
  cases h : slotSamples k
  · simp [runSlot_write _ h]
  · simp [runSlot_sample _ h]

theorem runSlot_txq (s : State) (k : Slot) : (s.runSlot k).txq = s.txq := by
  cases h : slotSamples k
  · simp [runSlot_write _ h]
  · simp [runSlot_sample _ h]

theorem runSlots_rest (s : State) (ks : List Slot) (h : s.engine = .idle ∨ s.engine = .stopped) :
    (s.runSlots ks).engine = .idle ∨ (s.runSlots ks).engine = .stopped := by
  induction ks generalizing s with
  | nil => exact h
  | cons k ks ih => exact ih _ (.inl (runSlot_engine s k))

theorem runSlots_txq (s : State) (ks : List Slot) : (s.runSlots ks).txq = s.txq := by
  induction ks generalizing s with
  | nil => rfl
  | cons k ks ih => simp only [State.runSlots, ih, runSlot_txq]

@[simp] theorem settle_txq (s : State) : s.settle.txq = [] := by
  simp [State.settle, runSlots_txq]

theorem settle_engine (s : State) : s.settle.engine = .idle ∨ s.settle.engine = .stopped :=
  runSlots_rest _ _ (finishSlot_engine s)

@[simp] theorem settle_settle (s : State) : s.settle.settle = s.settle :=
  settle_rest (settle_engine s) (settle_txq s)

/-- Queued words run as whole slots on an engine at rest with nothing queued. -/
theorem settle_queue_rest {s : State} (h : s.engine = .idle ∨ s.engine = .stopped) (ht : s.txq = [])
    (ws : List Slot) : (s.queue ws).settle = s.runSlots ws := by
  have hf : (s.queue ws).finishSlot = s.queue ws := by
    rcases h with h | h
    · exact finishSlot_idle (by simpa using h)
    · exact finishSlot_stopped (by simpa using h)
  simp only [State.settle, hf, queue_txq, ht, List.nil_append]
  congr 1
  simp only [State.queue]
  rw [← ht]

/-- It makes no difference whether earlier words have run when more are queued (R414). -/
theorem settle_queue_settle (s : State) (ws : List Slot) : (s.settle.queue ws).settle = (s.queue ws).settle := by
  rw [settle_queue_rest (settle_engine s) (settle_txq s)]
  have hq : (s.queue ws).finishSlot = { s.finishSlot with txq := s.txq ++ ws } := finishSlot_txq s _
  simp only [State.settle, hq, queue_txq, runSlots_append]

/-- What settling a queue of further words is. -/
theorem settle_queue (s : State) (ws : List Slot) : (s.queue ws).settle = s.settle.runSlots ws := by
  rw [← settle_queue_settle, settle_queue_rest (settle_engine s) (settle_txq s)]

/-! ## One slot of a command -/

/-- `Slot(k)` may find earlier words still queued: they run first (R412, R414). -/
theorem slot_settle (s : State) (k : Slot) : s.settle.slot k = s.slot k := by
  simp only [State.slot, settle_queue_settle]

/-- `Slot(k)` for RST and RD with the engine IDLE and both queues empty: the sample, its event, the line released;
nothing else of OWM changes (R421, R426). -/
theorem slot_sample {s : State} {k : Slot} (he : s.engine = .idle) (ht : s.txq = []) (hr : s.rxq = [])
    (hk : slotSamples k = true) :
    s.slot k =
      ((s.drawLevel k).1,
        { s with
          line := .rel
          hist := s.hist ++ [slotEvent k (s.drawLevel k).1]
          bus := s.busAfter k
          draws := (s.drawLevel k).2.draws }) := by
  simp only [State.slot, settle_queue_idle he ht, State.runSlots, runSlot_sample s hk, State.popSample, hr,
    List.nil_append]
  rw [← he, ← hr]

/-- The sample of `Slot(k)` for RST and RD is the oldest in `s.rxq`, one more having been pushed. -/
theorem slot_eq (s : State) (k : Slot) : s.slot k = (s.settle.runSlot k).popSample := by
  rw [State.slot, settle_queue]
  rfl

end Sys2Proof.Machine
end

