-- ==== Sys2Proof/Laws/Ready.lean ====
section
/-! SUPPORT. What the shared operations of the commands do from a state that is ready for a bus command
(R713, R842). -/

namespace Sys2Proof.Machine

/-! ## Checks -/

/-- The checks of a bus command find nothing (R713). -/
theorem busFault_none {s : State} (h : s.handle ≠ none) (hl : s.line ≠ .pwr) (w : Word) : s.busFault w = none := by
  have hn : s.handle.isNone = false := by cases hh : s.handle <;> simp_all
  simp [State.busFault, hn, hl]

/-- The check of a command that only needs a handle finds nothing (R713). -/
theorem unclaimedFault_none {s : State} (h : s.handle ≠ none) (w : Word) : s.unclaimedFault w = none := by
  have hn : s.handle.isNone = false := by cases hh : s.handle <;> simp_all
  simp [State.unclaimedFault, hn]

theorem busFault_ready {s : State} (h : s.Ready) (w : Word) : s.busFault w = none :=
  busFault_none h.1.1 (by simp [h.2]) w

/-! ## One sample, queued writes, completion -/

/-- `Slot(k)` for RST and RD: the sample, its event; nothing else of OWM changes (R421, R426). -/
theorem slot_ready {s : State} {k : Slot} (h : s.Ready) (hk : slotSamples k = true) :
    s.slot k =
      ((s.drawLevel k).1,
        { s with
          hist := s.hist ++ [slotEvent k (s.drawLevel k).1]
          bus := s.busAfter k
          draws := (s.drawLevel k).2.draws }) := by
  obtain ⟨⟨_, he, _, ht, hr⟩, hl⟩ := h
  rw [slot_sample he ht hr hk, ← hl]

theorem ready_slot {s : State} {k : Slot} (h : s.Ready) (hk : slotSamples k = true) : (s.slot k).2.Ready := by
  rw [slot_ready h hk]
  exact h

/-- With nothing in flight, completing changes RESULT only (R112). -/
theorem finishWith_ready {s : State} (h : s.Ready) (r : ResultReg) : s.finishWith r = { s with result := r } := by
  obtain ⟨⟨_, he, hs, ht, _⟩, _⟩ := h
  simp [State.finishWith, settle_rest (.inl he) ht, State.complete, hs]

/-- Queued write slots leave their events; nothing else of OWM changes (R422, R423). -/
theorem settle_writes {s : State} (h : s.Ready) (bits : List Bool) :
    (s.queue (bits.map writeSlot)).settle =
      { s with
        hist := s.hist ++ bits.map (BusEvent.write · false)
        bus := (bits.map (BusEvent.write · false)).foldl Bus.observe s.bus } := by
  obtain ⟨⟨_, he, _, ht, _⟩, hl⟩ := h
  rw [settle_queue_idle he ht]
  by_cases hb : bits = []
  · subst hb
    simp [State.runSlots]
  rw [runSlots_writes _ _ hb, List.foldl_map, ← he, ← hl]

/-- Queued write slots run before the completion: their events are appended, RESULT is written, nothing else of OWM
changes (R422, R423, R112). -/
theorem finishWith_writes {s : State} (h : s.Ready) (bits : List Bool) (r : ResultReg) :
    (s.queue (bits.map writeSlot)).finishWith r =
      { s with
        result := r
        hist := s.hist ++ bits.map (BusEvent.write · false)
        bus := (bits.map (BusEvent.write · false)).foldl Bus.observe s.bus } := by
  rw [State.finishWith, settle_writes h, State.complete, ← h.1.2.2.1]

end Sys2Proof.Machine
end

