-- ==== Sys2Proof/Laws/Search.lean ====
section
/-! SUPPORT. A search pass as a fold over the sample pairs it takes (R604, R609–R614). -/

namespace Sys2Proof.Machine

/-! ## The fold -/

/-- One search bit: the register file and the local variables after the pair x (R610–R613). -/
def bitFold (q : SearchReg × Scan) (x : Bool × Bool) : SearchReg × Scan :=
  (q.1.store q.2.p (direction x.1 x.2 (preferred q.1 q.2.p)),
    q.2.after x.1 x.2 (direction x.1 x.2 (preferred q.1 q.2.p)))

/-- The register file and the local variables after these pairs. -/
def passFold (q : SearchReg × Scan) (pairs : List (Bool × Bool)) : SearchReg × Scan := pairs.foldl bitFold q

/-- The events of these pairs (R610). -/
def foldEvents (q : SearchReg × Scan) : List (Bool × Bool) → List BusEvent
  | [] => []
  | x :: rest =>
    [.read x.1, .read x.2, .write (direction x.1 x.2 (preferred q.1 q.2.p)) false] ++ foldEvents (bitFold q x) rest

/-! ## A pass from the state -/

/-- Queued work apart, the state is ready: what is in flight ends with the engine IDLE, the line released and no
sample left over. -/
abbrev State.Flowing (s : State) : Prop := s.settle.Ready

theorem Flowing.of_ready {s : State} (h : s.Ready) : s.Flowing := by
  have : s.settle = s := settle_rest (.inl h.1.2.1) h.1.2.2.2.1
  rw [State.Flowing, this]
  exact h

/-- What settling a queued write of a ready state gives. -/
theorem settle_write {s : State} (h : s.Ready) (b : Bool) :
    (s.queue [writeSlot b]).settle =
      { s with hist := s.hist ++ [.write b false], bus := s.bus.observe (.write b false) } := by
  exact settle_writes h [b]

/-- Settling does not look at the search state. -/
theorem settle_srch (s : State) (r : SearchReg) : { s with srch := r }.settle = { s.settle with srch := r } := by
  have h := settle_withSeq s s.result r s.seq
  have e1 : s.withSeq s.result r s.seq = { s with srch := r } := rfl
  have e2 : s.settle.withSeq s.result r s.seq = { s.settle with srch := r } := by
    have k := settle_withSeq s s.result s.srch s.seq
    have : s.withSeq s.result s.srch s.seq = s := rfl
    rw [this] at k
    rw [k]
    rfl
  rw [← e1, h, e2]

/-- Settling keeps the sequencer's own registers. -/
theorem settle_keeps (s : State) : s.settle.result = s.result ∧ s.settle.srch = s.srch ∧ s.settle.seq = s.seq := by
  have k := settle_withSeq s s.result s.srch s.seq
  have : s.withSeq s.result s.srch s.seq = s := rfl
  rw [this] at k
  refine ⟨?_, ?_, ?_⟩ <;> rw [k] <;> rfl

theorem popSample_srch (s : State) (r : SearchReg) :
    ({ s with srch := r } : State).popSample = (s.popSample.1, { s.popSample.2 with srch := r }) := by
  obtain ⟨_, _, _, _, _, _, _, rxq, _, _, _, _, _, _, _, _, _, _⟩ := s
  cases rxq <;> rfl

/-- `Slot(k)` does not look at the search state. -/
theorem slot_srch (s : State) (r : SearchReg) (k : Slot) :
    ({ s with srch := r } : State).slot k = ((s.slot k).1, { (s.slot k).2 with srch := r }) := by
  have e : ({ s with srch := r } : State).queue [k] = { s.queue [k] with srch := r } := rfl
  simp only [State.slot, e, settle_srch, popSample_srch]

/-- Completing does not look at the search state. -/
theorem finishWith_srch_set (s : State) (r : SearchReg) (x : ResultReg) :
    ({ s with srch := r } : State).finishWith x = { s.finishWith x with srch := r } := by
  simp only [State.finishWith, settle_srch, State.complete]

/-- A pass from LDF = 0 starts with its RST slot (R607). -/
theorem searchPass_slot {s : State} (h : s.srch.ldf = false) (c : Byte) :
    searchPass c s = searchPresence c (s.zeroCrc.slot .rst).1 (s.zeroCrc.slot .rst).2 := by
  simp [searchPass, h]

/-- A search bit once both samples are there, written out (R610–R612). -/
theorem scanWrite_eq (rest : Scan → State → State) (sc : Scan) (id cmp : Bool) (s : State) :
    scanWrite rest sc id cmp s =
      let dir := direction id cmp (preferred s.srch sc.p)
      let t := s.queue [writeSlot dir]
      if id && cmp then t.discardRom.finishWith (ResultReg.flagged .noResponse false)
      else rest (sc.after id cmp dir) { t with srch := t.srch.store sc.p dir } := rfl

/-- After a presence the command byte is queued and the 64 bits follow (R608). -/
theorem searchPresence_present (c : Byte) (s : State) :
    searchPresence c false s = scanBits 64 Scan.start (s.queue (byteSlots c)) := by
  simp [searchPresence]

/-- A sample of a scripted bus is the next draw (R431). -/
theorem draw_scripted {s : State} {v : Bool} {rest : List Bool} (h : s.bus = .draws (v :: rest)) (k : Slot) :
    (s.drawLevel k).1 = v ∧ s.busAfter k = .draws rest ∧ (s.drawLevel k).2.draws = s.draws := by
  simp [State.busAfter, State.drawLevel, h, Bus.observe]

/-- One bit of a pass: two samples, then the write is queued and the bit recorded, or the pass ends with no response
(R610–R613, R617). Scripted draws are taken in order. -/
theorem scanBits_bit (k : Nat) (sc : Scan) {s : State} (h : s.Flowing) :
    ∃ (id cmp : Bool) (b : Bus) (d : Nat),
      (∀ i c rest, s.settle.bus = .draws (i :: c :: rest) →
        id = i ∧ cmp = c ∧ b = .draws rest ∧ d = s.settle.draws) ∧
      (let q := bitFold (s.srch, sc) (id, cmp)
        let t : State := { s.settle with
          hist := s.settle.hist ++ foldEvents (s.srch, sc) [(id, cmp)], bus := b, draws := d }
        if id && cmp then
          scanBits (k + 1) sc s = { t.discardRom with result := ResultReg.flagged .noResponse false }
        else
          ∃ u : State, u.settle = { t with srch := q.1 } ∧ u.srch = q.1 ∧ scanBits (k + 1) sc s =
      scanBits k q.2 u) := by
  have e0 : s.slot .rd = s.settle.slot .rd := (slot_settle s .rd).symm
  have r1 : (s.slot .rd).2.Ready := by rw [e0]; exact ready_slot h rfl
  have r2 : ((s.slot .rd).2.slot .rd).2.Ready := ready_slot r1 rfl
  have e1 := slot_ready (k := .rd) h rfl
  rw [← e0] at e1
  have e2 := slot_ready (k := .rd) r1 rfl
  generalize hid : (s.slot .rd).1 = id at *
  generalize hcmp : ((s.slot .rd).2.slot .rd).1 = cmp at *
  have hid' : (s.settle.drawLevel .rd).1 = id := by rw [← hid, e1]
  have hcmp' : ((s.slot .rd).2.drawLevel .rd).1 = cmp := by rw [← hcmp, e2]
  have v2 : ∃ b d, (∀ i c rest, s.settle.bus = .draws (i :: c :: rest) →
        id = i ∧ cmp = c ∧ b = .draws rest ∧ d = s.settle.draws) ∧ ((s.slot .rd).2.slot .rd).2 =
      { s.settle with hist := s.settle.hist ++ [.read id, .read cmp], bus := b, draws := d } := by
    refine ⟨((s.slot .rd).2.slot .rd).2.bus, ((s.slot .rd).2.slot .rd).2.draws, ?_, ?_⟩
    · intro i c rest hb
      obtain ⟨a1, a2, a3⟩ := draw_scripted hb .rd
      have hb' : (s.slot .rd).2.bus = .draws (c :: rest) := by rw [e1]; exact a2
      obtain ⟨b1, b2, b3⟩ := draw_scripted hb' .rd
      refine ⟨hid'.symm.trans a1, hcmp'.symm.trans b1, by rw [e2]; exact b2, ?_⟩
      rw [e2]
      simp only
      rw [b3, e1]
      exact a3
    rw [e2, hcmp', e1, hid']
    simp [slotEvent]
  obtain ⟨b2, d2, vd, v2⟩ := v2
  obtain ⟨-, ksrch, -⟩ := settle_keeps s
  have hsr : ((s.slot .rd).2.slot .rd).2.srch = s.srch := by rw [v2, ← ksrch]
  have hs : scanBits (k + 1) sc s =
      scanWrite (scanBits k) sc id cmp ((s.slot .rd).2.slot .rd).2 := by
    rw [scanBits, scanCmp, hid, hcmp]
  generalize ((s.slot .rd).2.slot .rd).2 = w at *
  generalize hdir : direction id cmp (preferred s.srch sc.p) = dir
  refine ⟨id, cmp, b2.observe (.write dir false), d2, ?_, ?_⟩
  · intro i c rest hb
    obtain ⟨a1, a2, a3, a4⟩ := vd i c rest hb
    exact ⟨a1, a2, by rw [a3]; rfl, a4⟩
  have st := settle_write r2 dir
  split
  · rename_i hn
    rw [hs, scanWrite_eq]
    simp only [hn, if_true, hsr, hdir]
    simp only [State.finishWith, State.discardRom]
    rw [settle_srch, st, v2]
    simp only [State.complete, foldEvents, hdir, queue_srch, List.append_nil, List.append_assoc, List.cons_append,
      List.nil_append]
    have : s.settle.seq = none := h.1.2.2.1
    rw [this]
  · rename_i hn
    refine ⟨{ w.queue [writeSlot dir] with srch := s.srch.store sc.p dir }, ?_, ?_, ?_⟩
    · rw [settle_srch, st, v2]
      simp [foldEvents, hdir, bitFold]
    · simp [bitFold, hdir]
    · rw [hs, scanWrite_eq]
      simp only [hn, hsr, hdir, bitFold, queue_srch]
      rfl

/-- A pass from k bits before its end: it takes k pairs and ends, or stops at its first (1, 1) pair (R604, R617).
Scripted draws are taken in order. -/
theorem scanBits_pass (k : Nat) : ∀ (sc : Scan) {s : State}, s.Flowing →
    ∃ (pairs : List (Bool × Bool)) (b : Bus) (d : Nat),
      (∀ (drawn : List (Bool × Bool)) (rest : List Bool), drawn.length = k →
        s.settle.bus = .draws (pairDraws drawn ++ rest) →
        pairs = drawn.take pairs.length ∧ b = .draws (pairDraws (drawn.drop pairs.length) ++ rest) ∧
          d = s.settle.draws) ∧
      (let q := passFold (s.srch, sc) pairs
        let t : State := { s.settle with
          hist := s.settle.hist ++ foldEvents (s.srch, sc) pairs, bus := b, draws := d }
        (pairs.length = k ∧ (∀ x ∈ pairs, x ≠ (true, true)) ∧
          ∃ u : State, u.settle = { t with srch := q.1 } ∧ u.srch = q.1 ∧ scanBits k sc s = scanEnd q.2 u) ∨
        (∃ front, pairs = front ++ [(true, true)] ∧ front.length < k ∧ (∀ x ∈ front, x ≠ (true, true)) ∧
          scanBits k sc s =
            { t with
              result := ResultReg.flagged .noResponse false
              srch := { (passFold (s.srch, sc) front).1 with ld := 0#7, lfd := 0#4, ldf := false, rom :=
                  0#64 } })) := by
  induction k with
  | zero =>
    intro sc s h
    refine ⟨[], s.settle.bus, s.settle.draws, fun drawn rest _ hb => ⟨by simp, by simpa using hb, rfl⟩,
      .inl ⟨rfl, by simp, s, ?_, rfl, rfl⟩⟩
    obtain ⟨-, ks, -⟩ := settle_keeps s
    simp only [foldEvents, passFold, List.append_nil, List.foldl_nil, ← ks]
  | succ k ih =>
    intro sc s h
    obtain ⟨id, cmp, b, d, hd, hb⟩ := scanBits_bit k sc h
    have cut : ∀ (drawn : List (Bool × Bool)) (rest : List Bool), drawn.length = k + 1 →
        s.settle.bus = .draws (pairDraws drawn ++ rest) →
        ∃ tail, drawn = (id, cmp) :: tail ∧ b = .draws (pairDraws tail ++ rest) ∧ d = s.settle.draws := by
      intro drawn rest hl hbus
      rcases drawn with _ | ⟨⟨i, c⟩, tail⟩
      · simp at hl
      obtain ⟨rfl, rfl, h3, h4⟩ := hd i c (pairDraws tail ++ rest) (by rw [hbus]; rfl)
      exact ⟨tail, rfl, h3, h4⟩
    by_cases hn : (id && cmp) = true
    · obtain ⟨rfl, rfl⟩ : id = true ∧ cmp = true := by simpa using hn
      refine ⟨[(true, true)], b, d, ?_, .inr ⟨[], rfl, by simp, by simp, ?_⟩⟩
      · intro drawn rest hl hbus
        obtain ⟨tail, rfl, h3, h4⟩ := cut drawn rest hl hbus
        exact ⟨by simp, by simpa using h3, h4⟩
      simp only [Bool.and_self, if_true] at hb
      rw [hb]
      obtain ⟨-, ks, -⟩ := settle_keeps s
      simp [State.discardRom, passFold, ← ks]
    · have hx : (id, cmp) ≠ (true, true) := by simpa using hn
      simp only [hn] at hb
      obtain ⟨u, hu, husrch, he⟩ := hb
      have hf : u.Flowing := by
        rw [State.Flowing, hu]
        exact h
      obtain ⟨pairs, b', d', hs, hp⟩ := ih (bitFold (s.srch, sc) (id, cmp)).2 hf
      rw [hu] at hs
      rw [husrch, hu] at hp
      refine ⟨(id, cmp) :: pairs, b', d', ?_, ?_⟩
      · intro drawn rest hl hbus
        obtain ⟨tail, rfl, h3, h4⟩ := cut drawn rest hl hbus
        obtain ⟨g1, g2, g3⟩ := hs tail rest (by simpa using hl) h3
        refine ⟨?_, by simpa using g2, by rw [g3]; exact h4⟩
        rw [List.length_cons, List.take_succ_cons, ← g1]
      rcases hp with ⟨h1, h2, w, hw1, hw2, hw3⟩ | ⟨front, h1, h2, h3, h4⟩
      · refine .inl ⟨by simp [h1], by simpa [hx] using h2, w, ?_, hw2, ?_⟩
        · rw [hw1]
          simp [foldEvents, passFold]
        · rw [he, hw3]
          rfl
      · refine .inr ⟨(id, cmp) :: front, by simp [h1], by simpa using h2, by simpa [hx] using h3, ?_⟩
        rw [he, h4]
        simp [foldEvents, passFold]

/-! ## What the fold computes -/

/-- Bits of a code with bit p written. -/
theorem getLsbD_withBit {n : Nat} (x : BitVec n) (p : Nat) (b : Bool) (q : Nat) :
    (withBit x p b).getLsbD q = if q = p ∧ q < n then b else x.getLsbD q := by
  unfold withBit
  by_cases hq : q < n
  · by_cases h : q = p
    · subst h
      cases b <;> simp [hq]
    · have h' : ¬ p = q := fun e => h e.symm
      cases b
      · simp [hq, h]
      · simp [BitVec.getLsbD_twoPow, h, h']
  · have : x.getLsbD q = false := BitVec.getLsbD_of_ge _ _ (by omega)
    have h' : p < n → ¬ p = q := fun h1 h2 => hq (h2 ▸ h1)
    cases b <;> simp [hq, this]
    exact h'

/-- After at most 64 pairs of a pass from r with crc8 = 0: the position, LD as before, the bits not yet reached as
before, the directions stored, the CRC of the complete bytes, and the last deferred branches (R609–R613). -/
structure PassAt (r : SearchReg) (pairs : List (Bool × Bool)) (q : SearchReg × Scan) : Prop where
  pos : q.2.p = pairs.length
  ld : q.1.ld = r.ld
  ahead : ∀ p, pairs.length ≤ p → q.1.rom.getLsbD p = r.rom.getLsbD p
  stored : gathered r pairs pairs.length q.1.rom
  crc : q.1.crc8 = crc8Buffer ((romBytes q.1.rom).take (pairs.length / 8))
  zero : lastDeferred r pairs pairs.length q.2.lastZero
  fam : lastDeferred r pairs (min 8 pairs.length) q.2.lastFam

/-- Deferred branches of the pairs so far do not change when more pairs come. -/
theorem deferred_append (r : SearchReg) (a b : List (Bool × Bool)) {n : Nat} (h : n ≤ a.length) :
    deferred r (a ++ b) n ↔ deferred r a n := by
  unfold deferred
  constructor <;> rintro ⟨h1, h2, h3⟩ <;> refine ⟨h1, ?_, h3⟩
  · rwa [List.getElem?_append_left (by omega)] at h2
  · rwa [List.getElem?_append_left (by omega)]

/-- The byte k of a code is its bits 8k .. 8k + 7. -/
theorem romByte_congr {a b : RomCode} {k : Nat} (h : ∀ p, p < 8 * k + 8 → a.getLsbD p = b.getLsbD p) :
    romByte a k = romByte b k := by
  refine BitVec.eq_of_getLsbD_eq fun i hi => ?_
  simp only [romByte, BitVec.getLsbD_extractLsb', hi, decide_true, Bool.true_and]
  exact h _ (by omega)

theorem romBytes_map (r : RomCode) : romBytes r = (List.range 8).map (romByte r) := rfl

theorem romBytes_take_congr {a b : RomCode} {n : Nat} (h : ∀ p, p < 8 * n → a.getLsbD p = b.getLsbD p) :
    (romBytes a).take n = (romBytes b).take n := by
  rw [romBytes_map, romBytes_map, ← List.map_take, ← List.map_take]
  refine List.map_congr_left fun k hk => ?_
  have hk : k < n := by
    have := List.mem_take_iff_getElem.mp hk
    obtain ⟨i, hi, rfl⟩ := this
    simp at hi ⊢
    omega
  exact romByte_congr fun p hp => h p (by omega)

theorem passAt_nil (r : SearchReg) (h : r.crc8 = 0#8) : PassAt r [] (r, Scan.start) where
  pos := rfl
  ld := rfl
  ahead _ _ := rfl
  stored := by intro p x hp; simp at hp
  crc := h
  zero := ⟨Nat.zero_le _, .inl rfl, by intro m h1 h2; simp at h2; omega⟩
  fam := ⟨Nat.zero_le _, .inl rfl, by intro m h1 h2; simp at h2; omega⟩

/-- One more pair (R609–R613). -/
theorem passAt_snoc {r : SearchReg} {pairs : List (Bool × Bool)} {q : SearchReg × Scan} (h : PassAt r pairs q)
    (hl : pairs.length < 64) (x : Bool × Bool) : PassAt r (pairs ++ [x]) (bitFold q x) := by
  obtain ⟨hpos, hld, hahead, hstored, hcrc, hzero, hfam⟩ := h
  generalize hn : pairs.length = n at *
  have hpref : preferred q.1 q.2.p = preferred r n := by
    unfold preferred
    rw [hpos, hld, hahead n (Nat.le_refl n)]
  have hdir : direction x.1 x.2 (preferred q.1 q.2.p) = passDir r n x := by rw [hpref]; rfl
  have hlen : (pairs ++ [x]).length = n + 1 := by simp [hn]
  have hrom : (bitFold q x).1.rom = withBit q.1.rom n (passDir r n x) := by
    simp only [bitFold, SearchReg.store, hdir]
    rw [hpos]
  have hbit : ∀ p, (bitFold q x).1.rom.getLsbD p = if p = n then passDir r n x else q.1.rom.getLsbD p := by
    intro p
    rw [hrom, getLsbD_withBit]
    by_cases hp : p = n
    · subst hp; simp [hl]
    · simp [hp]
  have hlast : (pairs ++ [x])[n]? = some x := by simp [← hn]
  have hsc : (bitFold q x).2 = q.2.after x.1 x.2 (passDir r n x) := by simp only [bitFold, hdir]
  have hd : deferred r (pairs ++ [x]) (n + 1) ↔ (!x.1 && !x.2 && !passDir r n x) = true := by
    unfold deferred
    simp only [Nat.add_sub_cancel, hlast, Option.some.injEq]
    obtain ⟨a, b⟩ := x
    constructor
    · rintro ⟨-, he, hf⟩
      cases he
      simp [hf]
    · intro hh
      simp only [Bool.and_eq_true, Bool.not_eq_true'] at hh
      obtain ⟨⟨rfl, rfl⟩, h3⟩ := hh
      exact ⟨by omega, rfl, h3⟩
  have hold : ∀ m, m ≤ n → (deferred r (pairs ++ [x]) m ↔ deferred r pairs m) :=
    fun m hm => deferred_append r pairs [x] (by omega)
  refine ⟨?_, ?_, ?_, ?_, ?_, ?_, ?_⟩
  · rw [hsc, hlen]
    simp [Scan.after, hpos]
  · simpa [bitFold, SearchReg.store] using hld
  · intro p hp
    rw [hlen] at hp
    rw [hbit, if_neg (by omega), hahead p (by omega)]
  · intro p y hp hy
    rw [hlen] at hp
    rw [hbit]
    by_cases hpn : p = n
    · subst hpn
      rw [hlast] at hy
      cases hy
      simp
    · rw [if_neg hpn]
      rw [List.getElem?_append_left (by omega)] at hy
      exact hstored p y (by omega) hy
  · have hcong : ∀ k, 8 * k ≤ n →
        (romBytes (bitFold q x).1.rom).take k = (romBytes q.1.rom).take k := by
      intro k hk
      refine romBytes_take_congr fun p hp => ?_
      rw [hbit, if_neg (by omega)]
    have hc8 : (bitFold q x).1.crc8 =
        if n % 8 = 7 then crc8Step q.1.crc8 (romByte (bitFold q x).1.rom (n / 8)) else q.1.crc8 := by
      rw [hrom]
      simp only [bitFold, SearchReg.store, hdir]
      rw [hpos]
    rw [hlen, hc8]
    by_cases h7 : n % 8 = 7
    · rw [if_pos h7, hcrc, ← hcong (n / 8) (by omega)]
      have e : (n + 1) / 8 = n / 8 + 1 := by omega
      have hk : n / 8 < 8 := by omega
      rw [e, romBytes_map, ← List.map_take, ← List.map_take, List.take_range, List.take_range]
      rw [Nat.min_eq_left (by omega), Nat.min_eq_left (by omega), List.range_succ, List.map_append]
      simp [crc8Buffer, crc8Fold]
    · rw [if_neg h7, hcrc]
      have e : (n + 1) / 8 = n / 8 := by omega
      rw [e, hcong (n / 8) (by omega)]
  · rw [hlen, hsc]
    obtain ⟨z1, z2, z3⟩ := hzero
    by_cases hh : (!x.1 && !x.2 && !passDir r n x) = true
    · have e : (q.2.after x.1 x.2 (passDir r n x)).lastZero = n + 1 := by simp [Scan.after, hh, hpos]
      rw [e]
      exact ⟨Nat.le_refl _, .inr (hd.mpr hh), by intro m h1 h2; omega⟩
    · have e : (q.2.after x.1 x.2 (passDir r n x)).lastZero = q.2.lastZero := by simp [Scan.after, hh]
      rw [e]
      refine ⟨by omega, ?_, ?_⟩
      · rcases z2 with z2 | z2
        · exact .inl z2
        · exact .inr ((hold _ z1).mpr z2)
      · intro m h1 h2 h3
        by_cases hm : m = n + 1
        · subst hm
          exact hh (hd.mp h3)
        · exact z3 m h1 (by omega) ((hold m (by omega)).mp h3)
  · rw [hlen, hsc]
    obtain ⟨z1, z2, z3⟩ := hfam
    by_cases hh : (!x.1 && !x.2 && !passDir r n x) = true ∧ n + 1 ≤ 8
    · have e : (q.2.after x.1 x.2 (passDir r n x)).lastFam = n + 1 := by
        simp only [Scan.after, hh, hpos]
        simp
      rw [e]
      exact ⟨by omega, .inr (hd.mpr hh.1), by intro m h1 h2; omega⟩
    · have e : (q.2.after x.1 x.2 (passDir r n x)).lastFam = q.2.lastFam := by
        simp only [Scan.after, hpos]
        rw [if_neg]
        simpa using hh
      rw [e]
      refine ⟨by omega, ?_, ?_⟩
      · rcases z2 with z2 | z2
        · exact .inl z2
        · exact .inr ((hold _ (by omega)).mpr z2)
      · intro m h1 h2 h3
        by_cases hm : m = n + 1
        · subst hm
          exact hh ⟨hd.mp h3, by omega⟩
        · exact z3 m h1 (by omega) ((hold m (by omega)).mp h3)

/-- The state of a pass from r after at most 64 pairs. -/
theorem passAt_fold (r : SearchReg) (h : r.crc8 = 0#8) (pairs : List (Bool × Bool)) (hl : pairs.length ≤ 64) :
    PassAt r pairs (passFold (r, Scan.start) pairs) := by
  induction pairs using List.reverseRecOn with
  | nil => exact passAt_nil r h
  | append_singleton pairs x ih =>
    have hl' : pairs.length < 64 := by simp at hl; omega
    have := passAt_snoc (ih (by omega)) hl' x
    simpa [passFold] using this

/-- The events of a pass as a list over its bit positions (R610). -/
theorem foldEvents_eq (r : SearchReg) (h : r.crc8 = 0#8) (pairs : List (Bool × Bool)) (hl : pairs.length ≤ 64) :
    foldEvents (r, Scan.start) pairs = passEvents r pairs := by
  have app : ∀ (a b : List (Bool × Bool)) (q : SearchReg × Scan),
      foldEvents q (a ++ b) = foldEvents q a ++ foldEvents (passFold q a) b := by
    intro a b
    induction a with
    | nil => intro q; rfl
    | cons x a ih => intro q; simp [foldEvents, ih, passFold]
  induction pairs using List.reverseRecOn with
  | nil => rfl
  | append_singleton pairs x ih =>
    have hl' : pairs.length < 64 := by simp at hl; omega
    obtain ⟨hpos, hld, hahead, -, -, -, -⟩ := passAt_fold r h pairs (by omega)
    have hpref : preferred (passFold (r, Scan.start) pairs).1 (passFold (r, Scan.start) pairs).2.p =
        preferred r pairs.length := by
      unfold preferred
      rw [hpos, hld, hahead _ (Nat.le_refl _)]
    rw [app, ih (by omega)]
    simp [foldEvents, passEvents, List.zipIdx_append, passDir, hpref]

end Sys2Proof.Machine
end

