-- ==== Sys2Proof/Laws/Frame.lean ====
section
/-! SUPPORT. What no slot changes, and what each command's steps leave as it was (R109, R114, R115, R119). -/

namespace Sys2Proof.Machine

/-! ## Slots -/

/-- t comes from s by slots alone: no register, no handle and nothing outside OWM but the line's environment has
changed, and events were only appended. -/
structure FromSlots (s t : State) : Prop where
  result : t.result = s.result
  cfg : t.cfg = s.cfg
  srch : t.srch = s.srch
  selrom : t.selrom = s.selrom
  handle : t.handle = s.handle
  pullOff : t.pullOff = s.pullOff
  seq : t.seq = s.seq
  params : t.params = s.params
  pool : t.pool = s.pool
  input : t.input = s.input
  readData : t.readData = s.readData
  hist : s.hist <+: t.hist

theorem FromSlots.refl (s : State) : FromSlots s s :=
  ⟨rfl, rfl, rfl, rfl, rfl, rfl, rfl, rfl, rfl, rfl, rfl, List.prefix_refl _⟩

theorem FromSlots.trans {s t u : State} (a : FromSlots s t) (b : FromSlots t u) : FromSlots s u :=
  ⟨b.1.trans a.1, b.2.trans a.2, b.3.trans a.3, b.4.trans a.4, b.5.trans a.5, b.6.trans a.6, b.7.trans a.7,
    b.8.trans a.8, b.9.trans a.9, b.10.trans a.10, b.11.trans a.11, a.12.trans b.12⟩

theorem fromSlots_endSlot (s : State) (k : Slot) (v : Bool) : FromSlots s (s.endSlot k v) :=
  ⟨rfl, rfl, rfl, rfl, rfl, rfl, rfl, rfl, rfl, rfl, rfl, List.prefix_append _ _⟩

theorem fromSlots_samplePoint (s : State) (k : Slot) : FromSlots s (s.samplePoint k) := by
  have : (s.sampleLine k).2 =
      { s with bus := (s.sampleLine k).2.bus, draws := (s.sampleLine k).2.draws } := by
    unfold State.sampleLine
    split
    · rfl
    · rfl
    · exact drawLevel_snd s k
  unfold State.samplePoint
  rw [this]
  exact ⟨rfl, rfl, rfl, rfl, rfl, rfl, rfl, rfl, rfl, rfl, rfl, List.prefix_refl _⟩

theorem fromSlots_nextPoint (s : State) : FromSlots s s.nextPoint := by
  unfold State.nextPoint
  split
  · exact .refl s
  · exact .refl s
  · exact ⟨rfl, rfl, rfl, rfl, rfl, rfl, rfl, rfl, rfl, rfl, rfl, List.prefix_refl _⟩
  · split
    · exact fromSlots_samplePoint s _
    · exact fromSlots_endSlot s _ _
  · exact fromSlots_endSlot s _ _

theorem fromSlots_finishSlot (s : State) : FromSlots s s.finishSlot :=
  ((fromSlots_nextPoint s).trans (fromSlots_nextPoint _)).trans (fromSlots_nextPoint _)

theorem fromSlots_takeSlot (s : State) (k : Slot) : FromSlots s (s.takeSlot k) := by
  unfold State.takeSlot
  split
  · exact ⟨rfl, rfl, rfl, rfl, rfl, rfl, rfl, rfl, rfl, rfl, rfl, List.prefix_append _ _⟩
  · exact ⟨rfl, rfl, rfl, rfl, rfl, rfl, rfl, rfl, rfl, rfl, rfl, List.prefix_refl _⟩

theorem fromSlots_runSlot (s : State) (k : Slot) : FromSlots s (s.runSlot k) :=
  (fromSlots_takeSlot s k).trans (fromSlots_finishSlot _)

theorem fromSlots_runSlots (s : State) (ks : List Slot) : FromSlots s (s.runSlots ks) := by
  induction ks generalizing s with
  | nil => exact .refl s
  | cons k ks ih => exact (fromSlots_runSlot s k).trans (ih _)

theorem fromSlots_txq (s : State) (l : List Slot) : FromSlots s { s with txq := l } :=
  ⟨rfl, rfl, rfl, rfl, rfl, rfl, rfl, rfl, rfl, rfl, rfl, List.prefix_refl _⟩

theorem fromSlots_engineTurn (s : State) : FromSlots s s.engineTurn := by
  unfold State.engineTurn
  split
  · exact (fromSlots_txq s _).trans (fromSlots_takeSlot _ _)
  · exact .refl s
  · exact .refl s
  · exact fromSlots_nextPoint s

theorem fromSlots_settle (s : State) : FromSlots s s.settle :=
  ((fromSlots_finishSlot s).trans (fromSlots_txq _ [])).trans (fromSlots_runSlots _ _)

theorem fromSlots_queue (s : State) (ws : List Slot) : FromSlots s (s.queue ws) := fromSlots_txq s _

theorem fromSlots_popSample (s : State) : FromSlots s s.popSample.2 := by
  unfold State.popSample
  split
  · exact ⟨rfl, rfl, rfl, rfl, rfl, rfl, rfl, rfl, rfl, rfl, rfl, List.prefix_refl _⟩
  · exact .refl s

theorem fromSlots_slot (s : State) (k : Slot) : FromSlots s (s.slot k).2 :=
  ((fromSlots_queue s [k]).trans (fromSlots_settle _)).trans (fromSlots_popSample _)

/-! ## Commands -/

/-- t comes from s by a command that writes at most RESULT, the search state and the line. -/
structure FromCommand (s t : State) : Prop where
  cfg : t.cfg = s.cfg
  selrom : t.selrom = s.selrom
  handle : t.handle = s.handle
  pullOff : t.pullOff = s.pullOff
  params : t.params = s.params
  pool : t.pool = s.pool
  input : t.input = s.input
  readData : t.readData = s.readData
  hist : s.hist <+: t.hist

theorem FromSlots.command {s t : State} (h : FromSlots s t) : FromCommand s t :=
  ⟨h.cfg, h.selrom, h.handle, h.pullOff, h.params, h.pool, h.input, h.readData, h.hist⟩

theorem FromCommand.trans {s t u : State} (a : FromCommand s t) (b : FromCommand t u) : FromCommand s u :=
  ⟨b.1.trans a.1, b.2.trans a.2, b.3.trans a.3, b.4.trans a.4, b.5.trans a.5, b.6.trans a.6, b.7.trans a.7,
    b.8.trans a.8, a.9.trans b.9⟩

theorem fromCommand_srch (s : State) (r : SearchReg) : FromCommand s { s with srch := r } :=
  ⟨rfl, rfl, rfl, rfl, rfl, rfl, rfl, rfl, List.prefix_refl _⟩

theorem fromCommand_finishWith (s : State) (r : ResultReg) : FromCommand s (s.finishWith r) :=
  (fromSlots_settle s).command.trans ⟨rfl, rfl, rfl, rfl, rfl, rfl, rfl, rfl, List.prefix_refl _⟩

/-- The completion of a command that did not touch the search state keeps it. -/
theorem finishWith_srch (s : State) (r : ResultReg) : (s.finishWith r).srch = s.srch := (fromSlots_settle s).srch

theorem fromSlots_readBits (n i : Nat) (acc : Byte) (s : State) : FromSlots s (readBits n i acc s).2 := by
  induction n generalizing i acc s with
  | zero => exact .refl s
  | succ n ih => exact (fromSlots_slot s .rd).trans (ih _ _ _)

theorem fromCommand_scanBits (k : Nat) (sc : Scan) (s : State) : FromCommand s (scanBits k sc s) := by
  induction k generalizing sc s with
  | zero =>
    unfold scanBits scanEnd
    have h : FromCommand s (s.verdict sc).2 := by
      unfold State.verdict
      dsimp only
      split
      · exact fromCommand_srch s _
      · split <;> exact fromCommand_srch s _
    exact h.trans (fromCommand_finishWith _ _)
  | succ k ih =>
    unfold scanBits scanCmp; rw [scanWrite_eq]
    dsimp only
    have h := ((fromSlots_slot s .rd).trans (fromSlots_slot _ .rd)).command
    split
    · exact ((h.trans (fromSlots_queue _ _).command).trans (fromCommand_srch _ _)).trans (fromCommand_finishWith _ _)
    · exact ((h.trans (fromSlots_queue _ _).command).trans (fromCommand_srch _ _)).trans (ih _ _)

theorem fromCommand_searchPass (c : Byte) (s : State) : FromCommand s (searchPass c s) := by
  unfold searchPass
  split
  · exact ⟨rfl, rfl, rfl, rfl, rfl, rfl, rfl, rfl, List.prefix_refl _⟩
  · dsimp only
    unfold searchPresence
    have h := (fromCommand_srch s { s.srch with crc8 := 0#8 }).trans (fromSlots_slot s.zeroCrc .rst).command
    split
    · exact (h.trans (fromCommand_srch _ _)).trans (fromCommand_finishWith _ _)
    · exact (h.trans (fromSlots_queue _ _).command).trans (fromCommand_scanBits _ _ _)

end Sys2Proof.Machine
end

