-- ==== Sys2Proof/Laws/Moves.lean ====
section
/-! SUPPORT. What a move of the sequencer or of the engine does to what is left of the command in progress
(R217, R413, R414). -/

namespace Sys2Proof.Machine

/-! ## What is in flight after a move of the engine (R413) -/

theorem nextPoint_finishSlot (s : State) : s.nextPoint.finishSlot = s.finishSlot := by
  have h := nextPoint_engine s
  simp only [State.finishSlot]
  generalize s.nextPoint.nextPoint.nextPoint = t at *
  rcases h with h | h
  · exact nextPoint_idle h
  · exact nextPoint_stopped h

theorem settle_nextPoint (s : State) : s.nextPoint.settle = s.settle := by
  simp only [State.settle, nextPoint_finishSlot, nextPoint_keeps_txq]

theorem settle_engineTurn (s : State) : s.engineTurn.settle = s.settle := by
  unfold State.engineTurn
  split
  · rename_i k rest he ht
    simp only [State.settle]
    have h1 : s.finishSlot = s := finishSlot_idle he
    have h2 : ({ s with txq := rest }.takeSlot k).txq = rest := by
      unfold State.takeSlot; split <;> rfl
    rw [h1, h2, ht]
    have h3 : ({ s with txq := rest }.takeSlot k).finishSlot = ({ s with txq := rest } : State).runSlot k := rfl
    rw [h3]
    have h4 : ∀ l, { ({ s with txq := l } : State).runSlot k with txq := [] } =
        ({ s with txq := [] } : State).runSlot k := by
      intro l
      cases h : slotSamples k
      · simp only [runSlot_write _ h]
      · obtain ⟨d1, d2, d3⟩ := drawLevel_congr (s := { s with txq := l }) (t := { s with txq := [] }) k rfl rfl
        simp only [runSlot_sample _ h, State.busAfter, d1, d2, d3]
    rw [h4]; rfl
  · rfl
  · rfl
  · exact settle_nextPoint s

theorem settle_queue_congr {s t : State} (h : s.settle = t.settle) (ws : List Slot) :
    (s.queue ws).settle = (t.queue ws).settle := by
  rw [settle_queue, settle_queue, h]

/-- What a command in progress comes to depends on what is in flight only through what it settles to. -/
theorem finish_congr {s t : State} (h : s.settle = t.settle) (hq : s.seq = t.seq) (hb : s.seq ≠ none) :
    s.finish = t.finish := by
  unfold State.finish
  rw [← hq]
  split
  · rename_i h; exact absurd h hb
  · rw [settle_queue_congr h]

/-- A command that has only to complete comes to its completion (R112). -/
theorem finish_proceedDone (s : State) (todo : List Slot) (r : ResultReg) :
    (s.proceedDone todo r).finish = (s.queue todo).finishWith r := by
  unfold State.finish
  simp only [State.proceedDone, State.proceed, finishCont]
  rw [show ({ s with seq := some ⟨todo, .done r⟩ } : State).queue todo =
    (s.queue todo).withSeq s.result s.srch (some ⟨todo, .done r⟩) from rfl, settle_withSeq]
  simp only [State.finishWith, State.complete, State.withSeq]
  have k := settle_keeps (s.queue todo)
  rw [show s.srch = (s.queue todo).settle.srch from k.2.1.symm]

/-! ## A command's own steps do not look at the sequencer's position -/

theorem slot_setSeq (s : State) (q : Option Seq) (k : Slot) :
    ({ s with seq := q } : State).slot k = ((s.slot k).1, { (s.slot k).2 with seq := q }) := by
  have e := settle_withSeq (s.queue [k]) s.result s.srch q
  have e1 : (s.queue [k]).withSeq s.result s.srch q = ({ s with seq := q } : State).queue [k] := rfl
  have kk := settle_keeps (s.queue [k])
  have e2 : (s.queue [k]).settle.withSeq s.result s.srch q = { (s.queue [k]).settle with seq := q } := by
    rw [show s.srch = (s.queue [k]).settle.srch from kk.2.1.symm,
      show s.result = (s.queue [k]).settle.result from kk.1.symm]
    rfl
  rw [e1, e2] at e
  simp only [State.slot, e]
  generalize (s.queue [k]).settle = w
  obtain ⟨_, _, _, _, _, _, _, rxq, _, _, _, _, _, _, _, _, _, _⟩ := w
  cases rxq <;> rfl

theorem settle_setSeq (s : State) (q : Option Seq) :
    ({ s with seq := q } : State).settle = { s.settle with seq := q } := by
  have e := settle_withSeq s s.result s.srch q
  have kk := settle_keeps s
  have e1 : s.withSeq s.result s.srch q = ({ s with seq := q } : State) := rfl
  rw [← e1, e]
  have e2 : s.settle.withSeq s.result s.srch q = s.settle.withSeq s.settle.result s.settle.srch q := by
    rw [kk.1, kk.2.1]
  rw [e2]
  rfl

theorem finishWith_setSeq (s : State) (q : Option Seq) (x : ResultReg) :
    ({ s with seq := q } : State).finishWith x = s.finishWith x := by
  simp only [State.finishWith, settle_setSeq, State.complete]

/-- One more bit of READ_BYTE (R513). -/
theorem readFrom_succ (n i : Nat) (acc : Byte) (s : State) :
    readFrom (n + 1) i acc s = readFrom n (i + 1) (withBit acc i (s.slot .rd).1) (s.slot .rd).2 := rfl

theorem readFrom_setSeq (n : Nat) :
    ∀ i acc (s : State) q, readFrom n i acc { s with seq := q } = readFrom n i acc s := by
  induction n with
  | zero => intro i acc s q; simp only [readFrom, readBits, finishWith_setSeq]
  | succ n ih =>
    intro i acc s q
    rw [readFrom_succ, readFrom_succ, slot_setSeq, ih]

theorem queue_setSeq (s : State) (q : Option Seq) (ws : List Slot) :
    ({ s with seq := q } : State).queue ws = { s.queue ws with seq := q } := rfl

theorem tripletWrite_setSeq (pref id cmp : Bool) (s : State) (q : Option Seq) :
    tripletWrite pref id cmp { s with seq := q } = tripletWrite pref id cmp s := by
  simp only [tripletWrite, queue_setSeq, finishWith_setSeq]

theorem tripletCmp_setSeq (pref id : Bool) (s : State) (q : Option Seq) :
    tripletCmp pref id { s with seq := q } = tripletCmp pref id s := by
  simp only [tripletCmp, slot_setSeq, tripletWrite_setSeq]

theorem scanEnd_setSeq (sc : Scan) (s : State) (q : Option Seq) :
    scanEnd sc { s with seq := q } = scanEnd sc s := by
  simp only [scanEnd, State.verdict]
  split <;> [skip; split]
  · exact finishWith_setSeq { s with srch := (State.discardRom { s with srch := s.srch.track sc }).srch } q _
  · exact finishWith_setSeq { s with srch := (State.discardRom { s with srch := s.srch.track sc }).srch } q _
  · exact finishWith_setSeq { s with srch := s.srch.track sc } q _

theorem scanBits_setSeq (k : Nat) :
    ∀ sc (s : State) q, scanBits k sc { s with seq := q } = scanBits k sc s := by
  induction k with
  | zero => intro sc s q; exact scanEnd_setSeq _ _ _
  | succ k ih =>
    intro sc s q
    simp only [scanBits, scanCmp, slot_setSeq]
    generalize ((s.slot .rd).2.slot .rd).2 = w
    generalize (s.slot .rd).1 = a
    generalize ((s.slot .rd).2.slot .rd).1 = b
    simp only [scanWrite_eq]
    split
    · exact finishWith_setSeq (w.queue [writeSlot (direction a b (preferred w.srch sc.p))]).discardRom q _
    · exact ih _ { w.queue _ with srch := _ } q

theorem scanRecord_setSeq (k : Nat) (sc : Scan) (id cmp : Bool) (s : State) (q : Option Seq) :
    scanRecord (scanBits k) sc id cmp { s with seq := q } = scanRecord (scanBits k) sc id cmp s := by
  simp only [scanRecord]
  split
  · exact finishWith_setSeq s.discardRom q _
  · exact scanBits_setSeq k _ (s.storeBit _ _) q

theorem scanWrite_setSeq (k : Nat) (sc : Scan) (id cmp : Bool) (s : State) (q : Option Seq) :
    scanWrite (scanBits k) sc id cmp { s with seq := q } = scanWrite (scanBits k) sc id cmp s :=
  scanRecord_setSeq k sc id cmp (s.queue _) q

theorem searchPresence_setSeq (c : Byte) (v : Bool) (s : State) (q : Option Seq) :
    searchPresence c v { s with seq := q } = searchPresence c v s := by
  cases v
  · rw [searchPresence_present, searchPresence_present]; exact scanBits_setSeq _ _ (s.queue (byteSlots c)) _
  · simp only [searchPresence, if_true]; exact finishWith_setSeq s.resetTracking q _

theorem finishWait_setSeq (w : Wait) (v : Bool) (s : State) (q : Option Seq) :
    finishWait w v { s with seq := q } = finishWait w v s := by
  cases w <;>
    simp only [finishWait, finishWith_setSeq, searchPresence_setSeq, readFrom_setSeq, tripletCmp_setSeq,
      tripletWrite_setSeq, scanWrite_setSeq]
  · simp only [selectPresence, queue_setSeq, finishWith_setSeq]
  · simp only [scanCmp, slot_setSeq, scanWrite_setSeq]

/-! ## What a move of the sequencer comes to -/

theorem popSample_setSeq (s : State) (q : Option Seq) :
    ({ s with seq := q } : State).popSample = (s.popSample.1, { s.popSample.2 with seq := q }) := by
  obtain ⟨_, _, _, _, _, _, _, rxq, _, _, _, _, _, _, _, _, _, _⟩ := s
  cases rxq <;> rfl

/-- A command past its start comes to the same wherever the sequencer stands. -/
theorem finishCont_setSeq (c : Cont) (hc : ∀ i, c ≠ .start i) (s : State) (q : Option Seq) :
    finishCont c { s with seq := q } = finishCont c s := by
  cases c with
  | start i => exact absurd rfl (hc i)
  | sample w => simp only [finishCont, popSample_setSeq, finishWait_setSeq]
  | record sc id cmp => exact scanRecord_setSeq _ sc id cmp s q
  | absent => exact finishWith_setSeq s.resetTracking q _
  | done r => rfl

/-- What a command past its start comes to: its words run, then it goes on. -/
theorem finish_proceed (s : State) (todo : List Slot) (c : Cont) (hc : ∀ i, c ≠ .start i) :
    (s.proceed todo c).finish = finishCont c (s.queue todo).settle := by
  unfold State.finish
  simp only [State.proceed]
  rw [queue_setSeq, settle_setSeq, finishCont_setSeq c hc]

/-- A command that waits for a sample goes on with the oldest one once its words have run (R441). -/
theorem finish_proceedSample (s : State) (todo : List Slot) (w : Wait) :
    (s.proceedSample todo w).finish =
      finishWait w (s.queue todo).settle.popSample.1 (s.queue todo).settle.popSample.2 :=
  finish_proceed s todo (.sample w) (by simp)

theorem finish_proceedSlot (s : State) (k : Slot) (w : Wait) :
    (s.proceedSample [k] w).finish = finishWait w (s.slot k).1 (s.slot k).2 := finish_proceedSample _ _ _

/-- With no command in progress there is nothing to finish. -/
theorem finish_none {s : State} (h : s.seq = none) : s.finish = s := by
  unfold State.finish; rw [h]

theorem finish_beginPass (c : Byte) (s : State) :
    (beginPass c s).finish = searchPass c s := by
  unfold beginPass
  split
  · rename_i hl
    rw [finish_none rfl]
    simp [searchPass, hl]
  · rename_i hl
    rw [finish_proceedSlot, searchPass_slot (by simpa using hl)]; rfl

/-- The first move of a command leads to what its own steps do (R731). -/
theorem finish_beginCommand (i : Instr) (s : State) (hi : i.slot? = none) :
    (beginCommand i s).finish = commandSteps i s := by
  have hq : s.queue [] = s := by simp [State.queue]
  cases i <;> simp only [Instr.slot?, reduceCtorEq] at hi <;>
    simp only [beginCommand, commandSteps, finish_proceedDone, finish_proceedSlot, hq]
  · rw [finish_none]; unfold initSteps; dsimp only; split <;> rfl
  · rw [finish_none]; rfl
  · rw [finish_none]; rfl
  · rfl
  · rfl
  · rfl
  · rfl
  · rfl
  · rfl
  · rfl
  · rw [finish_none]; rfl
  · rw [finish_none]; rfl
  · exact finish_beginPass _ _
  · exact finish_beginPass _ s.resetTracking
  · exact finish_beginPass _ _
  · rfl

/-! ## A pass depends on what is in flight only through what it settles to -/

/-- A verdict depends on the search state only, and changes nothing else (R613–R617). -/
theorem verdict_withSrch (s t : State) (r : SearchReg) (nx : Scan) :
    (State.verdict { t with srch := r } nx).1 = (State.verdict { s with srch := r } nx).1 ∧
      (State.verdict { t with srch := r } nx).2 =
        { t with srch := (State.verdict { s with srch := r } nx).2.srch } := by
  simp only [State.verdict]
  split
  · exact ⟨rfl, rfl⟩
  · split <;> exact ⟨rfl, rfl⟩

/-- A verdict changes the search state only (R613). -/
theorem verdict_eq (s : State) (nx : Scan) : (s.verdict nx).2 = { s with srch := (s.verdict nx).2.srch } := by
  simp only [State.verdict]
  split
  · rfl
  · split <;> rfl

/-- Recording a search bit changes the search state, RESULT and the sequencer's position only. -/
theorem recordBit_eq (sc : Scan) (id cmp : Bool) (s : State) :
    recordBit sc id cmp s = { s with
      srch := (recordBit sc id cmp s).srch
      result := (recordBit sc id cmp s).result
      seq := (recordBit sc id cmp s).seq } := by
  simp only [recordBit]
  split
  · rfl
  · split
    · rfl
    · rw [verdict_eq]; rfl

theorem settle_withSrch_congr {a b : State} (h : a.settle = b.settle) (r : SearchReg) :
    ({ a with srch := r } : State).settle = ({ b with srch := r } : State).settle := by
  rw [settle_srch a r, settle_srch b r, h]

theorem srch_of_settle {a b : State} (h : a.settle = b.settle) : a.srch = b.srch := by
  rw [← (settle_keeps a).2.1, h, (settle_keeps b).2.1]

theorem finishWith_congr {a b : State} (h : a.settle = b.settle) (r : ResultReg) :
    a.finishWith r = b.finishWith r := by
  simp only [State.finishWith, h]

theorem scanBits_congr (k : Nat) (sc : Scan) {a b : State} (h : a.settle = b.settle) :
    scanBits k sc a = scanBits k sc b := by
  cases k with
  | zero =>
    obtain ⟨h1, h2⟩ := verdict_withSrch a b a.srch sc
    have hb : ({ b with srch := a.srch } : State) = b := by rw [srch_of_settle h]
    have ha : (a.verdict sc).2 = { a with srch := (a.verdict sc).2.srch } := (verdict_withSrch a a a.srch sc).2
    rw [hb] at h1 h2
    have ht : (a.verdict sc).2.settle = (b.verdict sc).2.settle := by
      rw [h2, ha]; exact settle_withSrch_congr h _
    simp only [scanBits, scanEnd, h1]
    exact finishWith_congr ht _
  | succ k =>
    have : a.slot .rd = b.slot .rd := by rw [← slot_settle, h, slot_settle]
    simp only [scanBits, this]

theorem scanRecord_congr (k : Nat) (sc : Scan) (id cmp : Bool) {a b : State} (h : a.settle = b.settle) :
    scanRecord (scanBits k) sc id cmp a = scanRecord (scanBits k) sc id cmp b := by
  have hr := srch_of_settle h
  simp only [scanRecord, State.discardRom, State.storeBit, hr]
  split
  · exact finishWith_congr (settle_withSrch_congr h _) _
  · exact scanBits_congr k _ (settle_withSrch_congr h _)

/-- Recording a search bit at rest leads to what is left of the pass (R610–R617). -/
theorem finish_recordBit (sc : Scan) (id cmp : Bool) {s : State} (h : s.engine = .idle ∨ s.engine = .stopped)
    (ht : s.txq = []) : (recordBit sc id cmp s).finish = scanRecord (scanBits (63 - sc.p)) sc id cmp s := by
  have hf : ∀ (r : SearchReg) x, ({ s with srch := r } : State).finishWith x = ({ s with srch := r } : State).complete x := by
    intro r x; rw [State.finishWith, settle_rest (s := { s with srch := r }) h ht]
  simp only [recordBit, scanRecord]
  split
  · rw [finish_none rfl]; exact (hf _ _).symm
  · split
    · obtain ⟨n, hn⟩ : ∃ n, 63 - sc.p = n + 1 := ⟨62 - sc.p, by omega⟩
      rw [finish_proceedSlot, hn]
      simp only [finishWait, scanBits]
      rw [show 63 - (sc.after id cmp (direction id cmp (preferred s.srch sc.p))).p = n by simp [Scan.after]; omega]
    · rw [show 63 - sc.p = 0 by omega, finish_none rfl]
      simp only [scanBits, scanEnd, State.storeBit]
      rw [(verdict_withSrch s s _ _).2]
      exact (hf _ _).symm

/-- Going on with a sample leads to what is left of the command (R441). -/
theorem finish_resume (w : Wait) (v : Bool) (s : State) : (resume w v s).finish = finishWait w v s.settle := by
  have hs : ∀ (s : State) r, s.settle.finishWith r = s.finishWith r := by
    intro s r
    simp [State.finishWith]
  have hq : ∀ (s : State) ws r, (s.settle.queue ws).finishWith r = (s.queue ws).finishWith r := by
    intro s ws r; simp only [State.finishWith, settle_queue_settle]
  have hqn : ∀ s : State, s.queue [] = s := by intro s; simp [State.queue]
  cases w with
  | reset => simp only [resume, finish_proceedDone, finishWait, hqn, hs]
  | search c =>
    cases v
    · simp only [resume, Bool.false_eq_true, if_false, finishWait, searchPresence_present]
      rw [finish_proceedSample]
      simp only [finishWait]
      have : ∀ t : State, scanCmp (scanBits (63 - Scan.start.p)) Scan.start (t.slot .rd).1 (t.slot .rd).2 =
          scanBits 64 Scan.start t := fun _ => rfl
      have e : (s.queue (byteSlots c ++ [.rd])) = (s.queue (byteSlots c)).queue [.rd] := by simp [State.queue]
      rw [e]
      rw [show ((s.queue (byteSlots c)).queue [.rd]).settle.popSample = (s.queue (byteSlots c)).slot .rd from rfl,
        this]
      have : (s.settle.queue (byteSlots c)).settle = (s.queue (byteSlots c)).settle := settle_queue_settle _ _
      have key : ∀ a b : State, a.settle = b.settle →
          scanBits 64 Scan.start a = scanBits 64 Scan.start b := by
        intro a b hab
        have : a.slot .rd = b.slot .rd := by rw [← slot_settle, hab, slot_settle]
        simp only [scanBits, this]
      exact key _ _ this.symm
    · simp only [resume, if_true, finishWait, searchPresence]
      rw [finish_proceed _ _ _ (by simp), hqn]; rfl
  | select =>
    simp only [resume, finish_proceedDone, finishWait, selectPresence, hq]
    rw [(fromSlots_settle s).selrom]
  | read i acc =>
    simp only [resume, resumeRead, finishWait]
    split
    · rw [finish_proceedSlot]
      obtain ⟨n, hn⟩ : ∃ n, 7 - i = n + 1 := ⟨6 - i, by omega⟩
      simp only [finishWait, hn]
      rw [readFrom_succ, slot_settle]
      congr 1; omega
    · have : 7 - i = 0 := by omega
      simp only [finish_proceedDone, hqn, this, readFrom, readBits, hs]
  | tripId pref => simp only [resume, finish_proceedSlot, finishWait, tripletCmp, slot_settle]
  | tripCmp pref id => simp only [resume, resumeTriplet, finish_proceedDone, finishWait, tripletWrite, hq]
  | scanId sc => simp only [resume, finish_proceedSlot, finishWait, scanCmp, slot_settle]
  | scanCmp sc id =>
    simp only [resume, resumeScan, finishWait, scanWrite, (settle_keeps s).2.1]
    rw [finish_proceed _ _ _ (by simp)]
    exact scanRecord_congr _ sc id v (by rw [settle_queue_settle, settle_settle])

end Sys2Proof.Machine
end

