-- ==== Sys2Proof/Laws/Cfg.lean ====
section
/-! SUPPORT. No slot and no step of the sequencer but INIT's and SET_FIFO_THRESH's reads or writes CFG (R109, R442). -/

namespace Sys2Proof.Machine

/-- The state with CFG replaced. -/
def State.withCfg (s : State) (c : CfgReg) : State := { s with cfg := c }

theorem drawLevel_withCfg (s : State) (k : Slot) (c : CfgReg) :
    (s.withCfg c).drawLevel k = ((s.drawLevel k).1, (s.drawLevel k).2.withCfg c) := by
  obtain ⟨_, _, _, _, _, _, _, _, _, _, _, _, _, bus, _, _, _, _⟩ := s
  rcases bus with (_ | _) | _ <;> rfl

theorem sampleLine_withCfg (s : State) (k : Slot) (c : CfgReg) :
    (s.withCfg c).sampleLine k = ((s.sampleLine k).1, (s.sampleLine k).2.withCfg c) := by
  unfold State.sampleLine
  rw [show (s.withCfg c).line = s.line from rfl]
  split
  · rfl
  · rfl
  · exact drawLevel_withCfg s k c

theorem nextPoint_withCfg (s : State) (c : CfgReg) : (s.withCfg c).nextPoint = s.nextPoint.withCfg c := by
  unfold State.nextPoint
  rw [show (s.withCfg c).engine = s.engine from rfl]
  split
  · rfl
  · rfl
  · rfl
  · split
    · simp only [State.samplePoint, sampleLine_withCfg]; rfl
    · rfl
  · rfl

theorem finishSlot_withCfg (s : State) (c : CfgReg) : (s.withCfg c).finishSlot = s.finishSlot.withCfg c := by
  simp only [State.finishSlot, nextPoint_withCfg]

theorem runSlot_withCfg (s : State) (k : Slot) (c : CfgReg) :
    (s.withCfg c).runSlot k = (s.runSlot k).withCfg c := by
  unfold State.runSlot State.takeSlot
  split
  · exact finishSlot_withCfg ({ s with line := .rel }.endSlot .rel false) c
  · exact finishSlot_withCfg { s with line := .low, engine := .run k .low } _

theorem runSlots_withCfg (ks : List Slot) :
    ∀ (s : State) (c : CfgReg), (s.withCfg c).runSlots ks = (s.runSlots ks).withCfg c := by
  induction ks with
  | nil => intro s c; rfl
  | cons k ks ih => intro s c; simp only [State.runSlots, runSlot_withCfg, ih]

theorem settle_withCfg (s : State) (c : CfgReg) : (s.withCfg c).settle = s.settle.withCfg c := by
  unfold State.settle
  rw [finishSlot_withCfg]
  exact runSlots_withCfg _ { s.finishSlot with txq := [] } c

theorem popSample_withCfg (s : State) (c : CfgReg) :
    (s.withCfg c).popSample = (s.popSample.1, s.popSample.2.withCfg c) := by
  obtain ⟨_, _, _, _, _, _, _, rxq, _, _, _, _, _, _, _, _, _, _⟩ := s
  cases rxq <;> rfl

theorem slot_withCfg (s : State) (k : Slot) (c : CfgReg) :
    (s.withCfg c).slot k = ((s.slot k).1, (s.slot k).2.withCfg c) := by
  unfold State.slot
  rw [show (s.withCfg c).queue [k] = (s.queue [k]).withCfg c from rfl, settle_withCfg, popSample_withCfg]

theorem finishWith_withCfg (s : State) (r : ResultReg) (c : CfgReg) :
    (s.withCfg c).finishWith r = (s.finishWith r).withCfg c := by
  unfold State.finishWith; rw [settle_withCfg]; rfl

theorem queue_withCfg (s : State) (ws : List Slot) (c : CfgReg) :
    (s.withCfg c).queue ws = (s.queue ws).withCfg c := rfl

theorem readBits_withCfg (n : Nat) :
    ∀ i acc (s : State) c, readBits n i acc (s.withCfg c) =
      ((readBits n i acc s).1, (readBits n i acc s).2.withCfg c) := by
  induction n with
  | zero => intros; rfl
  | succ n ih => intro i acc s c; simp only [readBits, slot_withCfg, ih]

theorem scanBits_withCfg (k : Nat) :
    ∀ sc (s : State) c, scanBits k sc (s.withCfg c) = (scanBits k sc s).withCfg c := by
  induction k with
  | zero =>
    intro sc s c
    simp only [scanBits, scanEnd, State.verdict]
    rw [show (s.withCfg c).srch = s.srch from rfl]
    split <;> [skip; split]
    · exact finishWith_withCfg (State.discardRom { s with srch := s.srch.track sc }) _ c
    · exact finishWith_withCfg (State.discardRom { s with srch := s.srch.track sc }) _ c
    · exact finishWith_withCfg { s with srch := s.srch.track sc } _ c
  | succ k ih =>
    intro sc s c
    simp only [scanBits, scanCmp, slot_withCfg]
    generalize ((s.slot .rd).2.slot .rd).2 = w
    simp only [scanWrite_eq]
    rw [show (w.withCfg c).srch = w.srch from rfl]
    split
    · exact finishWith_withCfg (w.queue _).discardRom _ c
    · exact ih _ { w.queue _ with srch := _ } c

theorem searchPass_withCfg (x : Byte) (s : State) (c : CfgReg) :
    searchPass x (s.withCfg c) = (searchPass x s).withCfg c := by
  unfold searchPass
  rw [show (s.withCfg c).srch = s.srch from rfl]
  split
  · rfl
  · rw [show (s.withCfg c).zeroCrc = s.zeroCrc.withCfg c from rfl]
    simp only [slot_withCfg]
    unfold searchPresence
    split
    · exact finishWith_withCfg (s.zeroCrc.slot .rst).2.resetTracking _ c
    · exact scanBits_withCfg _ _ ((s.zeroCrc.slot .rst).2.queue (byteSlots x)) c

/-! ## The steps of the sequencer's moves -/

theorem beginPass_withCfg (x : Byte) (s : State) (c : CfgReg) :
    beginPass x (s.withCfg c) = (beginPass x s).withCfg c := by
  unfold beginPass
  rw [show (s.withCfg c).srch = s.srch from rfl]
  split <;> rfl

theorem resume_withCfg (w : Wait) (v : Bool) (s : State) (c : CfgReg) :
    resume w v (s.withCfg c) = (resume w v s).withCfg c := by
  cases w <;> simp only [resume, resumeRead] <;> first | rfl | (split <;> rfl)

theorem verdict_withCfg (sc : Scan) (s : State) (c : CfgReg) :
    (s.withCfg c).verdict sc = ((s.verdict sc).1, (s.verdict sc).2.withCfg c) := by
  unfold State.verdict
  rw [show (s.withCfg c).srch = s.srch from rfl]
  dsimp only
  split <;> [rfl; split] <;> rfl

theorem recordBit_withCfg (sc : Scan) (id cmp : Bool) (s : State) (c : CfgReg) :
    recordBit sc id cmp (s.withCfg c) = (recordBit sc id cmp s).withCfg c := by
  unfold recordBit
  rw [show (s.withCfg c).srch = s.srch from rfl]
  dsimp only
  split <;> [rfl; split]
  · rfl
  · rw [show (s.withCfg c).storeBit sc.p (direction id cmp (preferred s.srch sc.p)) =
      (s.storeBit sc.p (direction id cmp (preferred s.srch sc.p))).withCfg c from rfl, verdict_withCfg]
    rfl

end Sys2Proof.Machine
end

