-- ==== Sys2Proof/Laws/Decode.lean ====
section
/-! SUPPORT. The fields of a command word and of the word built from fields are the same thing (R301). -/

namespace Sys2Proof

/-- The bits of a word built from fields. -/
theorem getLsbD_commandWord (op a b c : Byte) (i : Nat) :
    (commandWord op a b c).getLsbD i =
      if i < 8 then op.getLsbD i else if i < 16 then a.getLsbD (i - 8)
      else if i < 24 then b.getLsbD (i - 16) else c.getLsbD (i - 24) := by
  have h : (commandWord op a b c).getLsbD i = (c ++ b ++ a ++ op).getLsbD i := rfl
  rw [h, BitVec.getLsbD_append, BitVec.getLsbD_append, BitVec.getLsbD_append]
  by_cases h1 : i < 8
  · simp [h1]
  by_cases h2 : i < 16
  · have : i - 8 < 8 := by omega
    simp [h1, h2, this]
  by_cases h3 : i < 24
  · have a1 : ¬ i - 8 < 8 := by omega
    have a2 : i - 8 - 8 < 8 := by omega
    have e : i - 8 - 8 = i - 16 := by omega
    have a3 : ¬ 8 ≤ i - 16 := by omega
    simp [h1, h2, h3, a1, e, a3]
  · have a1 : ¬ i - 8 < 8 := by omega
    have a2 : ¬ i - 8 - 8 < 8 := by omega
    have e : i - 8 - 8 - 8 = i - 24 := by omega
    simp [h1, h2, h3, a1, a2, e]

@[simp] theorem fieldOp_commandWord (op a b c : Byte) : fieldOp (commandWord op a b c) = op := by
  apply BitVec.eq_of_getLsbD_eq
  intro i hi
  simp [fieldOp, getLsbD_commandWord, hi]

@[simp] theorem fieldA_commandWord (op a b c : Byte) : fieldA (commandWord op a b c) = a := by
  apply BitVec.eq_of_getLsbD_eq
  intro i hi
  have : 8 + i < 16 := by omega
  simp [fieldA, getLsbD_commandWord, hi, this]

@[simp] theorem fieldB_commandWord (op a b c : Byte) : fieldB (commandWord op a b c) = b := by
  apply BitVec.eq_of_getLsbD_eq
  intro i hi
  have h1 : 16 + i < 24 := by omega
  have h2 : ¬ 16 + i < 8 := by omega
  simp [fieldB, getLsbD_commandWord, hi, h1, h2]

@[simp] theorem fieldC_commandWord (op a b c : Byte) : fieldC (commandWord op a b c) = c := by
  apply BitVec.eq_of_getLsbD_eq
  intro i hi
  have h1 : ¬ 24 + i < 8 := by omega
  have h2 : ¬ 24 + i < 16 := by omega
  simp [fieldC, getLsbD_commandWord, hi, h1, h2]

/-- A word is its four fields (R301). -/
theorem commandWord_fields (w : Word) : commandWord (fieldOp w) (fieldA w) (fieldB w) (fieldC w) = w := by
  apply BitVec.eq_of_getLsbD_eq
  intro i hi
  simp only [getLsbD_commandWord, fieldOp, fieldA, fieldB, fieldC, BitVec.getLsbD_extractLsb']
  by_cases h1 : i < 8
  · simp [h1]
  by_cases h2 : i < 16
  · have e : 8 + (i - 8) = i := by omega
    have : i - 8 < 8 := by omega
    simp [h1, h2, e, this]
  by_cases h3 : i < 24
  · have e : 16 + (i - 16) = i := by omega
    have : i - 16 < 8 := by omega
    simp [h1, h2, h3, e, this]
  · have e : 24 + (i - 24) = i := by omega
    have : i - 24 < 8 := by omega
    simp [h1, h2, h3, e, this]

/-- Two command words are equal exactly when their fields are. -/
theorem commandWord_inj {op a b c op' a' b' c' : Byte} :
    commandWord op a b c = commandWord op' a' b' c' ↔ op = op' ∧ a = a' ∧ b = b' ∧ c = c' := by
  constructor
  · intro h
    have h0 := congrArg fieldOp h
    have h1 := congrArg fieldA h
    have h2 := congrArg fieldB h
    have h3 := congrArg fieldC h
    simp only [fieldOp_commandWord, fieldA_commandWord, fieldB_commandWord, fieldC_commandWord] at h0 h1 h2 h3
    exact ⟨h0, h1, h2, h3⟩
  · rintro ⟨rfl, rfl, rfl, rfl⟩
    rfl

/-- Masking acts on each field of a command word (R303). -/
theorem commandWord_and (op a b c op' a' b' c' : Byte) :
    commandWord op a b c &&& commandWord op' a' b' c' =
      commandWord (op &&& op') (a &&& a') (b &&& b') (c &&& c') := by
  apply BitVec.eq_of_getLsbD_eq
  intro i hi
  simp only [getLsbD_commandWord, BitVec.getLsbD_and]
  split <;> [rfl; split <;> [rfl; split <;> rfl]]

/-! ## The decoder, one opcode at a time (R303) -/

theorem decode_init (a b c : Byte) :
    decodeCommand (commandWord 0x01#8 a b c) =
      if c = 1#8 ∨ (c = 0#8 ∧ b = 0#8) then .ok (.init a b (c == 1#8))
      else .error (.reservedBits (commandWord 0x01#8 a b c)) := by
  simp [decodeCommand, unlessReserved]

theorem decode_teardown (a b c : Byte) :
    decodeCommand (commandWord 0x02#8 a b c) =
      if a = 0#8 ∧ b = 0#8 ∧ c = 0#8 then .ok (.teardown)
      else .error (.reservedBits (commandWord 0x02#8 a b c)) := by
  simp [decodeCommand, unlessReserved, and_assoc]

theorem decode_waitIdle (a b c : Byte) :
    decodeCommand (commandWord 0x04#8 a b c) =
      if a = 0#8 ∧ b = 0#8 ∧ c = 0#8 then .ok (.waitIdle)
      else .error (.reservedBits (commandWord 0x04#8 a b c)) := by
  simp [decodeCommand, unlessReserved, and_assoc]

theorem decode_reset (a b c : Byte) :
    decodeCommand (commandWord 0x10#8 a b c) =
      if a = 0#8 ∧ b = 0#8 ∧ c = 0#8 then .ok (.reset)
      else .error (.reservedBits (commandWord 0x10#8 a b c)) := by
  simp [decodeCommand, unlessReserved, and_assoc]

theorem decode_endPower (a b c : Byte) :
    decodeCommand (commandWord 0x13#8 a b c) =
      if a = 0#8 ∧ b = 0#8 ∧ c = 0#8 then .ok (.endPower)
      else .error (.reservedBits (commandWord 0x13#8 a b c)) := by
  simp [decodeCommand, unlessReserved, and_assoc]

theorem decode_readByte (a b c : Byte) :
    decodeCommand (commandWord 0x14#8 a b c) =
      if a = 0#8 ∧ b = 0#8 ∧ c = 0#8 then .ok (.readByte)
      else .error (.reservedBits (commandWord 0x14#8 a b c)) := by
  simp [decodeCommand, unlessReserved, and_assoc]

theorem decode_searchReset (a b c : Byte) :
    decodeCommand (commandWord 0x30#8 a b c) =
      if a = 0#8 ∧ b = 0#8 ∧ c = 0#8 then .ok (.searchReset)
      else .error (.reservedBits (commandWord 0x30#8 a b c)) := by
  simp [decodeCommand, unlessReserved, and_assoc]

theorem decode_first (a b c : Byte) :
    decodeCommand (commandWord 0x32#8 a b c) =
      if a = 0#8 ∧ b = 0#8 ∧ c = 0#8 then .ok (.first)
      else .error (.reservedBits (commandWord 0x32#8 a b c)) := by
  simp [decodeCommand, unlessReserved, and_assoc]

theorem decode_next (a b c : Byte) :
    decodeCommand (commandWord 0x33#8 a b c) =
      if a = 0#8 ∧ b = 0#8 ∧ c = 0#8 then .ok (.next)
      else .error (.reservedBits (commandWord 0x33#8 a b c)) := by
  simp [decodeCommand, unlessReserved, and_assoc]

theorem decode_select (a b c : Byte) :
    decodeCommand (commandWord 0x40#8 a b c) =
      if a = 0#8 ∧ b = 0#8 ∧ c = 0#8 then .ok (.select)
      else .error (.reservedBits (commandWord 0x40#8 a b c)) := by
  simp [decodeCommand, unlessReserved, and_assoc]

theorem decode_setFifoThresh (a b c : Byte) :
    decodeCommand (commandWord 0x03#8 a b c) =
      if b = 0#8 ∧ c = 0#8 then .ok (.setFifoThresh a)
      else .error (.reservedBits (commandWord 0x03#8 a b c)) := by
  simp [decodeCommand, unlessReserved]

theorem decode_writeByte (a b c : Byte) :
    decodeCommand (commandWord 0x11#8 a b c) =
      if b = 0#8 ∧ c = 0#8 then .ok (.writeByte a)
      else .error (.reservedBits (commandWord 0x11#8 a b c)) := by
  simp [decodeCommand, unlessReserved]

theorem decode_writeBytePwr (a b c : Byte) :
    decodeCommand (commandWord 0x12#8 a b c) =
      if b = 0#8 ∧ c = 0#8 then .ok (.writeBytePwr a)
      else .error (.reservedBits (commandWord 0x12#8 a b c)) := by
  simp [decodeCommand, unlessReserved]

theorem decode_search (a b c : Byte) :
    decodeCommand (commandWord 0x31#8 a b c) =
      if b = 0#8 ∧ c = 0#8 then .ok (.search a)
      else .error (.reservedBits (commandWord 0x31#8 a b c)) := by
  simp [decodeCommand, unlessReserved]

theorem decode_triplet (a b c : Byte) :
    decodeCommand (commandWord 0x15#8 a b c) =
      if (a = 0#8 ∨ a = 1#8) ∧ b = 0#8 ∧ c = 0#8 then .ok (.triplet (a == 1#8))
      else .error (.reservedBits (commandWord 0x15#8 a b c)) := by
  simp [decodeCommand, unlessReserved]

theorem decode_crc8Upd (a b c : Byte) :
    decodeCommand (commandWord 0x20#8 a b c) =
      if c = 0#8 then .ok (.crc8Upd a b)
      else .error (.reservedBits (commandWord 0x20#8 a b c)) := by
  simp [decodeCommand, unlessReserved]

/-- The assigned opcodes (R303, R305). -/
def opcodes : List Byte :=
  [0x01#8, 0x02#8, 0x03#8, 0x04#8, 0x10#8, 0x11#8, 0x12#8, 0x13#8, 0x14#8, 0x15#8, 0x20#8, 0x30#8, 0x31#8, 0x32#8,
    0x33#8, 0x40#8]

/-- An opcode outside the table is rejected by name (R305). -/
theorem decode_unassigned {op : Byte} (h : op ∉ opcodes) (a b c : Byte) :
    decodeCommand (commandWord op a b c) = .error (.unknownOpcode op) := by
  simp only [opcodes, List.mem_cons, List.not_mem_nil, or_false, not_or] at h
  obtain ⟨h1, h2, h3, h4, h5, h6, h7, h8, h9, h10, h11, h12, h13, h14, h15, h16⟩ := h
  unfold decodeCommand
  rw [fieldOp_commandWord]
  rw [if_neg h1, if_neg h2, if_neg h3, if_neg h4, if_neg h5, if_neg h6, if_neg h7, if_neg h8, if_neg h9, if_neg h10,
    if_neg h11, if_neg h12, if_neg h13, if_neg h14, if_neg h15, if_neg h16]

end Sys2Proof
end

