-- ==== Sys2Proof/Laws/Dispatch.lean ====
section
/-! SUPPORT. What exec does, in terms of the checks and the steps of a command and of the slot a slot word is. -/

namespace Sys2Proof.Machine

/-- A guarded outcome is a next state only where the check finds nothing (R711). -/
theorem guarded_next {f : Option Fault} {t u : State} (h : guarded f t = .next u) : f = none ∧ u = t := by
  cases f <;> simp_all [guarded]

/-- A command is its checks, then its own steps (R713, R731). -/
theorem exec_command {i : Instr} (h : i.slot? = none) (s : State) :
    exec i s = guarded (commandFault i s) (commandSteps i s) := by
  cases i <;> first | rfl | simp [Instr.slot?] at h

/-- A slot word is the slot it names (R306). -/
theorem exec_slot (k : Slot) (s : State) : exec k.toInstr s = s.slotMeaning k := by
  cases k <;> rfl

/-- A slot word reads back as the slot it names. -/
@[simp] theorem slot?_toInstr (k : Slot) : k.toInstr.slot? = some k := by
  cases k <;> rfl

/-- From an IDLE engine a slot word runs its whole slot (R412). -/
theorem slotMeaning_idle {s : State} (h : s.engine = .idle) (k : Slot) :
    s.slotMeaning k = .next (s.runSlot k) := by
  simp [State.slotMeaning, State.finishSlot, State.nextPoint, h]

end Sys2Proof.Machine
end

