-- ==== Sys2Proof/Laws/Reference.lean ====
section
/-! SUPPORT. What a pass does on the reference bus: the devices and their samples bit by bit, and the code it finds
(R433–R435, R604–R616). -/

namespace Sys2Proof.Machine

/-- The device's code has the bits of `rom` at its first p positions: it still participates there (R435). -/
def onPath (rom : RomCode) (p : Nat) (d : Device) : Bool := decide (∀ q, q < p → d.rom.getLsbD q = rom.getLsbD q)

/-- The reference devices at the start of search bit p, the directions written so far being the first p bits of
`rom` (R435). -/
def searching (ds : List Device) (rom : RomCode) (p : Nat) : Bus :=
  .reference (ds.map fun d => { d with
    mode := if onPath rom p d then (if p = 64 then .selected else .search p .id) else .inactive })

/-- The sample pair of search bit p there: the AND of the participating devices' bits, and of their complements. -/
def sampled (ds : List Device) (rom : RomCode) (p : Nat) : Bool × Bool :=
  (ds.all fun d => !onPath rom p d || d.rom.getLsbD p, ds.all fun d => !onPath rom p d || !d.rom.getLsbD p)

theorem onPath_iff {rom : RomCode} {p : Nat} {d : Device} :
    onPath rom p d = true ↔ ∀ q, q < p → d.rom.getLsbD q = rom.getLsbD q := by
  simp [onPath]

theorem onPath_congr {a b : RomCode} {p : Nat} (h : ∀ q, q < p → a.getLsbD q = b.getLsbD q) (d : Device) :
    onPath a p d = onPath b p d := by
  rw [Bool.eq_iff_iff, onPath_iff, onPath_iff]
  constructor <;> intro g q hq
  · rw [g q hq, h q hq]
  · rw [g q hq, h q hq]

theorem onPath_succ (rom : RomCode) (p : Nat) (d : Device) :
    onPath rom (p + 1) d = (onPath rom p d && (d.rom.getLsbD p == rom.getLsbD p)) := by
  rw [Bool.eq_iff_iff, Bool.and_eq_true, beq_iff_eq, onPath_iff, onPath_iff]
  constructor
  · intro g
    exact ⟨fun q hq => g q (by omega), g p (by omega)⟩
  · rintro ⟨g1, g2⟩ q hq
    by_cases h : q = p
    · subst h; exact g2
    · exact g1 q (by omega)

theorem sampled_congr {a b : RomCode} {p : Nat} (h : ∀ q, q < p → a.getLsbD q = b.getLsbD q) (ds : List Device) :
    sampled ds a p = sampled ds b p := by
  simp only [sampled, onPath_congr h]

/-- Two reads in search bit p sample its pair, and then every participating device waits for the direction (R435). -/
theorem searching_reads (ds : List Device) (rom : RomCode) {p : Nat} (hp : p < 64) :
    ∃ es fs : List Device, searching ds rom p = .reference es ∧ referenceLevel es .rd = (sampled ds rom p).1 ∧
      (∀ v, (Bus.reference es).observe (.read v) = .reference fs) ∧ referenceLevel fs .rd = (sampled ds rom p).2 ∧
      ∀ v dir, ((Bus.reference fs).observe (.read v)).observe (.write dir false) =
      searching ds (withBit rom p dir) (p + 1) := by
  have h64 : p ≠ 64 := by omega
  refine ⟨_, (ds.map fun d => { d with mode := if onPath rom p d then .search p .cmp else .inactive }), rfl, ?_, ?_,
      ?_, ?_⟩
  · simp only [referenceLevel, sampled, List.all_map, reduceCtorEq, if_false]
    congr 1
    funext d
    by_cases h : onPath rom p d = true <;> simp [h, h64, Device.presents]
  · intro v
    simp only [Bus.observe, List.map_map]
    congr 2
    funext d
    by_cases h : onPath rom p d = true <;> simp [h, h64, Device.observe, Device.afterRead]
  · simp only [referenceLevel, sampled, List.all_map, reduceCtorEq, if_false]
    congr 1
    funext d
    by_cases h : onPath rom p d = true <;> simp [h, Device.presents]
  · intro v dir
    simp only [Bus.observe, List.map_map, searching]
    congr 2
    funext d
    have e : onPath (withBit rom p dir) (p + 1) d = (onPath rom p d && (d.rom.getLsbD p == dir)) := by
      rw [onPath_succ, getLsbD_withBit, if_pos ⟨rfl, hp⟩,
        onPath_congr (a := withBit rom p dir) (b := rom) (fun q hq => by rw [getLsbD_withBit, if_neg (by omega)])]
    rw [e]
    by_cases h : onPath rom p d = true
    · simp only [h, Function.comp, if_true, Device.observe, Device.afterRead, Device.afterWrite, Bool.true_and]
      by_cases hb : dir = d.rom.getLsbD p
      · subst hb
        simp only [bne_self_eq_false, beq_self_eq_true, Bool.false_eq_true, if_false, if_true]
        by_cases h63 : p = 63
        · rw [if_pos h63, if_pos (by omega)]
        · rw [if_neg h63, if_neg (by omega)]
      · have hb' : (d.rom.getLsbD p == dir) = false := beq_eq_false_iff_ne.mpr (Ne.symm hb)
        have hb2 : (dir != d.rom.getLsbD p) = true := bne_iff_ne.mpr hb
        simp [hb', hb2]
    · simp [h, Device.observe, Device.afterRead, Device.afterWrite]

/-- One bit of a pass on the reference bus with a participating device: its pair is `sampled`, a device still
participates, and the devices are at the next bit (R435, R610–R613). -/
theorem scanBits_searching (k : Nat) (sc : Scan) {s : State} {ds : List Device} (h : s.Flowing) (hp : sc.p < 64)
    (hb : s.settle.bus = searching ds s.srch.rom sc.p) (hd : ∃ d ∈ ds, onPath s.srch.rom sc.p d = true) :
    (let q := bitFold (s.srch, sc) (sampled ds s.srch.rom sc.p);
      ∃ u : State, scanBits (k + 1) sc s = scanBits k q.2 u ∧ u.srch = q.1 ∧ u.Flowing ∧
        u.settle = { s.settle with
          hist := s.settle.hist ++ foldEvents (s.srch, sc) [sampled ds s.srch.rom sc.p]
          bus := searching ds q.1.rom (sc.p + 1), srch := q.1 } ∧
        ∃ d ∈ ds, onPath q.1.rom (sc.p + 1) d = true) := by
  obtain ⟨es, fs, b0, l0, b1, l1, b2⟩ := searching_reads ds s.srch.rom hp
  rw [b0] at hb
  generalize hx : sampled ds s.srch.rom sc.p = x at *
  obtain ⟨id, cmp⟩ := x
  have e0 : s.slot .rd = s.settle.slot .rd := (slot_settle s .rd).symm
  have e1 := slot_ready (k := .rd) h rfl
  have dl : s.settle.drawLevel .rd = (id, s.settle) := by simp [State.drawLevel, hb, l0]
  have a1 : s.settle.busAfter .rd = .reference fs := by
    rw [State.busAfter, dl]; simp only [hb, slotEvent]; exact b1 id
  rw [dl, a1, ← e0] at e1
  have r1 : (s.slot .rd).2.Ready := by rw [e1]; exact h
  have e2 := slot_ready (k := .rd) r1 rfl
  have dl2 : (s.slot .rd).2.drawLevel .rd = (cmp, (s.slot .rd).2) := by
    rw [e1]; simp [State.drawLevel, l1]
  have a2 : (s.slot .rd).2.busAfter .rd = (Bus.reference fs).observe (.read cmp) := by
    rw [State.busAfter, dl2, e1]; rfl
  rw [dl2, a2] at e2
  have r2 : ((s.slot .rd).2.slot .rd).2.Ready := by rw [e2]; exact r1
  have hid : (s.slot .rd).1 = id := by rw [e1]
  have hcm : ((s.slot .rd).2.slot .rd).1 = cmp := by rw [e2]
  have hsr : ((s.slot .rd).2.slot .rd).2.srch = s.srch := by rw [(fromSlots_slot _ _).srch, (fromSlots_slot _ _).srch]
  have hw : ((s.slot .rd).2.slot .rd).2 = { s.settle with
      hist := s.settle.hist ++ [.read id, .read cmp], bus := (Bus.reference fs).observe (.read cmp) } := by
    rw [e2, e1]
    simp [slotEvent]
  have hn : (id && cmp) = false := by
    obtain ⟨d, hm, ho⟩ := hd
    by_contra hc
    simp only [Bool.not_eq_false, Bool.and_eq_true] at hc
    obtain ⟨rfl, rfl⟩ := hc
    simp only [sampled, Prod.mk.injEq, List.all_eq_true] at hx
    have h1 := hx.1 d hm
    have h2 := hx.2 d hm
    simp only [ho, Bool.not_true, Bool.false_or] at h1 h2
    rw [h1] at h2
    cases h2
  intro q
  have hs : scanBits (k + 1) sc s = scanWrite (scanBits k) sc id cmp ((s.slot .rd).2.slot .rd).2 := by
    rw [scanBits, scanCmp, hid, hcm]
  generalize ((s.slot .rd).2.slot .rd).2 = w at *
  generalize hdir : direction id cmp (preferred s.srch sc.p) = dir
  have hq1 : q.1 = s.srch.store sc.p dir := by simp only [q, bitFold, hdir]
  have st := settle_write r2 dir
  have su : ({ w.queue [writeSlot dir] with srch := s.srch.store sc.p dir } : State).settle = { s.settle with
      hist := s.settle.hist ++ foldEvents (s.srch, sc) [(id, cmp)]
      bus := searching ds q.1.rom (sc.p + 1), srch := q.1 } := by
    rw [settle_srch, st, hw]
    have := b2 cmp dir
    simp only [foldEvents, hdir, hq1, SearchReg.store, this, List.append_nil, List.append_assoc, List.cons_append,
      List.nil_append]
  refine ⟨{ w.queue [writeSlot dir] with srch := s.srch.store sc.p dir }, ?_, hq1.symm, ?_, su, ?_⟩
  · rw [hs, scanWrite_eq]
    simp only [hn, hsr, hdir, q, bitFold, queue_srch]
    rfl
  · rw [State.Flowing, su]
    exact h
  · -- some device has the written direction
    have hrom : q.1.rom = withBit s.srch.rom sc.p dir := by rw [hq1]; rfl
    have hex : ∃ d ∈ ds, onPath s.srch.rom sc.p d = true ∧ d.rom.getLsbD sc.p = dir := by
      simp only [sampled, Prod.mk.injEq] at hx
      obtain ⟨d, hm, ho⟩ := hd
      by_cases hc : id = cmp
      · have i0 : id = false := by revert hn; rw [hc]; cases cmp <;> simp
        have c0 : cmp = false := hc ▸ i0
        rw [i0, c0] at hx
        have g1 := List.all_eq_false.mp hx.1
        have g2 := List.all_eq_false.mp hx.2
        obtain ⟨d1, m1, k1⟩ := g1
        obtain ⟨d2, m2, k2⟩ := g2
        simp only [Bool.or_eq_true, Bool.not_eq_true', not_or, Bool.not_eq_false, Bool.not_eq_true] at k1 k2
        cases dir
        · exact ⟨d1, m1, k1.1, k1.2⟩
        · exact ⟨d2, m2, k2.1, k2.2⟩
      · have hdi : dir = id := by rw [← hdir]; simp [direction, hc]
        refine ⟨d, hm, ho, ?_⟩
        rw [hdi]
        cases id
        · have hc1 : cmp = true := by cases cmp <;> simp_all
          have := List.all_eq_true.mp (hx.2.trans hc1) d hm
          simpa [ho] using this
        · have := List.all_eq_true.mp hx.1 d hm
          simpa [ho] using this
    obtain ⟨d, hm, ho, hd1⟩ := hex
    refine ⟨d, hm, ?_⟩
    rw [hrom, onPath_succ, getLsbD_withBit, if_pos ⟨rfl, hp⟩,
      onPath_congr (a := withBit s.srch.rom sc.p dir) (b := s.srch.rom) (fun q hq => by rw [getLsbD_withBit,
          if_neg (by omega)]), ho, hd1]
    simp

/-- A pass on the reference bus from k bits before its end, with a participating device: its pairs are those of the
code it gathers, some device participates to the end, and the pass comes to its end (R604, R610–R613). -/
theorem scanBits_reference (k : Nat) : ∀ (sc : Scan) {s : State} {ds : List Device}, s.Flowing → sc.p + k = 64 →
    s.settle.bus = searching ds s.srch.rom sc.p → (∃ d ∈ ds, onPath s.srch.rom sc.p d = true) →
    ∃ pairs : List (Bool × Bool), pairs.length = k ∧
      (∀ i, i < k → pairs[i]? = some (sampled ds (passFold (s.srch, sc) (pairs.take i)).1.rom (sc.p + i))) ∧
      (let q := passFold (s.srch, sc) pairs;
        (∃ d ∈ ds, onPath q.1.rom 64 d = true) ∧
        ∃ u : State, scanBits k sc s = scanEnd q.2 u ∧ u.srch = q.1 ∧ u.Flowing ∧
          u.settle = { s.settle with
            hist := s.settle.hist ++ foldEvents (s.srch, sc) pairs, bus := searching ds q.1.rom 64, srch := q.1 }) := by
  induction k with
  | zero =>
    intro sc s ds h hk hb hd
    have hk : sc.p = 64 := by omega
    refine ⟨[], rfl, by omega, by simpa [passFold, hk] using hd, s, rfl, rfl, h, ?_⟩
    simp only [passFold, List.foldl_nil, foldEvents, List.append_nil, ← hk, ← hb]
    rw [← (settle_keeps s).2.1]
  | succ k ih =>
    intro sc s ds h hk hb hd
    obtain ⟨u, hu1, hu2, hu3, hu4, hu5⟩ := scanBits_searching k sc h (by omega) hb hd
    generalize hx : sampled ds s.srch.rom sc.p = x at *
    have hp : (bitFold (s.srch, sc) x).2.p = sc.p + 1 := rfl
    obtain ⟨pairs, p1, p2, p3, v, v1, v2, v3, v4⟩ := ih (bitFold (s.srch,
        sc) x).2 hu3 (by rw [hp]; omega) (by rw [hu4, hu2, hp]) (by rw [hu2, hp]; exact hu5)
    rw [hu2] at p2 p3 v1 v2 v4
    refine ⟨x :: pairs, by simp [p1], ?_, p3, v, ?_, v2, v3, ?_⟩
    · intro i hi
      cases i with
      | zero => simp [passFold, hx]
      | succ i =>
        have := p2 i (by omega)
        rw [hp] at this
        simp only [List.getElem?_cons_succ, List.take_succ_cons, this]
        simp only [passFold, List.foldl_cons]
        congr 2
        omega
    · rw [hu1, v1]; rfl
    · rw [v4, hu4]
      simp [foldEvents, passFold]

/-- A pass with 0xF0 on the reference bus, some device present, all of them with valid codes: it finds the code R of
one of them. Every bit of R is the direction of its sample pair, LD is the last deferred branch, and the devices are
the same ones (R609–R616, R433–R435). -/
theorem searchPass_reference {s : State} {ds : List Device} (h : s.Ready) (hl : s.srch.ldf = false)
    (hb : s.bus = .reference ds) (hne : ds ≠ [])
    (hv : ∀ d ∈ ds, crc8Buffer (romBytes d.rom) = 0#8 ∧ romByte d.rom 0 ≠ 0#8) :
    ∃ (R : RomCode) (n m : Nat), (∃ d ∈ ds, d.rom = R) ∧
      (∀ p, p < 64 → R.getLsbD p = passDir s.srch p (sampled ds R p)) ∧
      lastDeferred s.srch ((List.range 64).map (sampled ds R)) 64 n ∧
      lastDeferred s.srch ((List.range 64).map (sampled ds R)) 8 m ∧
      (searchPass 0xF0#8 s).Ready ∧
      (searchPass 0xF0#8 s).result = { code := .ok, data := 0#8, flag := true } ∧
      (searchPass 0xF0#8 s).srch =
        { ld := BitVec.ofNat 7 n, lfd := BitVec.ofNat 4 m, ldf := decide (n = 0), crc8 := 0#8, rom := R } ∧
      (searchPass 0xF0#8 s).bus = searching ds R 64 := by
  let w : State := s.zeroCrc
  have hw : w.Ready := h
  have hwb : w.bus = .reference ds := hb
  have p1 : searchPass 0xF0#8 s = searchPresence 0xF0#8 (w.slot .rst).1 (w.slot .rst).2 := searchPass_slot hl _
  have es := slot_ready (k := .rst) hw rfl
  have dl : w.drawLevel .rst = (false, w) := by
    cases ds with
    | nil => exact absurd rfl hne
    | cons d ds => simp [State.drawLevel, hwb, referenceLevel]
  have bb : w.busAfter .rst = .reference (ds.map fun d => { d with mode := .waitCmd 0 0#8 }) := by
    simp [State.busAfter, dl, hwb, Bus.observe, slotEvent, Device.observe]
  rw [dl, bb] at es
  have hr : (w.slot .rst).2.Ready := ready_slot hw rfl
  have p2 : searchPass 0xF0#8 s = scanBits 64 Scan.start ((w.slot .rst).2.queue (byteSlots 0xF0#8)) := by
    rw [p1, es, searchPresence_present]
  have st : ((w.slot .rst).2.queue (byteSlots 0xF0#8)).settle = _ := settle_writes hr (byteBits 0xF0#8)
  have on0 : ∀ rom d, onPath rom 0 d = true := fun rom d => onPath_iff.mpr (by omega)
  have hsr : ((w.slot .rst).2.queue (byteSlots 0xF0#8)).srch = w.srch := by rw [queue_srch, (fromSlots_slot _ _).srch]
  have hbus : ((w.slot .rst).2.queue (byteSlots 0xF0#8)).settle.bus = searching ds w.srch.rom 0 := by
    rw [st, es]
    have e : (byteBits 0xF0#8).map (BusEvent.write · false) =
        ([false, false, false, false, true, true, true, true] : List Bool).map (BusEvent.write · false) := rfl
    simp only [e, searching, on0, if_true]
    simp only [List.map_cons, List.map_nil, List.foldl_cons, List.foldl_nil, Bus.observe, List.map_map]
    congr 2
  obtain ⟨d0, hd0⟩ := List.exists_mem_of_ne_nil ds hne
  obtain ⟨pairs, q1, q2, ⟨d, hdm, hdo⟩, u, u1, u2, u3, u4⟩ := scanBits_reference 64 Scan.start (s :=
      (w.slot .rst).2.queue (byteSlots 0xF0#8)) (ds := ds)
    (by rw [State.Flowing, st]; exact hr) rfl (by rw [hsr]; exact hbus) ⟨d0, hd0, on0 _ _⟩
  rw [hsr] at q2 hdo u1 u2 u4
  have pa := passAt_fold w.srch rfl pairs (by omega)
  generalize hq : passFold (w.srch, Scan.start) pairs = q at *
  have hR : d.rom = q.1.rom := BitVec.eq_of_getLsbD_eq fun i hi => onPath_iff.mp hdo i hi
  have hval := hv d hdm
  rw [hR] at hval
  have hsto := pa.stored
  have hcrc := pa.crc
  have hz := pa.zero
  have hf := pa.fam
  rw [q1] at hsto hz hf
  rw [q1, List.take_of_length_le (by simp [romBytes]), hval.1] at hcrc
  -- every prefix of the pass has gathered the same bits
  have hpref : ∀ i, i < 64 → ∀ j, j < i → (passFold (w.srch,
      Scan.start) (pairs.take i)).1.rom.getLsbD j = q.1.rom.getLsbD j := by
    intro i hi j hj
    have pb := passAt_fold w.srch rfl (pairs.take i) (by simp; omega)
    obtain ⟨x, hx⟩ : ∃ x, pairs[j]? = some x := ⟨_, List.getElem?_eq_getElem (by omega)⟩
    have g1 := pb.stored j x (by simp; omega) (by rw [List.getElem?_take]; simp [hj, hx])
    have g2 := hsto j x (by omega) hx
    rw [g1, g2]
  have hpairs : pairs = (List.range 64).map (sampled ds q.1.rom) := by
    refine List.ext_getElem? fun i => ?_
    by_cases hi : i < 64
    · rw [q2 i hi, show Scan.start.p + i = i from Nat.zero_add i, sampled_congr (hpref i hi)]
      simp [hi]
    · rw [List.getElem?_eq_none (by omega), List.getElem?_eq_none (by simp; omega)]
  refine ⟨q.1.rom, q.2.lastZero, q.2.lastFam, ⟨d, hdm, hR⟩, ?_, ?_, ?_, ?_⟩
  · intro p hp
    have := hsto p (sampled ds q.1.rom p) (by omega) (by rw [hpairs]; simp [hp])
    exact this
  · rw [← hpairs]; exact hz
  · rw [← hpairs]; exact hf
  · rw [p2, u1]
    have hu := hval
    have v1 : u.srch.crc8 = 0#8 := by rw [u2]; exact hcrc
    have v2 : romByte u.srch.rom 0 ≠ 0#8 := by rw [u2]; exact hu.2
    simp only [scanEnd, State.verdict, v1, v2, ne_eq, not_true_eq_false, if_false]
    have hready : ({ u with srch := u.srch.track q.2 } : State).settle.Ready := by
      rw [settle_srch]; exact u3
    have hseq : ({ u with srch := u.srch.track q.2 } : State).settle.seq = none := hready.1.2.2.1
    refine ⟨?_, rfl, ?_, ?_⟩
    · obtain ⟨⟨h1, h2, h3, h4, h5⟩, h6⟩ := hready
      exact ⟨⟨h1, h2, rfl, h4, h5⟩, h6⟩
    · rw [finishWith_srch]
      simp only [SearchReg.track, u2, hcrc]
    · simp only [State.finishWith, State.complete, settle_srch, u4]

end Sys2Proof.Machine
end

