-- ==== Sys2Proof/Laws/Enumerate.lean ====
section
/-! SUPPORT. Which code a pass finds on the reference bus: the first pass the least, the next one the successor, in the
order of R631 (R609–R611, R614). -/

namespace Sys2Proof.Machine

/-- Devices on the path of R disagree at bit p. -/
def mixed (ds : List Device) (R : RomCode) (p : Nat) : Prop :=
  ∃ d ∈ ds, onPath R p d = true ∧ d.rom.getLsbD p ≠ R.getLsbD p

theorem sampled_mixed {ds : List Device} {R : RomCode} {p : Nat} (hR : ∃ d ∈ ds, d.rom = R) (h : mixed ds R p) :
    sampled ds R p = (false, false) := by
  obtain ⟨d, hm, hd⟩ := hR
  obtain ⟨e, em, eo, en⟩ := h
  have od : onPath R p d = true := onPath_iff.mpr (fun q _ => by rw [hd])
  simp only [sampled, Prod.mk.injEq, List.all_eq_false]
  cases hb : R.getLsbD p
  · rw [hb] at en
    refine ⟨⟨d, hm, ?_⟩, ⟨e, em, ?_⟩⟩
    · simp [od, hd, hb]
    · simpa [eo] using en
  · rw [hb] at en
    refine ⟨⟨e, em, ?_⟩, ⟨d, hm, ?_⟩⟩
    · simpa [eo] using en
    · simp [od, hd, hb]

theorem sampled_agreed {ds : List Device} {R : RomCode} {p : Nat} (hR : ∃ d ∈ ds, d.rom = R) (h : ¬ mixed ds R p) :
    sampled ds R p = (R.getLsbD p, !R.getLsbD p) := by
  obtain ⟨d, hm, hd⟩ := hR
  have od : onPath R p d = true := onPath_iff.mpr (fun q _ => by rw [hd])
  have agree : ∀ e ∈ ds, onPath R p e = true → e.rom.getLsbD p = R.getLsbD p := by
    intro e em eo
    by_contra hn
    exact h ⟨e, em, eo, hn⟩
  simp only [sampled, Prod.mk.injEq]
  cases hb : R.getLsbD p
  · refine ⟨List.all_eq_false.mpr ⟨d, hm, by simp [od, hd, hb]⟩, List.all_eq_true.mpr ?_⟩
    intro e em
    cases eo : onPath R p e
    · simp
    · simp [agree e em eo, hb]
  · refine ⟨List.all_eq_true.mpr ?_, List.all_eq_false.mpr ⟨d, hm, by simp [od, hd, hb]⟩⟩
    intro e em
    cases eo : onPath R p e
    · simp
    · simp [agree e em eo, hb]

/-- n is the highest bit number whose 1-branch the code R leaves unexplored, 0 if there is none. -/
def openBranch (ds : List Device) (R : RomCode) (n : Nat) : Prop :=
  n ≤ 64 ∧ (n = 0 ∨ (1 ≤ n ∧ mixed ds R (n - 1) ∧ R.getLsbD (n - 1) = false)) ∧
    ∀ m, n < m → m ≤ 64 → ¬ (mixed ds R (m - 1) ∧ R.getLsbD (m - 1) = false)

theorem openBranch_of {ds : List Device} {r : SearchReg} {R : RomCode} {n : Nat} (hR : ∃ d ∈ ds, d.rom = R)
    (hdir : ∀ p, p < 64 → R.getLsbD p = passDir r p (sampled ds R p))
    (h : lastDeferred r ((List.range 64).map (sampled ds R)) 64 n) : openBranch ds R n := by
  have key : ∀ m, 1 ≤ m → m ≤ 64 →
      (deferred r ((List.range 64).map (sampled ds R)) m ↔ mixed ds R (m - 1) ∧ R.getLsbD (m - 1) = false) := by
    intro m h1 h2
    have hg : ((List.range 64).map (sampled ds R))[m - 1]? = some (sampled ds R (m - 1)) := by
      simp [show m - 1 < 64 by omega]
    unfold deferred
    rw [hg, hdir (m - 1) (by omega)]
    by_cases hm : mixed ds R (m - 1)
    · rw [sampled_mixed hR hm]
      simp [hm, h1]
    · rw [sampled_agreed hR hm]
      constructor
      · rintro ⟨-, he, -⟩
        cases hb : R.getLsbD (m - 1) <;> simp [hb] at he
      · exact fun hh => absurd hh.1 hm
  obtain ⟨a, b, c⟩ := h
  refine ⟨a, ?_, fun m h1 h2 => (key m (by omega) h2).not.mp (c m h1 h2)⟩
  rcases b with b | b
  · exact .inl b
  · have h1 : 1 ≤ n := b.1
    exact .inr ⟨h1, (key n h1 a).mp b⟩

theorem dir_mixed {ds : List Device} {r : SearchReg} {R : RomCode} (hR : ∃ d ∈ ds, d.rom = R)
    (hdir : ∀ p, p < 64 → R.getLsbD p = passDir r p (sampled ds R p)) {p : Nat} (hp : p < 64) (hm : mixed ds R p) :
    R.getLsbD p = preferred r p := by
  rw [hdir p hp, sampled_mixed hR hm]; rfl

/-- Two different codes have a first bit where they differ. -/
theorem exists_first_diff {a b : RomCode} (h : a ≠ b) :
    ∃ p, p < 64 ∧ (∀ q, q < p → a.getLsbD q = b.getLsbD q) ∧ a.getLsbD p ≠ b.getLsbD p := by
  have hex : ∃ p, a.getLsbD p ≠ b.getLsbD p := by
    by_contra hc
    push Not at hc
    exact h (BitVec.eq_of_getLsbD_eq fun i _ => hc i)
  classical
  refine ⟨Nat.find hex, ?_, ?_, Nat.find_spec hex⟩
  · by_contra hc
    have := Nat.find_spec hex
    rw [BitVec.getLsbD_of_ge a _ (by omega), BitVec.getLsbD_of_ge b _ (by omega)] at this
    exact this rfl
  · intro q hq
    by_contra hc
    exact Nat.find_min hex hq hc

theorem lineBefore_total {a b : RomCode} (h : a ≠ b) : lineBefore a b ∨ lineBefore b a := by
  obtain ⟨p, -, h1, h2⟩ := exists_first_diff h
  cases ha : a.getLsbD p
  · left; exact ⟨p, h1, ha, by cases hb : b.getLsbD p <;> simp_all⟩
  · right; exact ⟨p, fun q hq => (h1 q hq).symm, by cases hb : b.getLsbD p <;> simp_all, ha⟩

theorem lineBefore_irrefl (a : RomCode) : ¬ lineBefore a a := by
  rintro ⟨p, -, h1, h2⟩; rw [h1] at h2; cases h2

theorem lineBefore_trans {a b c : RomCode} (h1 : lineBefore a b) (h2 : lineBefore b c) : lineBefore a c := by
  obtain ⟨p, p1, p2, p3⟩ := h1
  obtain ⟨q, q1, q2, q3⟩ := h2
  rcases Nat.lt_trichotomy p q with h | h | h
  · exact ⟨p, fun i hi => (p1 i hi).trans (q1 i (by omega)), p2, by rw [← q1 p h]; exact p3⟩
  · subst h; rw [p3] at q2; cases q2
  · exact ⟨q, fun i hi => (p1 i (by omega)).trans (q1 i hi), by rw [p1 q h]; exact q2, q3⟩

/-- A code that the devices' bits and zero-branches lead to is before every other device's. -/
theorem least_from {ds : List Device} {R : RomCode} {n : Nat}
    (hz : ∀ p, p < 64 → n ≤ p → mixed ds R p → R.getLsbD p = false) {d : Device} (hd : d ∈ ds)
    (hp : ∀ q, q < n → d.rom.getLsbD q = R.getLsbD q) (hne : d.rom ≠ R) : lineBefore R d.rom := by
  obtain ⟨p, p1, p2, p3⟩ := exists_first_diff hne
  have hn : n ≤ p := by
    by_contra hc
    exact p3 (hp p (by omega))
  have hm : mixed ds R p := ⟨d, hd, onPath_iff.mpr p2, p3⟩
  have h0 := hz p p1 hn hm
  exact ⟨p, fun q hq => (p2 q hq).symm, h0, by cases hb : d.rom.getLsbD p <;> simp_all⟩

/-- The first pass finds the least code. -/
theorem first_least {ds : List Device} {r : SearchReg} {R : RomCode} (hR : ∃ d ∈ ds, d.rom = R)
    (hr : r.ld = 0#7) (hdir : ∀ p, p < 64 → R.getLsbD p = passDir r p (sampled ds R p)) :
    ∀ d ∈ ds, d.rom ≠ R → lineBefore R d.rom := by
  intro d hd hne
  refine least_from (n := 0) ?_ hd (by omega) hne
  intro p hp _ hm
  rw [dir_mixed hR hdir hp hm]
  simp [preferred, hr]

/-- With no open branch a code is the greatest. -/
theorem last_greatest {ds : List Device} {c : RomCode} (h : openBranch ds c 0) :
    ∀ d ∈ ds, ¬ lineBefore c d.rom := by
  rintro d hd ⟨p, p1, p2, p3⟩
  have hp : p < 64 := by
    by_contra hc
    rw [BitVec.getLsbD_of_ge _ _ (by omega)] at p3
    cases p3
  exact h.2.2 (p + 1) (by omega) (by omega) ⟨⟨d, hd, onPath_iff.mpr fun q hq => (p1 q hq).symm, by simp [p2, p3]⟩, p2⟩

/-- The pass after the code c, at its open branch n, finds the next code. -/
theorem next_successor {ds : List Device} {r : SearchReg} {R c : RomCode} {n : Nat} (hR : ∃ d ∈ ds, d.rom = R)
    (hc : ∃ d ∈ ds, d.rom = c) (hn : 1 ≤ n) (ho : openBranch ds c n) (hl : r.ld = BitVec.ofNat 7 n) (hrom : r.rom = c)
    (hdir : ∀ p, p < 64 → R.getLsbD p = passDir r p (sampled ds R p)) :
    lineBefore c R ∧ ∀ d ∈ ds, lineBefore c d.rom → d.rom ≠ R → lineBefore R d.rom := by
  obtain ⟨o1, o2, o3⟩ := ho
  obtain ⟨-, om, ob⟩ := o2.resolve_left (by omega)
  have hld : r.ld.toNat = n := by rw [hl, BitVec.toNat_ofNat]; omega
  have pref : ∀ p, preferred r p = if p + 1 < n then c.getLsbD p else decide (p + 1 = n) := by
    intro p; simp only [preferred, hld, hrom]
  obtain ⟨dc, dm, de⟩ := hc
  have below : ∀ p, p < n - 1 → R.getLsbD p = c.getLsbD p := by
    intro p
    induction p using Nat.strong_induction_on with
    | _ p ih =>
      intro hp
      by_cases hm : mixed ds R p
      · rw [dir_mixed hR hdir (by omega) hm, pref, if_pos (by omega)]
      · by_contra hne
        exact hm ⟨dc, dm, onPath_iff.mpr fun q hq => by rw [de, ih q hq (by omega)],
            by rw [de]; exact fun e => hne e.symm⟩
  have hmR : mixed ds R (n - 1) := by
    obtain ⟨e, em, eo, en⟩ := om
    have onR : ∀ x : Device, onPath c (n - 1) x = true → onPath R (n - 1) x = true := by
      intro x hx
      exact onPath_iff.mpr fun q hq => by rw [below q hq]; exact onPath_iff.mp hx q hq
    have oc : onPath c (n - 1) dc = true := onPath_iff.mpr fun q _ => by rw [de]
    by_cases hb : R.getLsbD (n - 1) = c.getLsbD (n - 1)
    · exact ⟨e, em, onR e eo, by rw [hb]; exact en⟩
    · exact ⟨dc, dm, onR dc oc, by rw [de]; exact fun e => hb e.symm⟩
  have at1 : R.getLsbD (n - 1) = true := by
    rw [dir_mixed hR hdir (by omega) hmR, pref, if_neg (by omega)]
    simp; omega
  have above : ∀ p, p < 64 → n ≤ p → mixed ds R p → R.getLsbD p = false := by
    intro p hp hnp hm
    rw [dir_mixed hR hdir hp hm, pref, if_neg (by omega)]
    simp; omega
  refine ⟨⟨n - 1, fun q hq => (below q hq).symm, ob, at1⟩, ?_⟩
  rintro d hd ⟨p, p1, p2, p3⟩ hne
  have hp : p < 64 := by
    by_contra hc
    rw [BitVec.getLsbD_of_ge _ _ (by omega)] at p3
    cases p3
  have hpn : p + 1 ≤ n := by
    by_contra hc
    exact o3 (p + 1) (by omega) (by omega) ⟨⟨d, hd, onPath_iff.mpr fun q hq => (p1 q hq).symm, by simp [p2, p3]⟩, p2⟩
  rcases Nat.lt_or_ge (p + 1) n with h | h
  · exact ⟨p, fun q hq => by rw [below q (by omega)]; exact p1 q hq, by rw [below p (by omega)]; exact p2, p3⟩
  · have e : p = n - 1 := by omega
    refine least_from (n := n) above hd ?_ hne
    intro q hq
    by_cases hq1 : q = n - 1
    · subst hq1; rw [at1, ← e]; exact p3
    · rw [below q (by omega)]; exact (p1 q (by omega)).symm

/-- Whether the devices disagree depends on their codes alone. -/
theorem mixed_iff {ds : List Device} {R : RomCode} {p : Nat} :
    mixed ds R p ↔ ∃ x ∈ ds.map (fun d => d.rom), (∀ q, q < p → x.getLsbD q = R.getLsbD q) ∧
        x.getLsbD p ≠ R.getLsbD p := by
  simp only [mixed, onPath_iff, List.mem_map, exists_exists_and_eq_and]

/-- So does the open branch. -/
theorem openBranch_congr {ds es : List Device} (h : ds.map (fun d => d.rom) = es.map fun d => d.rom) {R : RomCode} {n
    : Nat} :
    openBranch ds R n ↔ openBranch es R n := by
  simp only [openBranch, mixed_iff, h]

/-- The devices of a pass keep their codes. -/
theorem searching_roms (ds : List Device) (R : RomCode) (p : Nat) :
    ∃ es, searching ds R p = .reference es ∧ es.map (fun d => d.rom) = ds.map fun d => d.rom :=
  ⟨_, rfl, by simp [Function.comp_def]⟩

/-- Distinct codes can be put in the order of R631. -/
theorem sorted_exists (l : List RomCode) (h : l.Nodup) : ∃ m : List RomCode, m.Perm l ∧ m.Pairwise lineBefore := by
  induction l with
  | nil => exact ⟨[], .refl _, .nil⟩
  | cons a l ih =>
    obtain ⟨m, p, q⟩ := ih (List.nodup_cons.mp h).2
    have ha : a ∉ m := fun hm => (List.nodup_cons.mp h).1 (p.mem_iff.mp hm)
    suffices H : ∀ m : List RomCode, m.Pairwise lineBefore → a ∉ m → ∃ m' : List RomCode, m'.Perm (a :: m) ∧
        m'.Pairwise lineBefore by
      obtain ⟨m', p', q'⟩ := H m q ha
      exact ⟨m', p'.trans (p.cons a), q'⟩
    intro m q ha
    clear p h
    induction m with
    | nil => exact ⟨[a], .refl _, by simp⟩
    | cons b m ihm =>
      obtain ⟨hb, hm⟩ := List.pairwise_cons.mp q
      have hab : a ≠ b := fun e => ha (by simp [e])
      rcases lineBefore_total hab with t | t
      · refine ⟨a :: b :: m, .refl _, List.pairwise_cons.mpr ⟨?_, q⟩⟩
        intro x hx
        rcases List.mem_cons.mp hx with rfl | hx
        · exact t
        · exact lineBefore_trans t (hb x hx)
      · obtain ⟨m', p', q'⟩ := ihm hm (fun hx => ha (List.mem_cons_of_mem _ hx))
        refine ⟨b :: m', (p'.cons b).trans (List.Perm.swap a b m), List.pairwise_cons.mpr ⟨?_, q'⟩⟩
        intro x hx
        rcases List.mem_cons.mp (p'.mem_iff.mp hx) with rfl | hx
        · exact t
        · exact hb x hx

end Sys2Proof.Machine
end

