-- ==== Sys2Proof/Laws/Invariant.lean ====
section
/-! SUPPORT. Each move of the engine, each move of the sequencer and each command keeps the invariant of
Safety.lean. -/

namespace Sys2Proof.Machine

/-- A state with nothing in progress meets the invariant when its parameters, handle, line, CFG and search state do. -/
theorem inv_of_quiet {s : State} (hp : s.params.ok = true) (hst : s.engine = .stopped ↔ s.handle = none) (hd : s.LineOk)
    (hq : s.Quiet) (ht : s.cfg.thresh.toNat ≤ s.params.rxqDepth) (hs : s.srch.Ok) : s.Inv := by
  obtain ⟨h1, h2, h3, h4⟩ := hq
  have hpend : s.pendingSlots = [] := by simp [State.pendingSlots, h1, h2]
  have hw : s.wanted = 0 := by simp [State.wanted, h1]
  have hg : s.goesOn = false := by simp [State.goesOn, h1]
  refine ⟨hp, hst, hd, fun _ => ⟨hpend, hg⟩, fun _ => ⟨h1, h2, h3, h4⟩, by simp [h2, h3], ?_, ?_, ?_, ?_, ht, ?_⟩
  · rw [State.outstanding, hpend, hw, h3]
    rcases h4 with h | h <;> simp [h, Engine.awaited]
  · rw [hpend]; rfl
  · intro h; rw [hg] at h; simp at h
  · intro q i h; rw [h1] at h; simp at h
  · simp only [State.SearchOk, h1]; exact hs

theorem lineOk_idle {s : State} (h : s.engine = .idle) : s.LineOk ↔ s.line ≠ .low := by simp [State.LineOk, h]
theorem lineOk_stopped {s : State} (h : s.engine = .stopped) : s.LineOk ↔ s.line = .rel := by simp [State.LineOk, h]

theorem releaseLine_low (k : Slot) : releaseLine k ≠ .low := by cases k <;> simp [releaseLine]

theorem runSlot_line (s : State) (k : Slot) : (s.runSlot k).line = releaseLine k := by
  cases h : slotSamples k
  · simp only [runSlot_write _ h]
  · simp only [runSlot_sample _ h]; cases k <;> simp_all [slotSamples, releaseLine]

/-- A run of slots leaves the engine waiting and the line not low. -/
theorem runSlots_idle (s : State) (ks : List Slot) (h : s.engine = .idle) (hl : s.line ≠ .low) :
    (s.runSlots ks).engine = .idle ∧ (s.runSlots ks).line ≠ .low := by
  induction ks generalizing s with
  | nil => exact ⟨h, hl⟩
  | cons k ks ih => exact ih _ (runSlot_engine s k) (by rw [runSlot_line]; exact releaseLine_low k)

/-- What a completed bus command leaves: nothing in flight, the line not low, the handle, the parameters and CFG of `s`. -/
structure AtRest (s t : State) : Prop where
  e : t.engine = .idle
  l : t.line ≠ .low
  q : t.txq = []
  r : t.rxq = []
  h : t.handle = s.handle
  p : t.params = s.params
  c : t.cfg = s.cfg

/-- A state in the middle of a command of `s`, whose queued slots settle with no sample left over. -/
structure Settles (s t : State) : Prop where
  e : t.settle.engine = .idle
  l : t.settle.line ≠ .low
  r : t.settle.rxq = []
  h : t.handle = s.handle
  p : t.params = s.params
  c : t.cfg = s.cfg

theorem Settles.slot {s t : State} (h : Settles s t) (k : Slot) (hk : slotSamples k = true) : Settles s (t.slot k).2
    := by
  have := slot_sample h.e (settle_txq t) h.r hk
  rw [slot_settle] at this
  have hrest : (t.slot k).2.settle = (t.slot k).2 := by
    rw [this]; exact settle_rest (.inl h.e) (settle_txq t)
  have f := fromSlots_slot t k
  refine ⟨?_, ?_, ?_, by rw [f.handle, h.h], by rw [f.params, h.p], by rw [f.cfg, h.c]⟩
  · rw [hrest, this]; exact h.e
  · rw [hrest, this]; simp
  · rw [hrest, this]; exact h.r

theorem runSlots_rxq_of_noSample (s : State) (ks : List Slot) (hk : ∀ k ∈ ks,
    slotSamples k = false) : (s.runSlots ks).rxq = s.rxq := by
  induction ks generalizing s with
  | nil => rfl
  | cons k ks ih =>
    rw [State.runSlots, ih _ (fun k' h' => hk k' (by simp [h'])), runSlot_write _ (hk k (by simp))]

theorem Settles.queue {s t : State} (h : Settles s t) (ks : List Slot) (hk : ∀ k ∈ ks,
    slotSamples k = false) : Settles s (t.queue ks) := by
  have e := settle_queue t ks
  obtain ⟨a, b⟩ := runSlots_idle t.settle ks h.e h.l
  refine ⟨by rw [e]; exact a, by rw [e]; exact b, by rw [e, runSlots_rxq_of_noSample _ _ hk]; exact h.r, h.h, h.p, h.c⟩

theorem Settles.srch {s t : State} (h : Settles s t) (r : SearchReg) : Settles s { t with srch := r } := by
  have := settle_srch t r
  exact ⟨by rw [this]; exact h.e, by rw [this]; exact h.l, by rw [this]; exact h.r, h.h, h.p, h.c⟩

theorem Settles.fin {s t : State} (h : Settles s t) (r : ResultReg) : AtRest s (t.finishWith r) ∧
    (t.finishWith r).seq = none := by
  have f := fromSlots_settle t
  refine ⟨⟨h.e, h.l, settle_txq t, h.r, ?_, ?_, ?_⟩, rfl⟩
  · show t.settle.handle = _; rw [f.handle, h.h]
  · show t.settle.params = _; rw [f.params, h.p]
  · show t.settle.cfg = _; rw [f.cfg, h.c]

theorem writes_noSample (bits : List Bool) : ∀ k ∈ bits.map writeSlot, slotSamples k = false := by
  intro k hk
  simp only [List.mem_map] at hk
  obtain ⟨b, -, rfl⟩ := hk
  cases b <;> rfl

theorem Settles.scan {s : State} (n : Nat) : ∀ sc (t : State), Settles s t → AtRest s (scanBits n sc t) ∧
    (scanBits n sc t).seq = none := by
  induction n with
  | zero =>
    intro sc t h
    unfold scanBits scanEnd
    have : Settles s (t.verdict sc).2 := by
      unfold State.verdict; dsimp only
      split
      · exact h.srch _
      · split <;> exact h.srch _
    exact this.fin _
  | succ n ih =>
    intro sc t h
    unfold scanBits scanCmp; rw [scanWrite_eq]
    dsimp only
    have h2 := (h.slot .rd rfl).slot .rd rfl
    split
    · exact ((h2.queue _ (writes_noSample [_])).srch _).fin _
    · exact ih _ _ ((h2.queue _ (writes_noSample [_])).srch _)

theorem select_noSample (r : RomCode) : ∀ k ∈ selectSlots r, slotSamples k = false := by
  intro k hk
  simp only [selectSlots, byteSlots, List.mem_append] at hk
  rcases hk with hk | hk <;> exact writes_noSample _ k hk

theorem commandSteps_atRest {s : State} (i : Instr) (hi : i.slot? = none) (hni : ∀ p d e,
    i ≠ .init p d e) (hnt : i ≠ .teardown) (hnf : ∀ t, i ≠ .setFifoThresh t)
    (he : s.engine = .idle) (hl : s.line ≠ .low) (hq : s.txq = []) (hr : s.rxq = []) : AtRest s (commandSteps i s) ∧
       (commandSteps i s).seq = none := by
  have hs : s.settle = s := settle_rest (.inl he) hq
  have h0 : Settles s s := ⟨by rw [hs]; exact he, by rw [hs]; exact hl, by rw [hs]; exact hr, rfl, rfl, rfl⟩
  have now : ∀ (r : SearchReg) x, AtRest s (({ s with srch := r } : State).complete x) ∧ (({ s with srch :=
      r } : State).complete x).seq = none := by
    intro r x; exact ⟨⟨he, hl, hq, hr, rfl, rfl, rfl⟩, rfl⟩
  have pass : ∀ (c : Byte) (r : SearchReg), AtRest s (searchPass c { s with srch := r }) ∧
      (searchPass c { s with srch := r }).seq = none := by
    intro c r
    unfold searchPass
    split
    · exact now _ _
    · dsimp only; unfold searchPresence
      have h2 := (h0.srch { r with crc8 := 0#8 }).slot .rst rfl
      split
      · exact (h2.srch _).fin _
      · exact Settles.scan _ _ _ (h2.queue _ (writes_noSample _))
  cases i with
  | init p d e => exact absurd rfl (hni p d e)
  | teardown => exact absurd rfl hnt
  | setFifoThresh t => exact absurd rfl (hnf t)
  | waitIdle => exact h0.fin _
  | reset => exact (h0.slot .rst rfl).fin _
  | writeByte d => exact (h0.queue _ (writes_noSample _)).fin _
  | writeBytePwr d =>
    refine (h0.queue _ ?_).fin _
    intro k hk
    simp only [byteSlotsPwr, List.mem_append, List.mem_singleton] at hk
    rcases hk with hk | rfl
    · exact writes_noSample _ k hk
    · cases d.getLsbD 7 <;> rfl
  | endPower =>
    refine (h0.queue _ ?_).fin _
    intro k hk
    unfold endPowerSlots at hk
    split at hk
    · simp at hk; subst hk; rfl
    · simp at hk
  | readByte =>
    have : ∀ n i acc t, Settles s t → Settles s (readBits n i acc t).2 := by
      intro n
      induction n with
      | zero => intro i acc t h; exact h
      | succ n ih => intro i acc t h; exact ih _ _ _ (h.slot .rd rfl)
    exact (this 8 0 0#8 s h0).fin _
  | triplet pref => exact (((h0.slot .rd rfl).slot .rd rfl).queue _ (writes_noSample [_])).fin _
  | crc8Upd a d => exact now s.srch _
  | searchReset => exact now s.resetTracking.srch _
  | search c => exact pass c s.srch
  | first => exact pass 0xF0#8 s.resetTracking.srch
  | next => exact pass 0xF0#8 s.srch
  | select =>
    refine ((h0.slot .rst rfl).queue _ ?_).fin _
    intro k hk
    split at hk
    · simp at hk
    · exact select_noSample _ k hk
  | slotRst => simp [Instr.slot?] at hi
  | slotW0 => simp [Instr.slot?] at hi
  | slotW1 => simp [Instr.slot?] at hi
  | slotRd => simp [Instr.slot?] at hi
  | slotRel => simp [Instr.slot?] at hi
  | slotW0Pwr => simp [Instr.slot?] at hi
  | slotW1Pwr => simp [Instr.slot?] at hi

theorem finishWith_srch_ok {t : State} {r} (h : t.srch.Ok) : (t.finishWith r).srch.Ok :=
    by rw [finishWith_srch]; exact h

theorem discardRom_srch_ok (t : State) : t.discardRom.srch.Ok := by
  simp [SearchReg.Ok]
theorem resetTracking_srch_ok (t : State) (h : t.srch.rom = 0#64 ∨ (crc8Buffer (romBytes t.srch.rom) = 0#8 ∧
    romByte t.srch.rom 0 ≠ 0#8)) : t.resetTracking.srch.Ok := by
  simp [SearchReg.Ok]; exact h

theorem scanBits_srch_ok (k : Nat) : ∀ sc s, sc.p + k = 64 →
    s.srch.crc8 = crc8Buffer ((romBytes s.srch.rom).take (sc.p / 8)) →
    sc.lastZero ≤ sc.p → sc.lastFam ≤ 8 → sc.lastFam ≤ sc.lastZero → (scanBits k sc s).srch.Ok := by
  induction k with
  | zero =>
    intro sc s hp hc hz hf hfz
    have h64 : sc.p = 64 := by omega
    rw [h64, List.take_of_length_le (by simp [romBytes])] at hc
    simp only [scanBits, scanEnd, State.verdict]
    split
    · exact finishWith_srch_ok (discardRom_srch_ok _)
    · rename_i h1
      split
      · exact finishWith_srch_ok (discardRom_srch_ok _)
      · rename_i h2
        have h1 : s.srch.crc8 = 0#8 := by simpa using h1
        apply finishWith_srch_ok
        simp only [SearchReg.Ok, SearchReg.track]
        have a1 : (BitVec.ofNat 7 sc.lastZero).toNat = sc.lastZero := by simp; omega
        have a2 : (BitVec.ofNat 4 sc.lastFam).toNat = sc.lastFam := by simp; omega
        rw [a1, a2]
        refine ⟨by omega, hf, hfz, ?_, .inr ⟨by rw [← hc, h1], h2⟩⟩
        intro h; simp at h
        have : sc.lastFam = 0 := by omega
        simp [h, this]
  | succ k ih =>
    intro sc s hp hc hz hf hfz
    simp only [scanBits, scanCmp, scanWrite_eq]
    split
    · exact finishWith_srch_ok (discardRom_srch_ok _)
    · apply ih
      · simp [Scan.after]; omega
      · have hs : ((s.slot .rd).2.slot .rd).2.srch = s.srch := by rw [(fromSlots_slot _ _).srch,
            (fromSlots_slot _ _).srch]
        simp only [queue_srch, hs, SearchReg.store, Scan.after]
        generalize direction _ _ _ = dir
        have hn : sc.p < 64 := by omega
        have hcong : ∀ k, 8 * k ≤ sc.p →
          (romBytes (withBit s.srch.rom sc.p dir)).take k = (romBytes s.srch.rom).take k := by
          intro k hk
          refine romBytes_take_congr fun p hp => ?_
          rw [getLsbD_withBit, if_neg (by omega)]
        by_cases h7 : sc.p % 8 = 7
        · rw [if_pos h7, hc, ← hcong (sc.p / 8) (by omega)]
          have e : (sc.p + 1) / 8 = sc.p / 8 + 1 := by omega
          rw [e, romBytes_map, ← List.map_take, ← List.map_take, List.take_range, List.take_range]
          rw [Nat.min_eq_left (by omega), Nat.min_eq_left (by omega), List.range_succ, List.map_append]
          simp [crc8Buffer, crc8Fold]
        · rw [if_neg h7, hc]
          have e : (sc.p + 1) / 8 = sc.p / 8 := by omega
          rw [e, hcong (sc.p / 8) (by omega)]
      all_goals
        generalize direction _ _ _ = dir
        generalize (s.slot .rd).1 = a
        generalize ((s.slot .rd).2.slot .rd).1 = b
        cases dir <;> cases a <;> cases b <;> simp [Scan.after]
        repeat' split
        all_goals omega

theorem searchPass_srch_ok (c : Byte) (s : State) (h : s.srch.rom = 0#64 ∨ (crc8Buffer (romBytes s.srch.rom) = 0#8 ∧
    romByte s.srch.rom 0 ≠ 0#8)) : (searchPass c s).srch.Ok := by
  unfold searchPass
  split
  · exact resetTracking_srch_ok s.zeroCrc h
  · dsimp only; unfold searchPresence
    split
    · apply finishWith_srch_ok
      apply resetTracking_srch_ok
      rw [(fromSlots_slot _ _).srch]; exact h
    · refine scanBits_srch_ok _ _ _ rfl ?_ (Nat.le_refl _) (by simp [Scan.start]) (Nat.le_refl _)
      simp only [queue_srch, (fromSlots_slot _ _).srch]
      rfl

theorem commandSteps_srch_ok (i : Instr) (s : State) (h : s.srch.Ok) : (commandSteps i s).srch.Ok := by
  have hr := h.2.2.2.2
  cases i <;> simp only [commandSteps]
  · unfold initSteps; dsimp only
    have hc : ∀ t : State, t.claim.2.srch = t.srch := by
      intro t; unfold State.claim; split <;> rfl
    split
    · rw [complete_srch, hc]; exact h
    · simp [State.withClaim, SearchReg.Ok]
  · have : (teardownSteps s).srch = s.srch := by unfold teardownSteps; dsimp only; split <;> rfl
    rw [this]; exact h
  · exact h
  · exact finishWith_srch_ok h
  · exact finishWith_srch_ok (by rw [(fromSlots_slot _ _).srch]; exact h)
  · exact finishWith_srch_ok h
  · exact finishWith_srch_ok h
  · exact finishWith_srch_ok h
  · exact finishWith_srch_ok (by rw [(fromSlots_readBits _ _ _ _).srch]; exact h)
  · exact finishWith_srch_ok (by rw [queue_srch, (fromSlots_slot _ _).srch, (fromSlots_slot _ _).srch]; exact h)
  · exact h
  · exact resetTracking_srch_ok s hr
  · exact searchPass_srch_ok _ _ hr
  · exact searchPass_srch_ok _ s.resetTracking hr
  · exact searchPass_srch_ok _ _ hr
  · exact finishWith_srch_ok (by rw [queue_srch, (fromSlots_slot _ _).srch]; exact h)
  all_goals exact h

/-- A command whose checks pass keeps the invariant, from a state with nothing in flight. -/
theorem commandSteps_inv_of_rest {s : State} (h : s.Inv) (q2 : s.txq = []) (q3 : s.rxq = []) (q4 : s.engine = .idle ∨
    s.engine = .stopped) (i : Instr) (hi : i.slot? = none) (hf : commandFault i s = none) (hsr : (commandSteps i
    s).srch.Ok) : (commandSteps i s).Inv := by
  by_cases ci : ∃ p d e, i = .init p d e
  · obtain ⟨p, d, e, rfl⟩ := ci
    simp only [commandFault, State.initFault] at hf
    split at hf
    · simp at hf
    rename_i hn
    have hn : s.handle = none := by simpa using hn
    have hc : ∀ t : State, t.claim.2 = { t with pool := t.claim.2.pool, draws := t.claim.2.draws } := by
      intro t; unfold State.claim; split <;> rfl
    simp only [commandSteps, initSteps] at hsr ⊢
    split
    · rename_i hcl
      simp only [hcl] at hsr
      rw [hc] at hsr ⊢
      exact inv_of_quiet h.params h.stopped h.driven ⟨rfl, q2, q3, q4⟩ h.thresh hsr
    · rename_i hcl
      simp only [hcl] at hsr
      rw [hc] at hsr ⊢
      refine inv_of_quiet h.params (by simp [State.withClaim]) ?_ ⟨rfl, rfl, rfl,
          .inl rfl⟩ (by simp [State.withClaim]) hsr
      rw [lineOk_idle rfl]; simp [State.withClaim]
  by_cases ct : i = .teardown
  · subst ct
    simp only [commandSteps] at hsr ⊢
    refine inv_of_quiet ?_ ?_ ?_ ⟨rfl, ?_, ?_, .inr rfl⟩ ?_ hsr
    all_goals unfold teardownSteps; dsimp only
    all_goals try (split <;> simp [h.params, q2, q3, h.thresh])
    · exact (lineOk_stopped rfl).mpr rfl
    · exact (lineOk_stopped rfl).mpr rfl
  have hh : s.handle ≠ none ∨ ∃ a d, i = .crc8Upd a d := by
    by_cases hc : ∃ a d, i = .crc8Upd a d
    · exact .inr hc
    left
    intro hn
    have hN : s.handle.isNone = true := by simp [hn]
    cases i <;> simp only [Instr.slot?, reduceCtorEq] at hi <;> simp only [commandFault, State.unclaimedFault,
        State.busFault, hN, if_true, reduceCtorEq] at hf
    · exact ci ⟨_, _, _, rfl⟩
    · exact hc ⟨_, _, rfl⟩
  rcases hh with hh | ⟨a, d, rfl⟩
  · have he : s.engine = .idle := by
      rcases q4 with h' | h'
      · exact h'
      · exact absurd (h.stopped.mp h') hh
    have hl : s.line ≠ .low := (lineOk_idle he).mp h.driven
    by_cases cf : ∃ t, i = .setFifoThresh t
    · obtain ⟨t, rfl⟩ := cf
      refine inv_of_quiet h.params h.stopped h.driven ⟨rfl, q2, q3, q4⟩ ?_ hsr
      simp only [commandSteps, setFifoThreshSteps, complete_cfg, complete_params, clampThresh]
      have := Nat.mod_le (min t.toNat s.params.rxqDepth) (2^8)
      simp only [BitVec.toNat_ofNat]
      omega
    · obtain ⟨act, hseq⟩ := commandSteps_atRest i hi (fun p d e hh => ci ⟨p, d, e, hh⟩) ct (fun t hh => cf ⟨t,
          hh⟩) he hl q2 q3
      refine inv_of_quiet (by rw [act.p]; exact h.params) ?_ ((lineOk_idle act.e).mpr act.l) ⟨hseq, act.q, act.r,
          .inl act.e⟩ (by rw [act.c, act.p]; exact h.thresh) hsr
      rw [act.e, act.h]; simp [hh]
  · exact inv_of_quiet h.params h.stopped h.driven ⟨rfl, q2, q3, q4⟩ h.thresh hsr

theorem handle_of_checked {s : State} (i : Instr) (hi : i.slot? = none) (hf : commandFault i s = none) (ci : ∀ p d e,
    i ≠ .init p d e) (hc : ∀ a d, i ≠ .crc8Upd a d) : s.handle ≠ none := by
  intro hn
  have hN : s.handle.isNone = true := by simp [hn]
  cases i <;> simp only [Instr.slot?, reduceCtorEq] at hi <;> simp only [commandFault, State.unclaimedFault,
      State.busFault, hN, if_true, reduceCtorEq] at hf
  · exact ci _ _ _ rfl
  · exact hc _ _ rfl

theorem commandSteps_inv {s : State} (h : s.Inv) (hq : s.seq = none) (i : Instr) (hi : i.slot? = none) (hf :
    commandFault i s = none) : (commandSteps i s).Inv := by
  obtain ⟨q1, q2, q3, q4⟩ := h.quiet hq
  have hs : s.srch.Ok := by have := h.search; simpa only [State.SearchOk, hq] using this
  exact commandSteps_inv_of_rest h q2 q3 q4 i hi hf (commandSteps_srch_ok i s hs)

theorem searchOk_congr {s t : State} (h1 : t.seq = s.seq) (h2 : t.srch = s.srch) (h : s.SearchOk) : t.SearchOk := by
  simp only [State.SearchOk, h1, h2] at h ⊢; exact h

theorem scan_after_ok {sc : Scan} {r : SearchReg} (h : sc.Ok r) (id cmp : Bool) (dir : Bool) : (sc.after id cmp
    dir).lastZero ≤ sc.p + 1 ∧ (sc.after id cmp dir).lastFam ≤ 8 ∧
    (sc.after id cmp dir).lastFam ≤ (sc.after id cmp dir).lastZero ∧ (sc.after id cmp dir).p = sc.p + 1 ∧
    (r.store sc.p dir).crc8 = crc8Buffer ((romBytes (r.store sc.p dir).rom).take ((sc.p + 1) / 8)) := by
  obtain ⟨h1, h2, h3, h4, hc⟩ := h
  refine ⟨?_, ?_, ?_, rfl, ?_⟩
  · cases dir <;> cases id <;> cases cmp <;> simp [Scan.after] <;> omega
  · cases dir <;> cases id <;> cases cmp <;> simp [Scan.after] <;> (try split) <;> omega
  · cases dir <;> cases id <;> cases cmp <;> simp [Scan.after] <;> (try split) <;> omega
  · simp only [SearchReg.store]
    have hcong : ∀ k, 8 * k ≤ sc.p →
      (romBytes (withBit r.rom sc.p dir)).take k = (romBytes r.rom).take k := by
      intro k hk
      refine romBytes_take_congr fun p hp => ?_
      rw [getLsbD_withBit, if_neg (by omega)]
    by_cases h7 : sc.p % 8 = 7
    · rw [if_pos h7, hc, ← hcong (sc.p / 8) (by omega)]
      have e : (sc.p + 1) / 8 = sc.p / 8 + 1 := by omega
      rw [e, romBytes_map, ← List.map_take, ← List.map_take, List.take_range, List.take_range]
      rw [Nat.min_eq_left (by omega), Nat.min_eq_left (by omega), List.range_succ, List.map_append]
      simp [crc8Buffer, crc8Fold]
    · rw [if_neg h7, hc]
      have e : (sc.p + 1) / 8 = sc.p / 8 := by omega
      rw [e, hcong (sc.p / 8) (by omega)]

theorem verdict_srch_ok {s : State} {nx : Scan} (hz : nx.lastZero ≤ 64) (hf : nx.lastFam ≤ 8) (hfz : nx.lastFam ≤
    nx.lastZero) (hc : s.srch.crc8 = crc8Buffer (romBytes s.srch.rom)) : (s.verdict nx).2.srch.Ok := by
  simp only [State.verdict]
  split
  · exact discardRom_srch_ok _
  · rename_i h1
    split
    · exact discardRom_srch_ok _
    · rename_i h2
      have h1 : s.srch.crc8 = 0#8 := by simpa using h1
      simp only [SearchReg.Ok, SearchReg.track]
      have a1 : (BitVec.ofNat 7 nx.lastZero).toNat = nx.lastZero := by simp; omega
      have a2 : (BitVec.ofNat 4 nx.lastFam).toNat = nx.lastFam := by simp; omega
      rw [a1, a2]
      refine ⟨by omega, hf, hfz, ?_, .inr ⟨by rw [← hc, h1], h2⟩⟩
      intro h; simp at h
      have : nx.lastFam = 0 := by omega
      simp [h, this]

theorem wanted_le (s : State) : s.wanted ≤ 1 := by
  unfold State.wanted; split
  · simp
  · rename_i q _; cases q.cont <;> simp [Cont.wanted]

theorem rxqDepth_pos {p : Params} (h : p.ok = true) : 1 ≤ p.rxqDepth ∧ 1 ≤ p.txqDepth := by
  simp only [Params.ok, Bool.and_eq_true, decide_eq_true_eq] at h
  tauto

theorem inv_rxq {s : State} (h : s.Inv) : s.rxq.length + s.engine.awaited ≤ 1 := by
  have := h.samples; have := wanted_le s
  simp only [State.outstanding] at *; omega

theorem pendingSlots_congr {s t : State} (h1 : t.seq = s.seq) (h2 : t.txq = s.txq) : t.pendingSlots = s.pendingSlots
    ∧ t.wanted = s.wanted ∧ t.goesOn = s.goesOn := by
  simp [State.pendingSlots, State.wanted, State.goesOn, h1, h2]

theorem nextPoint_inv {s : State} (h : s.Inv) : s.nextPoint.Inv := by
  rcases he : s.engine with _ | _ | ⟨k, ph⟩
  · rw [nextPoint_stopped he]; exact h
  · rw [nextPoint_idle he]; exact h
  have f := fromSlots_nextPoint s
  have ht := nextPoint_keeps_txq s
  obtain ⟨pc, wc, gc⟩ := pendingSlots_congr f.seq ht
  have hh : s.handle ≠ none := by intro hn; have := h.stopped.mpr hn; simp [he] at this
  have hsq : s.seq ≠ none := by intro hn; have := (h.quiet hn).2.2.2; simp [he] at this
  have key : s.nextPoint.engine ≠ .stopped ∧ s.nextPoint.LineOk ∧ s.nextPoint.lineAfterSlot = s.lineAfterSlot ∧
      s.nextPoint.rxq.length + s.nextPoint.engine.awaited = s.rxq.length + s.engine.awaited := by
    have hd := h.driven
    simp only [State.LineOk, he] at hd
    rcases ph with _ | _ | v
    · refine ⟨?_, ?_, ?_, ?_⟩ <;> simp [State.nextPoint, he, State.LineOk, State.lineAfterSlot, Engine.awaited]
    · simp only at hd
      cases hk : slotSamples k
      · refine ⟨?_, ?_, ?_, ?_⟩ <;> simp [State.nextPoint, he, hk, State.LineOk, State.lineAfterSlot, Engine.awaited,
            hd, releaseLine_low]
      · have hf : ∀ t : State, (t.samplePoint k).line = t.line := by
          intro t
          unfold State.samplePoint State.sampleLine; dsimp only
          split
          · rfl
          · rfl
          · rw [drawLevel_snd]
        refine ⟨?_, ?_, ?_, ?_⟩ <;> simp only [State.nextPoint, he, hk, if_true, State.LineOk, State.lineAfterSlot,
            Engine.awaited]
        · simp [State.samplePoint]
        · show (s.samplePoint k).line = _
          rw [hf]; exact hd
        · simp [State.samplePoint]
        · simp [State.samplePoint]
    · simp only at hd
      refine ⟨?_, ?_, ?_, ?_⟩ <;> simp [State.nextPoint, he, State.LineOk, State.lineAfterSlot, Engine.awaited, hd,
          releaseLine_low]
  obtain ⟨k1, k2, k3, k4⟩ := key
  have hr := inv_rxq h
  refine ⟨by rw [f.params]; exact h.params, ?_, k2, ?_, ?_, ?_, ?_, ?_, ?_, ?_, ?_, ?_⟩
  · rw [f.handle]; simp [k1, hh]
  · rw [f.handle]; intro hn; exact absurd hn hh
  · rw [f.seq]; intro hn; exact absurd hn hsq
  · rw [ht, f.params]; refine ⟨h.depths.1, ?_⟩
    have := (rxqDepth_pos h.params).1; omega
  · have hs := h.samples
    simp only [State.outstanding] at hs ⊢
    rw [pc, wc, k4]; exact hs
  · rw [k3, pc]; exact h.released
  · rw [k3, pc, gc]; exact h.waiting
  · intro q i hq hc
    rw [f.seq] at hq
    have := (h.start q i hq hc).2.2.2.2.1
    simp [he] at this
  · rw [f.cfg, f.params]; exact h.thresh
  · exact searchOk_congr f.seq f.srch h.search

theorem engineTurn_inv {s : State} (h : s.Inv) : s.engineTurn.Inv := by
  rcases he : s.engine with _ | _ | ⟨k, ph⟩
  · have : s.engineTurn = s := by simp [State.engineTurn, he]
    rw [this]; exact h
  · rcases ht : s.txq with _ | ⟨k, rest⟩
    · have : s.engineTurn = s := by simp [State.engineTurn, he, ht]
      rw [this]; exact h
    have hT : s.engineTurn = ({ s with txq := rest } : State).takeSlot k := by simp [State.engineTurn, he, ht]
    have f := fromSlots_engineTurn s
    have hh : s.handle ≠ none := by intro hn; have := h.stopped.mpr hn; simp [he] at this
    have hsq : s.seq ≠ none := by intro hn; have := (h.quiet hn).2.1; simp [ht] at this
    have hpend : s.pendingSlots = k :: s.engineTurn.pendingSlots := by
      have e : s.engineTurn.txq = rest := by rw [hT]; unfold State.takeSlot; split <;> rfl
      simp only [State.pendingSlots, f.seq, e, ht]
      split <;> rfl
    have wc : s.engineTurn.wanted = s.wanted := by simp [State.wanted, f.seq]
    have gc : s.engineTurn.goesOn = s.goesOn := by simp [State.goesOn, f.seq]
    have key : s.engineTurn.engine ≠ .stopped ∧ s.engineTurn.LineOk ∧ s.engineTurn.lineAfterSlot = releaseLine k ∧
        s.engineTurn.rxq = s.rxq ∧ s.engineTurn.engine.awaited = (if slotSamples k then 1 else 0) ∧
        s.engineTurn.txq = rest := by
      rw [hT]; unfold State.takeSlot
      split
      · rename_i hk; subst hk
        refine ⟨?_, ?_, ?_, ?_, ?_, ?_⟩ <;> simp [State.LineOk, State.lineAfterSlot, Engine.awaited, releaseLine,
            slotSamples]
      · refine ⟨?_, ?_, ?_, ?_, ?_, ?_⟩ <;> simp [State.LineOk, State.lineAfterSlot, Engine.awaited]
    obtain ⟨k1, k2, k3, k4, k5, k6⟩ := key
    refine ⟨by rw [f.params]; exact h.params, ?_, k2, ?_, ?_, ?_, ?_, ?_, ?_, ?_, ?_, ?_⟩
    · rw [f.handle]; simp [k1, hh]
    · rw [f.handle]; intro hn; exact absurd hn hh
    · rw [f.seq]; intro hn; exact absurd hn hsq
    · rw [k4, k6, f.params]; have := h.depths; rw [ht] at this; simp at this; exact ⟨by omega, this.2⟩
    · have hs := h.samples
      simp only [State.outstanding] at hs ⊢
      rw [hpend, he, List.countP_cons] at hs
      rw [wc, k4, k5, ← hs]
      simp only [Engine.awaited]; split <;> omega
    · have hs := h.released
      rw [hpend] at hs; simp only [startReleased, Bool.and_eq_true] at hs
      rw [k3]; exact hs.2
    · have hs := h.waiting
      rw [hpend] at hs; simp only [lineAfter] at hs
      rw [k3, gc]; exact hs
    · intro q i hq hc
      rw [f.seq] at hq
      have := (h.start q i hq hc).2.2.1
      simp [ht] at this
    · rw [f.cfg, f.params]; exact h.thresh
    · exact searchOk_congr f.seq f.srch h.search
  · have : s.engineTurn = s.nextPoint := by simp [State.engineTurn, he]
    rw [this]; exact nextPoint_inv h

theorem startReleased_append (l : Line) (a b : List Slot) : startReleased l (a ++ b) = (startReleased l a &&
    startReleased (lineAfter l a) b) := by
  induction a generalizing l with
  | nil => simp [startReleased, lineAfter]
  | cons k a ih => simp [startReleased, lineAfter, ih, Bool.and_assoc]

theorem lineAfter_append (l : Line) (a b : List Slot) : lineAfter l (a ++ b) = lineAfter (lineAfter l a) b := by
  induction a generalizing l with
  | nil => rfl
  | cons k a ih => exact ih _

theorem writes_lines (bits : List Bool) : startReleased .rel (bits.map writeSlot) = true ∧
    lineAfter .rel (bits.map writeSlot) = .rel := by
  induction bits with
  | nil => exact ⟨rfl, rfl⟩
  | cons b bits ih => cases b <;> simpa [startReleased, lineAfter, writeSlot, releaseLine] using ih

/-- Slots that may start from the line `l` before a command past its start goes on as `c`: they take the samples it
still takes, and leave the line released if more slots follow. -/
structure Todo (l : Line) (ks : List Slot) (c : Cont) : Prop where
  starts : startReleased l ks = true
  after : c.goesOn = true → lineAfter l ks = .rel
  samples : ks.countP slotSamples = c.wanted
  started : ∀ i, c ≠ .start i

theorem writes_count (bits : List Bool) : (bits.map writeSlot).countP slotSamples = 0 := by
  rw [List.countP_eq_zero]; intro k hk; simp [writes_noSample bits k hk]

theorem todo_writes (bits : List Bool) {c : Cont} (hc : c.wanted = 0) (hn : ∀ i, c ≠ .start i) :
    Todo .rel (bits.map writeSlot) c :=
  ⟨(writes_lines bits).1, fun _ => (writes_lines bits).2, by rw [writes_count, hc], hn⟩

theorem todo_writes_rd (bits : List Bool) (w : Wait) : Todo .rel (bits.map writeSlot ++ [.rd]) (.sample w) := by
  refine ⟨?_, ?_, ?_, by simp⟩
  · rw [startReleased_append, (writes_lines bits).1, (writes_lines bits).2]; rfl
  · intro _; rw [lineAfter_append, (writes_lines bits).2]; rfl
  · rw [List.countP_append, writes_count]; rfl

/-- One slot with a sample, from a released line. -/
theorem todo_sample (k : Slot) (hk : slotSamples k = true) (w : Wait) : Todo .rel [k] (.sample w) := by
  cases k <;> simp only [slotSamples, reduceCtorEq] at hk <;> exact ⟨rfl, fun _ => rfl, rfl, by simp⟩

/-- No slot before a command completes. -/
theorem todo_nil (l : Line) {c : Cont} (hc : c.wanted = 0) (hg : c.goesOn = false) (hn : ∀ i, c ≠ .start i) :
    Todo l [] c := ⟨rfl, by simp [hg], hc.symm, hn⟩

/-- A move of the sequencer that leaves `todo` to push and `cont` to do next keeps the invariant. -/
theorem proceed_inv {s t : State} (h : s.Inv) (hh : s.handle ≠ none)
    (todo : List Slot) (cont : Cont) (l : Line) (hT : Todo l todo cont)
    (h1 : lineAfter s.lineAfterSlot s.txq = l) (h1' : startReleased s.lineAfterSlot s.txq = true)
    (h2 : t.rxq.length + s.engine.awaited + s.txq.countP slotSamples = 0)
    (hfin : t.SearchOk)
    (ht : t = { s with srch := t.srch, rxq := t.rxq, seq := some ⟨todo, cont⟩ }) : t.Inv := by
  have hp : t.pendingSlots = s.txq ++ todo := by rw [ht]; rfl
  have he : t.engine = s.engine := by rw [ht]
  have hl : t.line = s.line := by rw [ht]
  have hln : t.lineAfterSlot = s.lineAfterSlot := by simp [State.lineAfterSlot, he, hl]
  have htx : t.txq = s.txq := by rw [ht]
  have hha : t.handle = s.handle := by rw [ht]
  have hpa : t.params = s.params := by rw [ht]
  have hcf : t.cfg = s.cfg := by rw [ht]
  have hse : t.seq = some ⟨todo, cont⟩ := by rw [ht]
  have hw : t.wanted = cont.wanted := by simp only [State.wanted, hse]
  have hg : t.goesOn = cont.goesOn := by simp only [State.goesOn, hse]
  refine ⟨by rw [hpa]; exact h.params, by rw [he, hha]; exact h.stopped, ?_, ?_, ?_, ?_, ?_, ?_, ?_, ?_, ?_, hfin⟩
  · have := h.driven; simp only [State.LineOk, he, hl] at this ⊢; exact this
  · intro hn; rw [hha] at hn; exact absurd hn hh
  · intro hn; rw [hse] at hn; simp at hn
  · rw [htx, hpa]; exact ⟨h.depths.1, by omega⟩
  · simp only [State.outstanding]
    rw [hp, hw, he, List.countP_append, hT.samples]; omega
  · rw [hln, hp, startReleased_append, h1, h1', hT.starts]; rfl
  · intro hw1; rw [hg] at hw1; rw [hln, hp, lineAfter_append, h1]; exact hT.after hw1
  · intro q i hq hc
    rw [hse] at hq; cases hq
    exact absurd hc (hT.started i)
  · rw [hcf, hpa]; exact h.thresh

/-- At rest with no sample wanted nothing is in flight (R441). -/
theorem atRest_empty {s : State} (h : s.Inv) (hr : s.atRest = true) (hw : s.wanted = 0) :
    (s.engine = .idle ∨ s.engine = .stopped) ∧ s.txq = [] ∧ s.rxq = [] := by
  simp only [State.atRest, Bool.and_eq_true, decide_eq_true_eq, List.isEmpty_iff] at hr
  have hsam := h.samples
  simp only [State.outstanding, hw] at hsam
  exact ⟨hr.1, hr.2, List.length_eq_zero_iff.mp (by omega)⟩

theorem sequencerTurn_inv {s : State} (h : s.Inv) : s.sequencerTurn.Inv := by
  rcases hs : s.seq with _ | ⟨todo, cont⟩
  · have : s.sequencerTurn = s := by simp [State.sequencerTurn, hs]
    rw [this]; exact h
  rcases todo with _ | ⟨k, rest⟩
  · have ht : s.sequencerTurn = s.continueWith cont := by
      simp [State.sequencerTurn, hs]
    rw [ht]
    have hpend : s.pendingSlots = s.txq := by simp [State.pendingSlots, hs]
    cases cont with
    | start i =>
      obtain ⟨hi, -, h2, h3, h4, h5⟩ := h.start ⟨[], .start i⟩ i hs rfl
      simp only [State.continueWith]
      have hok : s.srch.Ok := by have := h.search; simpa only [State.SearchOk, hs] using this
      have hsr : (commandSteps i s).srch.Ok := commandSteps_srch_ok i s hok
      have hfin : s.srch.Ok := hok
      have atomic : beginCommand i s = commandSteps i s → (beginCommand i s).Inv := by
        intro e; rw [e]; exact commandSteps_inv_of_rest h h2 h3 h4 i hi h5 hsr
      have hno := handle_of_checked i hi h5
      have hh' : s.handle ≠ none → s.engine = .idle ∧ s.lineAfterSlot = s.line ∧ s.line ≠ .low := by
        intro hh
        have he : s.engine = .idle := by
          rcases h4 with h' | h'
          · exact h'
          · exact absurd (h.stopped.mp h') hh
        exact ⟨he, by simp [State.lineAfterSlot, he], (lineOk_idle he).mp h.driven⟩
      have go : ∀ (t : State) todo cont, s.handle ≠ none → Todo s.line todo cont → t.SearchOk →
          t = { s with srch := t.srch, seq := some ⟨todo, cont⟩ } → t.Inv := by
        intro t todo cont hh hT hf ht
        obtain ⟨a, b, c⟩ := hh' hh
        have hrx : t.rxq = [] := by rw [ht]; exact h3
        refine proceed_inv h hh todo cont s.line hT (by rw [h2, b]; rfl) (by rw [h2]; rfl) ?_ hf ?_
        · rw [hrx, a, h2]; rfl
        · rw [hrx, ← h3]; exact ht
      have rel : ∀ w, s.busFault w = none → s.handle ≠ none ∧ s.line = .rel := by
        intro w hw
        unfold State.busFault at hw
        split at hw
        · simp at hw
        · split at hw
          · simp at hw
          · rename_i a b
            have hh : s.handle ≠ none := by simpa using a
            obtain ⟨-, -, c⟩ := hh' hh
            refine ⟨hh, ?_⟩
            cases hl : s.line with
            | rel => rfl
            | low => exact absurd hl c
            | pwr => exact absurd hl b
      have nil : ∀ l r, Todo l [] (.done r) := fun l r => todo_nil l rfl rfl (by simp)
      have pass : ∀ c (u : State), (∃ r, u = { s with srch := r }) → s.handle ≠ none ∧ s.line = .rel → u.srch.Ok →
          (beginPass c u).Inv := by
        rintro c u ⟨r, rfl⟩ ⟨hh, hl⟩ hf
        unfold beginPass
        split
        · rename_i hb
          exact inv_of_quiet h.params h.stopped h.driven ⟨rfl, h2, h3, h4⟩ h.thresh
            (resetTracking_srch_ok (State.zeroCrc { s with srch := r }) hf.2.2.2.2)
        · rename_i hb
          exact go _ [.rst] _ hh (by rw [hl]; exact todo_sample .rst rfl _) ⟨hf, rfl⟩ rfl
      cases i with
      | init p d e => exact atomic rfl
      | teardown => exact atomic rfl
      | setFifoThresh t => exact atomic rfl
      | crc8Upd a d => exact atomic rfl
      | searchReset => exact atomic rfl
      | waitIdle => exact go _ [] _ (hno (by simp) (by simp)) (nil _ _) hfin rfl
      | reset =>
        obtain ⟨hh, hl⟩ := rel _ h5
        exact go _ [.rst] _ hh (by rw [hl]; exact todo_sample .rst rfl _) hfin rfl
      | writeByte d =>
        obtain ⟨hh, hl⟩ := rel _ h5
        exact go _ (byteSlots d) _ hh (by rw [hl]; exact todo_writes _ rfl (by simp)) hfin rfl
      | writeBytePwr d =>
        obtain ⟨hh, hl⟩ := rel _ h5
        refine go _ (byteSlotsPwr d) _ hh ?_ hfin rfl
        rw [hl]
        refine ⟨?_, by simp [Cont.goesOn], ?_, by simp⟩
        · rw [byteSlotsPwr, startReleased_append, (writes_lines _).1, (writes_lines _).2]
          cases d.getLsbD 7 <;> rfl
        · rw [byteSlotsPwr, List.countP_append, writes_count]
          cases d.getLsbD 7 <;> rfl
      | endPower =>
        refine go _ (endPowerSlots s) _ (hno (by simp) (by simp)) ?_ hfin rfl
        unfold endPowerSlots
        split
        · exact ⟨by simp [startReleased], by simp [Cont.goesOn], rfl, by simp⟩
        · exact nil _ _
      | readByte =>
        obtain ⟨hh, hl⟩ := rel _ h5
        exact go _ [.rd] _ hh (by rw [hl]; exact todo_sample .rd rfl _) hfin rfl
      | triplet pref =>
        obtain ⟨hh, hl⟩ := rel _ h5
        exact go _ [.rd] _ hh (by rw [hl]; exact todo_sample .rd rfl _) hfin rfl
      | search c => exact pass c s ⟨s.srch, rfl⟩ (rel _ h5) hfin
      | first => exact pass 0xF0#8 s.resetTracking ⟨_, rfl⟩ (rel _ h5) (resetTracking_srch_ok s hok.2.2.2.2)
      | next => exact pass 0xF0#8 s ⟨s.srch, rfl⟩ (rel _ h5) hfin
      | select =>
        obtain ⟨hh, hl⟩ := rel _ h5
        exact go _ [.rst] _ hh (by rw [hl]; exact todo_sample .rst rfl _) hfin rfl
      | slotRst => simp [Instr.slot?] at hi
      | slotW0 => simp [Instr.slot?] at hi
      | slotW1 => simp [Instr.slot?] at hi
      | slotRd => simp [Instr.slot?] at hi
      | slotRel => simp [Instr.slot?] at hi
      | slotW0Pwr => simp [Instr.slot?] at hi
      | slotW1Pwr => simp [Instr.slot?] at hi
    | sample w =>
      have hw : s.wanted = 1 := by simp [State.wanted, hs, Cont.wanted]
      have hg : s.goesOn = true := by simp [State.goesOn, hs, Cont.goesOn]
      have hh : s.handle ≠ none := by intro hn; have := (h.parked hn).2; rw [hg] at this; simp at this
      simp only [State.continueWith]
      rcases hr : s.rxq with _ | ⟨v, rest⟩
      · exact h
      simp only
      have hsam := h.samples
      rw [hw] at hsam
      simp only [State.outstanding, hr, hpend, List.length_cons] at hsam
      have hrest : rest = [] := by
        cases rest with
        | nil => rfl
        | cons a l => simp at hsam; omega
      subst hrest
      have h0 : s.engine.awaited + s.txq.countP slotSamples = 0 := by simp at hsam; omega
      have hl := h.waiting hg
      rw [hpend] at hl
      have hrel := h.released
      rw [hpend] at hrel
      have go : ∀ (t : State) todo cont, Todo .rel todo cont → t.SearchOk →
          t = { s with srch := t.srch, rxq := [], seq := some ⟨todo, cont⟩ } → t.Inv := by
        intro t todo cont hT hf ht
        have hrx : t.rxq = [] := by rw [ht]
        refine proceed_inv h hh todo cont .rel hT hl hrel ?_ hf (by rw [hrx]; exact ht)
        rw [hrx]; simpa using h0
      have nil : ∀ r, Todo .rel [] (.done r) := fun r => todo_nil _ rfl rfl (by simp)
      have rd := todo_sample .rd rfl
      have hS := h.search
      simp only [State.SearchOk, hs] at hS
      cases w with
      | reset => exact go _ [] _ (nil _) hS rfl
      | search c =>
        simp only [resume]
        split
        · exact go _ [] _ (todo_nil _ rfl rfl (by simp)) hS.1 rfl
        · exact go _ _ _ (todo_writes_rd _ _) ⟨by simp [Scan.start], by simp [Scan.start],
            by simp [Scan.start], by simp [Scan.start], hS.2⟩ rfl
      | select =>
        simp only [resume]
        refine go _ _ _ ?_ hS rfl
        split
        · exact nil _
        · have : ∀ r, selectSlots r = (byteBits 0x55#8 ++ romBits r).map writeSlot := by
            intro r; simp [selectSlots, byteSlots]
          rw [this]; exact todo_writes _ rfl (by simp)
      | read i acc =>
        simp only [resume, resumeRead]
        split
        · exact go _ [.rd] _ (rd _) hS rfl
        · exact go _ [] _ (nil _) hS rfl
      | tripId p => exact go _ [.rd] _ (rd _) hS rfl
      | tripCmp p id => exact go _ _ _ (todo_writes [_] rfl (by simp)) hS rfl
      | scanId sc => exact go _ [.rd] _ (rd _) hS rfl
      | scanCmp sc id => exact go _ _ _ (todo_writes [_] rfl (by simp)) hS rfl
    | record sc id cmp =>
      simp only [State.continueWith]
      split
      · rename_i hr
        obtain ⟨he, ht, hrx⟩ := atRest_empty h hr (by simp [State.wanted, hs, Cont.wanted])
        have hg : s.goesOn = true := by simp [State.goesOn, hs, Cont.goesOn]
        have hh : s.handle ≠ none := by intro hn; have := (h.parked hn).2; rw [hg] at this; simp at this
        have hl := h.waiting hg
        have hrel := h.released
        rw [hpend] at hl hrel
        have quiet : ∀ (r : SearchReg) x, r.Ok → (({ s with srch := r } : State).complete x).Inv := fun r x hr =>
          inv_of_quiet h.params h.stopped h.driven ⟨rfl, ht, hrx, he⟩ h.thresh hr
        have hS := h.search
        simp only [State.SearchOk, hs] at hS
        simp only [recordBit]
        obtain ⟨g1, g2, g3, g4, g5⟩ := scan_after_ok hS id cmp (direction id cmp (preferred s.srch sc.p))
        split
        · exact quiet _ _ (discardRom_srch_ok s)
        · split
          · have hc : (s.storeBit sc.p (direction id cmp (preferred s.srch sc.p))).rxq = [] := hrx
            refine proceed_inv h hh [.rd] _ .rel (todo_sample .rd rfl _) hl hrel ?_ ⟨?_, ?_, g2, g3, ?_⟩ rfl
            · have ha : s.engine.awaited = 0 := by rcases he with h | h <;> rw [h] <;> rfl
              simp [State.proceedSample, hc, ha, ht]
            · rw [g4]; omega
            · rw [g4]; exact g1
            · rw [g4]; exact g5
          · have h63 : sc.p = 63 := by have := hS.1; omega
            rw [show (sc.p + 1) / 8 = 8 by omega, List.take_of_length_le (by simp [romBytes])] at g5
            rw [verdict_eq]
            exact quiet _ _ (verdict_srch_ok (by omega) g2 g3 g5)
      · exact h
    | absent =>
      simp only [State.continueWith]
      split
      · rename_i hr
        obtain ⟨he, ht, hrx⟩ := atRest_empty h hr (by simp [State.wanted, hs, Cont.wanted])
        have hS := h.search
        simp only [State.SearchOk, hs] at hS
        exact inv_of_quiet h.params h.stopped h.driven ⟨rfl, ht, hrx, he⟩ h.thresh
          (resetTracking_srch_ok s hS.2.2.2.2)
      · exact h
    | done r =>
      simp only [State.continueWith]
      split
      · rename_i hr
        obtain ⟨he, ht, hrx⟩ := atRest_empty h hr (by simp [State.wanted, hs, Cont.wanted])
        refine inv_of_quiet h.params h.stopped h.driven ⟨rfl, ht, hrx, he⟩ h.thresh ?_
        have := h.search
        simp only [State.SearchOk, hs] at this
        exact this
      · exact h
  · have ht : s.sequencerTurn = if s.txq.length < s.params.txqDepth then (s.queue [k]).proceed rest cont else s := by
      simp [State.sequencerTurn, hs]
    rw [ht]
    split
    · rename_i hlt
      have hpend : ((s.queue [k]).proceed rest cont).pendingSlots = s.pendingSlots := by
        simp [State.pendingSlots, hs, State.queue, State.proceed]
      have hw : ((s.queue [k]).proceed rest cont).wanted = s.wanted := by
        simp [State.wanted, hs]
      have hg : ((s.queue [k]).proceed rest cont).goesOn = s.goesOn := by
        simp [State.goesOn, hs]
      have hl : ((s.queue [k]).proceed rest cont).lineAfterSlot = s.lineAfterSlot := rfl
      refine ⟨h.params, h.stopped, h.driven, ?_, by simp, ?_, ?_, ?_, ?_, ?_, h.thresh, ?_⟩
      · rw [hpend, hg]; exact h.parked
      · refine ⟨?_, h.depths.2⟩
        simp [State.queue, State.proceed]; omega
      · simp only [State.outstanding]; rw [hpend, hw]; exact h.samples
      · rw [hpend, hl]; exact h.released
      · rw [hpend, hl, hg]; exact h.waiting
      · intro q i hq hc
        simp only [proceed_seq, Option.some.injEq] at hq
        subst hq
        have := (h.start _ i hs hc).2.1
        simp at this
      · have := h.search
        simp only [State.SearchOk, hs] at this
        simp only [State.SearchOk, proceed_seq]
        exact this
    · exact h

end Sys2Proof.Machine
end

