-- ==== Sys2Proof/Laws/PerInstr.lean ====
section
/-! SUPPORT. The statement families made per instruction (LAWS.json). -/

/-! ## Encoding: a command's word has 32 bits and an opcode of R303's table; a slot word has 8 bits, the others zero -/

namespace Sys2Proof.Laws.Encoding

/-- R303, R306: what the encoding of an instruction looks like. -/
def Statement (i : Instr) : Prop :=
  match i.slot? with
  | some k => i.nbits = 8 ∧ encode i = k.word.setWidth 32
  | none => i.nbits = 32 ∧ fieldOp (encode i) ∈ opcodes

theorem init (p d : Byte) (e : Bool) : Statement (.init p d e) := by
  simp [Statement, Instr.slot?, Instr.nbits, encode, opcodes]

theorem teardown : Statement (.teardown) := by
  simp [Statement, Instr.slot?, Instr.nbits, encode, opcodes]

theorem setFifoThresh (t : Byte) : Statement (.setFifoThresh t) := by
  simp [Statement, Instr.slot?, Instr.nbits, encode, opcodes]

theorem waitIdle : Statement (.waitIdle) := by
  simp [Statement, Instr.slot?, Instr.nbits, encode, opcodes]

theorem reset : Statement (.reset) := by
  simp [Statement, Instr.slot?, Instr.nbits, encode, opcodes]

theorem writeByte (d : Byte) : Statement (.writeByte d) := by
  simp [Statement, Instr.slot?, Instr.nbits, encode, opcodes]

theorem writeBytePwr (d : Byte) : Statement (.writeBytePwr d) := by
  simp [Statement, Instr.slot?, Instr.nbits, encode, opcodes]

theorem endPower : Statement (.endPower) := by
  simp [Statement, Instr.slot?, Instr.nbits, encode, opcodes]

theorem readByte : Statement (.readByte) := by
  simp [Statement, Instr.slot?, Instr.nbits, encode, opcodes]

theorem triplet (b : Bool) : Statement (.triplet b) := by
  simp [Statement, Instr.slot?, Instr.nbits, encode, opcodes]

theorem crc8Upd (a d : Byte) : Statement (.crc8Upd a d) := by
  simp [Statement, Instr.slot?, Instr.nbits, encode, opcodes]

theorem searchReset : Statement (.searchReset) := by
  simp [Statement, Instr.slot?, Instr.nbits, encode, opcodes]

theorem search (c : Byte) : Statement (.search c) := by
  simp [Statement, Instr.slot?, Instr.nbits, encode, opcodes]

theorem first : Statement (.first) := by
  simp [Statement, Instr.slot?, Instr.nbits, encode, opcodes]

theorem next : Statement (.next) := by
  simp [Statement, Instr.slot?, Instr.nbits, encode, opcodes]

theorem select : Statement (.select) := by
  simp [Statement, Instr.slot?, Instr.nbits, encode, opcodes]

theorem slotRst : Statement (.slotRst) := by
  simp [Statement, Instr.slot?, Instr.nbits, encode]

theorem slotW0 : Statement (.slotW0) := by
  simp [Statement, Instr.slot?, Instr.nbits, encode]

theorem slotW1 : Statement (.slotW1) := by
  simp [Statement, Instr.slot?, Instr.nbits, encode]

theorem slotRd : Statement (.slotRd) := by
  simp [Statement, Instr.slot?, Instr.nbits, encode]

theorem slotRel : Statement (.slotRel) := by
  simp [Statement, Instr.slot?, Instr.nbits, encode]

theorem slotW0Pwr : Statement (.slotW0Pwr) := by
  simp [Statement, Instr.slot?, Instr.nbits, encode]

theorem slotW1Pwr : Statement (.slotW1Pwr) := by
  simp [Statement, Instr.slot?, Instr.nbits, encode]
end Sys2Proof.Laws.Encoding
end

