-- ==== Sys2Proof/Laws/Progress.lean ====
section
/-! SUPPORT. Each of OWM's own moves leaves less of the command in progress to do (R742), and a step from a queued
slot word is the turns of the engine that run it (R413). -/

namespace Sys2Proof.Machine

/-- A claim changes what it takes from the pool only (R451). -/
theorem claim_eq (s : State) : s.claim.2 = { s with pool := s.claim.2.pool, draws := s.claim.2.draws } := by
  unfold State.claim; split <;> rfl

/-- A bound on the samples and completions a sequencer that goes on with `cont` still needs. -/
def Cont.rank : Cont → Nat
  | .start _ => 210
  | .done _ => 1
  | .absent => 1
  | .sample .reset => 2
  | .sample .select => 2
  | .sample (.search _) => 200
  | .sample (.read i _) => (7 - i) + 2
  | .sample (.tripCmp _ _) => 2
  | .sample (.tripId _) => 3
  | .record sc _ _ => 3 * (63 - sc.p) + 2
  | .sample (.scanCmp sc _) => 3 * (63 - sc.p) + 3
  | .sample (.scanId sc) => 3 * (63 - sc.p) + 4

/-- What the sequencer still has to do, weighed so that every move of it makes the sum less. -/
def State.seqToGo (s : State) : Nat :=
  match s.seq with
  | none => 0
  | some q => 1000 * Cont.rank q.cont + 6 * q.todo.length

/-- The points a slot in progress still reaches. -/
def Engine.toGo : Engine → Nat
  | .run _ .low => 3
  | .run _ .released => 2
  | .run _ (.sampled _) => 1
  | .idle => 0
  | .stopped => 0

/-- What is left of the command in progress: each of OWM's own moves makes it less. -/
def State.toGo (s : State) : Nat := State.seqToGo s + 5 * s.txq.length + Engine.toGo s.engine

theorem resume_seqToGo (w : Wait) (v : Bool) (s : State) :
    State.seqToGo (resume w v s) < 1000 * Cont.rank (.sample w) := by
  cases w <;> simp only [resume]
  · simp [State.seqToGo, Cont.rank, State.proceedDone]
  · split <;> simp [State.seqToGo, Cont.rank, State.proceedSample, Scan.start, byteSlots, byteBits]
  · split <;> simp [State.seqToGo, Cont.rank, State.proceedDone, selectSlots, byteSlots, byteBits, romBits, romBytes]
  · simp only [resumeRead]; split <;> simp [State.seqToGo, Cont.rank, State.proceedDone, State.proceedSample] <;> omega
  · simp [State.seqToGo, Cont.rank, State.proceedSample]
  · simp [State.seqToGo, Cont.rank, State.proceedDone, resumeTriplet]
  · simp [State.seqToGo, Cont.rank, State.proceedSample]; omega
  · simp [State.seqToGo, Cont.rank, resumeScan]; omega

theorem recordBit_seqToGo (sc : Scan) (id cmp : Bool) (s : State) :
    State.seqToGo (recordBit sc id cmp s) < 1000 * Cont.rank (.record sc id cmp) := by
  simp only [recordBit]
  split
  · simp [State.seqToGo, Cont.rank]
  · split
    · simp [State.seqToGo, Cont.rank, State.proceedSample, Scan.after]; omega
    · simp [State.seqToGo, Cont.rank]

theorem beginCommand_seqToGo (i : Instr) (hi : i.slot? = none) (s : State) :
    State.seqToGo (beginCommand i s) < 210000 := by
  cases i <;> simp only [Instr.slot?, reduceCtorEq] at hi <;> simp only [beginCommand]
  · unfold initSteps; dsimp only; split <;> simp [State.seqToGo]
  · simp [State.seqToGo, teardownSteps]
  · simp [State.seqToGo, setFifoThreshSteps]
  · simp [State.seqToGo, Cont.rank, State.proceedDone]
  · simp [State.seqToGo, Cont.rank, State.proceedSample]
  · simp [State.seqToGo, Cont.rank, State.proceedDone, byteSlots, byteBits]
  · simp [State.seqToGo, Cont.rank, State.proceedDone, byteSlotsPwr, byteBits]
  · unfold endPowerSlots; split <;> simp [State.seqToGo, Cont.rank, State.proceedDone]
  · simp [State.seqToGo, Cont.rank, State.proceedSample]
  · simp [State.seqToGo, Cont.rank, State.proceedSample]
  · simp [State.seqToGo, crc8UpdSteps]
  · simp [State.seqToGo, searchResetSteps]
  · unfold beginPass; split <;> simp [State.seqToGo, Cont.rank, State.proceedSample]
  · unfold beginPass; split <;> simp [State.seqToGo, Cont.rank, State.proceedSample]
  · unfold beginPass; split <;> simp [State.seqToGo, Cont.rank, State.proceedSample]
  · simp [State.seqToGo, Cont.rank, State.proceedSample]

theorem resume_keeps (w : Wait) (v : Bool) (s : State) : (resume w v s).txq = s.txq ∧
    (resume w v s).engine = s.engine := by
  cases w <;> simp only [resume]
  · exact ⟨rfl, rfl⟩
  · split <;> exact ⟨rfl, rfl⟩
  · exact ⟨rfl, rfl⟩
  · simp only [resumeRead]; split <;> exact ⟨rfl, rfl⟩
  · exact ⟨rfl, rfl⟩
  · exact ⟨rfl, rfl⟩
  · exact ⟨rfl, rfl⟩
  · exact ⟨rfl, rfl⟩

theorem beginCommand_rest (i : Instr) (s : State) (ht : s.txq = []) (he : Engine.toGo s.engine = 0) :
    (beginCommand i s).txq = [] ∧ Engine.toGo (beginCommand i s).engine = 0 := by
  cases i <;> simp only [beginCommand]
  · simp only [initSteps]
    split
    · rw [claim_eq]; exact ⟨ht, he⟩
    · exact ⟨rfl, rfl⟩
  · simp only [teardownSteps]; split <;> exact ⟨ht, rfl⟩
  all_goals first | exact ⟨ht, he⟩ | (unfold beginPass; split <;> exact ⟨ht, he⟩)

theorem sequencerTurn_toGo {s : State} (h : s.Inv) (he : s.engine = .idle ∨ s.engine = .stopped) (ht : s.txq = [])
    (hs : s.seq ≠ none) :
    State.toGo s.sequencerTurn < State.toGo s := by
  have hp : Engine.toGo s.engine = 0 := by rcases he with h | h <;> rw [h] <;> rfl
  rcases hq : s.seq with _ | ⟨todo, cont⟩
  · exact absurd hq hs
  rcases todo with _ | ⟨k, rest⟩
  · have hT : s.sequencerTurn = s.continueWith cont := by simp [State.sequencerTurn, hq]
    rw [hT]
    have hm : State.toGo s = 1000 * Cont.rank cont := by simp [State.toGo, State.seqToGo, hq, ht, hp]
    rw [hm]
    have hr : s.atRest = true := by simp [State.atRest, he, ht]
    cases cont with
    | start i =>
      have hi := (h.start _ i hq rfl).1
      obtain ⟨a, b⟩ := beginCommand_rest i s ht hp
      have := beginCommand_seqToGo i hi s
      simp only [State.continueWith, State.toGo, a, b, Cont.rank]; simp; omega
    | sample w =>
      have hw : s.wanted = 1 := by simp [State.wanted, hq, Cont.wanted]
      have hsam := h.samples
      have hpend : s.pendingSlots = [] := by simp [State.pendingSlots, hq, ht]
      have ha : s.engine.awaited = 0 := by rcases he with h | h <;> rw [h] <;> rfl
      rw [State.outstanding, hw, hpend, ha] at hsam
      rcases hx : s.rxq with _ | ⟨v, rest⟩
      · rw [hx] at hsam; simp at hsam
      simp only [State.continueWith, hx]
      obtain ⟨a, b⟩ := resume_keeps w v { s with rxq := rest }
      have := resume_seqToGo w v { s with rxq := rest }
      have e : State.toGo (resume w v { s with rxq := rest }) = State.seqToGo (resume w v { s with rxq := rest }) := by
        unfold State.toGo; rw [a, b]; simp only [ht, hp]; simp
      rw [e]; exact this
    | record sc id cmp =>
      simp only [State.continueWith, hr, if_true]
      have e : State.toGo (recordBit sc id cmp s) = State.seqToGo (recordBit sc id cmp s) := by
        unfold State.toGo; rw [recordBit_eq]; simp only [ht, hp]; simp
      rw [e]; exact recordBit_seqToGo sc id cmp s
    | absent =>
      simp only [State.continueWith, hr, if_true]
      simp [State.toGo, State.seqToGo, Cont.rank, ht, hp]
    | done r =>
      simp only [State.continueWith, hr, if_true]
      simp [State.toGo, State.seqToGo, Cont.rank, ht, hp]
  · have hd := (rxqDepth_pos h.params).2
    have hT : s.sequencerTurn = (s.queue [k]).proceed rest cont := by
      simp [State.sequencerTurn, hq, ht]; intro h0; omega
    rw [hT]
    simp [State.toGo, State.seqToGo, State.proceed, State.queue, hq, ht]; omega

theorem nextPoint_toGo {s : State} (k : Slot) (ph : Phase) (he : s.engine = .run k ph) :
    State.toGo s.nextPoint < State.toGo s := by
  have f := fromSlots_nextPoint s
  have ht := nextPoint_keeps_txq s
  simp only [State.toGo, State.seqToGo, f.seq, ht]
  have : Engine.toGo s.nextPoint.engine < Engine.toGo s.engine := by
    rcases ph with _ | _ | v
    · simp [State.nextPoint, he, Engine.toGo]
    · cases hk : slotSamples k <;> simp [State.nextPoint, he, Engine.toGo, hk, State.samplePoint]
    · simp [State.nextPoint, he, Engine.toGo]
  omega

theorem nextPoint_toGo_le (s : State) : State.toGo s.nextPoint ≤ State.toGo s := by
  rcases he : s.engine with _ | _ | ⟨k, ph⟩
  · rw [nextPoint_stopped he]
  · rw [nextPoint_idle he]
  · exact Nat.le_of_lt (nextPoint_toGo k ph he)

theorem engineTurn_toGo {s : State} (k : Slot) (rest : List Slot) (he : s.engine = .idle) (ht : s.txq = k :: rest) :
    State.toGo s.engineTurn < State.toGo s := by
  have f := fromSlots_engineTurn s
  have hT : s.engineTurn = ({ s with txq := rest } : State).takeSlot k := by simp [State.engineTurn, he, ht]
  have e : s.engineTurn.txq = rest := by rw [hT]; unfold State.takeSlot; split <;> rfl
  have p : Engine.toGo s.engineTurn.engine ≤ 3 := by
    cases s.engineTurn.engine with
    | run k ph => cases ph <;> simp [Engine.toGo]
    | _ => simp [Engine.toGo]
  simp only [State.toGo, State.seqToGo, f.seq, e, ht, List.length_cons]
  omega

theorem sequencerTurn_input (s : State) : s.sequencerTurn.input = s.input := by
  rcases hq : s.seq with _ | ⟨todo, cont⟩
  · simp [State.sequencerTurn, hq]
  rcases todo with _ | ⟨k, rest⟩
  · have hT : s.sequencerTurn = s.continueWith cont := by simp [State.sequencerTurn, hq]
    rw [hT]
    cases cont with
    | start i =>
      cases i <;> simp only [State.continueWith, beginCommand]
      · simp only [initSteps]
        split
        · rw [claim_eq]; rfl
        · rw [claim_eq]; rfl
      · simp only [teardownSteps]; split <;> rfl
      all_goals first | rfl | (unfold beginPass; split <;> rfl)
    | sample w =>
      simp only [State.continueWith]
      split
      · rename_i v rest _
        cases w <;> simp only [resume]
        · rfl
        · split <;> rfl
        · rfl
        · simp only [resumeRead]; split <;> rfl
        · rfl
        · rfl
        · rfl
        · rfl
      · rfl
    | record sc id cmp =>
      simp only [State.continueWith]
      split
      · rw [recordBit_eq]
      · rfl
    | absent => simp only [State.continueWith]; split <;> rfl
    | done r => simp only [State.continueWith]; split <;> rfl
  · simp only [State.sequencerTurn, hq]; split <;> rfl

theorem runOn_idle {s : State} {k rest} (he : s.engine = .idle) (ht : s.txq = k :: rest) :
    runOn s = exec k.toInstr { s with txq := rest } := by
  simp only [runOn, he, ht]

/-- What only the host and the environment see is no part of the invariant. -/
theorem env_inv {s t : State} (h : s.Inv)
    (ht : t = { s with input := t.input, readData := t.readData, draws := t.draws, selrom := t.selrom }) : t.Inv := by
  rw [ht]
  exact ⟨h.params, h.stopped, h.driven, h.parked, h.quiet, h.depths, h.samples, h.released, h.waiting, h.start,
    h.thresh, h.search⟩

theorem exec_slot_eq (s : State) (k : Slot) (rest : List Slot) (he : s.engine = .idle) (ht : s.txq = k :: rest) :
    exec k.toInstr { s with txq := rest } = .next s.engineTurn.nextPoint.nextPoint.nextPoint := by
  have h1 : exec k.toInstr { s with txq := rest } = ({ s with txq := rest } : State).slotMeaning k := by cases k <;> rfl
  have h2 : ({ s with txq := rest } : State).finishSlot = { s with txq := rest } := finishSlot_idle he
  have h3 : ({ s with txq := rest } : State).engine ≠ .stopped := by simp [he]
  rw [h1, State.slotMeaning, if_neg h3, h2]
  have : s.engineTurn = ({ s with txq := rest } : State).takeSlot k := by simp [State.engineTurn, he, ht]
  rw [this]; rfl

theorem run_succ (M : Host.Core) (k : Nat) (s t : M.State) (h : M.step s = .next t) : M.run (k + 1) s = M.run k t := by
  simp only [Host.Core.run, h]

end Sys2Proof.Machine
end

