-- ==== Sys2Proof/Laws/Registers.lean ====
section
/-! SUPPORT. Bit i of each register word (R106, R108–R111). -/

namespace Sys2Proof.Machine

theorem statusWord_bit (s : State) (i : Nat) :
    s.statusWord.getLsbD i =
      if i < 1 then s.busy else if i < 2 then s.claimed else if i < 3 then s.power else if i < 4 then s.rxrdy
      else if i < 6 then s.srch.sstate.getLsbD (i - 4) else false := by
  have h : s.statusWord.getLsbD i =
      (0#26 ++ s.srch.sstate ++ BitVec.ofBool s.rxrdy ++ BitVec.ofBool s.power ++ BitVec.ofBool s.claimed ++
        BitVec.ofBool s.busy).getLsbD i := rfl
  rw [h]
  iterate 5 rw [BitVec.getLsbD_append]
  rcases i with _ | _ | _ | _ | _ | _ | i
  all_goals simp

theorem resultWord_bit (r : ResultReg) (i : Nat) :
    r.word.getLsbD i =
      if i < 8 then r.code.byte.getLsbD i else if i < 16 then r.data.getLsbD (i - 8)
      else if i < 17 then r.flag else false := by
  have h : r.word.getLsbD i = (0#15 ++ BitVec.ofBool r.flag ++ r.data ++ r.code.byte).getLsbD i := rfl
  rw [h]
  iterate 3 rw [BitVec.getLsbD_append]
  by_cases h1 : i < 8
  · simp [h1]
  by_cases h2 : i < 16
  · simp [h1, h2, show i - 8 < 8 by omega]
  by_cases h3 : i < 17
  · obtain rfl : i = 16 := by omega
    simp
  · simp [h1, h2, h3, show ¬ i - 8 < 8 by omega, show ¬ i - 8 - 8 < 1 by omega]

theorem cfgWord_bit (c : CfgReg) (i : Nat) :
    c.word.getLsbD i =
      if i < 8 then c.pin.getLsbD i else if i < 16 then c.dirpin.getLsbD (i - 8)
      else if i < 24 then c.thresh.getLsbD (i - 16) else if i < 25 then c.dirEn else false := by
  have h : c.word.getLsbD i = (0#7 ++ BitVec.ofBool c.dirEn ++ c.thresh ++ c.dirpin ++ c.pin).getLsbD i := rfl
  rw [h]
  iterate 4 rw [BitVec.getLsbD_append]
  by_cases h1 : i < 8
  · simp [h1]
  by_cases h2 : i < 16
  · simp [h1, h2, show i - 8 < 8 by omega]
  by_cases h3 : i < 24
  · simp [h1, h2, h3, show ¬ i - 8 < 8 by omega, show i - 16 < 8 by omega, show i - 8 - 8 = i - 16 by omega]
  by_cases h4 : i < 25
  · obtain rfl : i = 24 := by omega
    simp
  · simp [h1, h2, h3, h4, show ¬ i - 8 < 8 by omega, show ¬ i - 8 - 8 < 8 by omega,
      show ¬ i - 8 - 8 - 8 < 1 by omega]

theorem srchWord_bit (r : SearchReg) (i : Nat) :
    r.word.getLsbD i =
      if i < 7 then r.ld.getLsbD i else if i < 8 then false else if i < 12 then r.lfd.getLsbD (i - 8)
      else if i < 13 then r.ldf else if i < 16 then false else if i < 24 then r.crc8.getLsbD (i - 16)
      else false := by
  have h : r.word.getLsbD i =
      (0#8 ++ r.crc8 ++ 0#3 ++ BitVec.ofBool r.ldf ++ r.lfd ++ 0#1 ++ r.ld).getLsbD i := rfl
  rw [h]
  iterate 6 rw [BitVec.getLsbD_append]
  by_cases hi : i < 24
  · interval_cases i <;> simp
  · simp [show ¬ i < 7 by omega, show ¬ i < 8 by omega, show ¬ i < 12 by omega, show ¬ i < 13 by omega,
      show ¬ i < 16 by omega, hi, show ¬ i - 7 < 1 by omega, show ¬ i - 7 - 1 < 4 by omega,
      show ¬ i - 7 - 1 - 4 < 1 by omega, show ¬ i - 7 - 1 - 4 - 1 < 3 by omega,
      show ¬ i - 7 - 1 - 4 - 1 - 3 < 8 by omega]

/-! ## The halves of a ROM code (R111) -/

@[simp] theorem lowWord_withLowWord (r : RomCode) (v : Word) : lowWord (withLowWord r v) = v := by
  refine BitVec.eq_of_getLsbD_eq fun i hi => ?_
  rw [lowWord, BitVec.getLsbD_extractLsb', withLowWord, BitVec.getLsbD_append]
  simp [hi]

@[simp] theorem highWord_withLowWord (r : RomCode) (v : Word) : highWord (withLowWord r v) = highWord r := by
  refine BitVec.eq_of_getLsbD_eq fun i hi => ?_
  rw [highWord, BitVec.getLsbD_extractLsb', withLowWord, BitVec.getLsbD_append]
  simp [hi]

@[simp] theorem lowWord_withHighWord (r : RomCode) (v : Word) : lowWord (withHighWord r v) = lowWord r := by
  refine BitVec.eq_of_getLsbD_eq fun i hi => ?_
  rw [lowWord, BitVec.getLsbD_extractLsb', withHighWord, BitVec.getLsbD_append]
  simp [hi]

@[simp] theorem highWord_withHighWord (r : RomCode) (v : Word) : highWord (withHighWord r v) = v := by
  refine BitVec.eq_of_getLsbD_eq fun i hi => ?_
  rw [highWord, BitVec.getLsbD_extractLsb', withHighWord, BitVec.getLsbD_append]
  simp [hi]

end Sys2Proof.Machine
end

