-- ==== Sys2Proof/Tests/Slice0.lean ====
section
/-! SUPPORT. Tests and witnesses. Expected values are those of spec/95_test_vectors.md (each test names its vector) or
written out by hand from the rule it names. A `test_meets_<Name>` shows states and operands that meet the hypotheses of
the obligation of that name, clause by clause. -/

namespace Sys2Proof.Tests

open Sys2Proof.Machine

/-! ## Helpers -/

/-- The outcome is a next state with the property. -/
def gives (o : Host.Outcome State Fault Refusal) (p : State → Bool) : Bool :=
  match o with
  | .next t => p t
  | .fault _ => false
  | .refused _ => false

/-- The outcome is this fault. -/
def faults (o : Host.Outcome State Fault Refusal) (f : Fault) : Bool :=
  match o with
  | .next _ => false
  | .fault g => decide (g = f)
  | .refused _ => false

/-- The outcome is this refusal. -/
def refuses (o : Host.Outcome State Fault Refusal) (r : Refusal) : Bool :=
  match o with
  | .next _ => false
  | .fault _ => false
  | .refused q => decide (q = r)

/-- The claimed state of V-L1 (INIT 3, 4 from reset) with this environment. -/
def claimed (bus : Bus) : State :=
  { State.reset with
    result := { code := .ok, data := 0#8, flag := true }
    cfg := { pin := 3#8, dirpin := 4#8, thresh := 0#8, dirEn := true }
    engine := .idle, handle := some ⟨0, 0⟩, pullOff := true, bus := bus }

/-- The claimed state with scripted draws. -/
def drawing (vs : List Bool) : State := claimed (.draws vs)

/-- The claimed state with reference devices of these codes, none in alarm. -/
def withDevices (roms : List RomCode) : State :=
  claimed (.reference (roms.map fun r => { rom := r, alarm := false, mode := .inactive }))

/-- V-T6: the claimed state with the line powered. -/
def powered : State := { drawing [] with line := .pwr }

/-- The claimed state during RESET: its slot word is queued, the sequencer waits for the sample. -/
def busy : State := { drawing [false] with txq := [.rst], seq := some ⟨[], .sample .reset⟩ }

/-- The claimed state during WRITE_BYTE 0x80: one slot word queued, the last still to be pushed. -/
def writing : State := { drawing [] with txq := [.w0], seq := some ⟨[.w1], .done ResultReg.done⟩ }

/-- The claimed state at the last bit of a pass: both reads done but the second sample still to come, seven bytes of
code A gathered. -/
def scanning : State :=
  { drawing [false] with
    txq := [.rd]
    srch := { ld := 0#7, lfd := 0#4, ldf := false, crc8 := 0x75#8, rom := 0x7566554433221101#64 }
    seq := some ⟨[], .sample (.scanCmp { p := 63, lastZero := 2, lastFam := 2 } true)⟩ }

/-- The claimed state at the last bit of a pass as in `scanning`, both samples taken (id, then 1) and the write slot of
direction 0 queued. -/
def recording (id : Bool) : State :=
  { scanning with
    txq := [.w0], bus := .draws []
    seq := some ⟨[], .record { p := 63, lastZero := 2, lastFam := 2 } id true⟩ }

/-- CRC8_UPD 0x12, 0x34 accepted by the unclaimed block and not yet begun. -/
def starting : State := { State.reset with seq := some ⟨[], .start (.crc8Upd 0x12#8 0x34#8)⟩ }

/-- The claimed state with LDF = 1 (V-S1 after step 2). -/
def exhausted : State :=
  { drawing [] with
    srch := { ld := 0#7, lfd := 0#4, ldf := true, crc8 := 0#8, rom := 0x0F66554433221103#64 } }

/-- Codes of 95_test_vectors.md, as ROM1 and ROM0 side by side. -/
def codeA : RomCode := 0x7566554433221101#64
def codeB : RomCode := 0x0F66554433221103#64
def codeC : RomCode := 0x08000000034CFF28#64
def codeF : RomCode := 0x0000000000000010#64
def codeG : RomCode := 0#64

/-- RESULT, SRCH, ROM0, ROM1, STATUS and the number of events. -/
def shows (r h lo hi st : Word) (n : Nat) (t : State) : Bool :=
  t.register 0x08#6 == r && t.register 0x10#6 == h && t.register 0x14#6 == lo && t.register 0x18#6 == hi &&
    t.register 0x04#6 == st && t.hist.length == n

/-- RESULT, STATUS and the events. -/
def ends (r st : Word) (es : List BusEvent) (t : State) : Bool :=
  t.register 0x08#6 == r && t.register 0x04#6 == st && decide (t.hist = es)

/-! ## Well-formedness (R302, R303) -/

/-- V-E7: DIR_EN = 0 with DIRPIN = 4 has no encoding. -/
theorem test_wf_rejects_reserved_dirpin : (Instr.init 3#8 4#8 false).wf = false := by decide
theorem test_wf_accepts_dirpin : (Instr.init 3#8 4#8 true).wf = true := by decide

/-! ## Decoding (R303, R306): the fixed words of 95_test_vectors.md section 2.1 -/

/-- The word is read as this command. -/
def reads (w : Word) (i : Instr) : Bool :=
  match decodeCommand w with
  | .ok j => decide (j = i)
  | .error _ => false

/-- The word is rejected with this reason. -/
def rejects (w : Word) (e : DecodeError) : Bool :=
  match decodeCommand w with
  | .ok _ => false
  | .error f => decide (f = e)

theorem test_decode_lifecycle :
    reads 0b00000000000000000000001100000001#32 (.init 3#8 0#8 false) &&
    reads 0b00000001000001000000001100000001#32 (.init 3#8 4#8 true) &&
    reads 0b00000000000000000000000000000010#32 .teardown &&
    reads 0b00000000000000000000001000000011#32 (.setFifoThresh 2#8) &&
    reads 0b00000000000000000000000000000100#32 .waitIdle := by decide

theorem test_decode_transfer :
    reads 0b00000000000000000000000000010000#32 .reset &&
    reads 0b00000000000000001100110000010001#32 (.writeByte 0xCC#8) &&
    reads 0b00000000000000000100010000010010#32 (.writeBytePwr 0x44#8) &&
    reads 0b00000000000000000000000000010011#32 .endPower &&
    reads 0b00000000000000000000000000010100#32 .readByte &&
    reads 0b00000000000000000000000000010101#32 (.triplet false) &&
    reads 0b00000000000000000000000100010101#32 (.triplet true) := by decide

theorem test_decode_crc_search_select :
    reads 0b00000000001101000001001000100000#32 (.crc8Upd 0x12#8 0x34#8) &&
    reads 0b00000000000000000000000000110000#32 .searchReset &&
    reads 0b00000000000000001111000000110001#32 (.search 0xF0#8) &&
    reads 0b00000000000000000000000000110010#32 .first &&
    reads 0b00000000000000000000000000110011#32 .next &&
    reads 0b00000000000000000000000001000000#32 .select := by decide

theorem test_decode_slot_words :
    decodeTableWord 8 0b00000000 = some .slotRst ∧ decodeTableWord 8 0b00000001 = some .slotW0 ∧
    decodeTableWord 8 0b00000010 = some .slotW1 ∧ decodeTableWord 8 0b00000011 = some .slotRd ∧
    decodeTableWord 8 0b00000100 = some .slotRel ∧ decodeTableWord 8 0b00001001 = some .slotW0Pwr ∧
    decodeTableWord 8 0b00001010 = some .slotW1Pwr := by decide

/-- R306: KIND 5 to 7, P with RST, RD or REL, and a 1 in bits 7:4 are no slot words. -/
theorem test_decode_slot_words_rejected :
    decodeTableWord 8 0x05 = none ∧ decodeTableWord 8 0x07 = none ∧ decodeTableWord 8 0x08 = none ∧
    decodeTableWord 8 0x0B = none ∧ decodeTableWord 8 0x0C = none ∧ decodeTableWord 8 0x11 = none := by decide

/-- V-E1 to V-E4, V-E6 to V-E9, V-E11, V-E12. -/
theorem test_decode_rejects :
    rejects 0x00000000#32 (.unknownOpcode 0x00#8) && rejects 0x00000005#32 (.unknownOpcode 0x05#8) &&
    rejects 0x000000FF#32 (.unknownOpcode 0xFF#8) && rejects 0x00000215#32 (.reservedBits 0x00000215#32) &&
    rejects 0x01000020#32 (.reservedBits 0x01000020#32) && rejects 0x00040301#32 (.reservedBits 0x00040301#32) &&
    rejects 0x02000301#32 (.reservedBits 0x02000301#32) && rejects 0x00000110#32 (.reservedBits 0x00000110#32) &&
    rejects 0x00010031#32 (.reservedBits 0x00010031#32) && rejects 0x00000141#32 (.unknownOpcode 0x41#8) := by decide

/-! ## Lifecycle -/

/-- V-L1. -/
theorem test_init_claims :
    gives (hostCmd 0x01040301#32 { State.reset with pool := [some ⟨1, 2⟩] })
      (fun t => t.register 0x0C#6 == 0x01000403#32 && shows 0x00010000#32 0#32 0#32 0#32 0x2#32 0 t) := by
  decide +kernel
/-- V-L3: NO_RESOURCE changes only the pad pull. -/
theorem test_init_no_resource :
    gives (hostCmd 0x00000301#32 { State.reset with pool := [none] })
      (fun t => t.pullOff && t.register 0x0C#6 == 0#32 && ends 0x00000010#32 0#32 [] t) := by decide +kernel
/-- V-L13: CFG is kept. -/
theorem test_teardown :
    gives (hostCmd 0x00000002#32 (drawing []))
      (fun t => t.register 0x0C#6 == 0x01000403#32 && ends 0#32 0#32 [] t) := by decide +kernel
/-- V-L18. -/
theorem test_teardown_powered :
    gives (hostCmd 0x00000002#32 powered) (ends 0#32 0#32 [.release]) := by decide +kernel
/-- V-L11: clamped to RXQ_DEPTH 4. -/
theorem test_set_fifo_thresh_clamps :
    gives (hostCmd 0x00000903#32 (drawing [])) (fun t => t.register 0x0C#6 == 0x01040403#32) := by decide +kernel
/-- V-L10. -/
theorem test_set_fifo_thresh :
    gives (hostCmd 0x00000203#32 (drawing [])) (fun t => t.register 0x0C#6 == 0x01020403#32) := by decide +kernel
/-- V-L12. -/
theorem test_wait_idle : gives (hostCmd 0x00000004#32 (drawing [])) (ends 0#32 0x2#32 []) := by decide +kernel

/-! ## Transfer -/

/-- V-T1. -/
theorem test_reset_presence :
    gives (hostCmd 0x00000010#32 (drawing [false])) (ends 0x00010000#32 0x2#32 [.reset false]) := by decide +kernel
/-- V-T2. -/
theorem test_reset_no_presence :
    gives (hostCmd 0x00000010#32 (drawing [true])) (ends 0x00000001#32 0x2#32 [.reset true]) := by decide +kernel
/-- V-T5. -/
theorem test_write_byte :
    gives (hostCmd 0x0000CC11#32 (drawing []))
      (ends 0#32 0x2#32 ([false, false, true, true, false, false, true, true].map (BusEvent.write · false))) := by
  decide +kernel
/-- V-T6. -/
theorem test_write_byte_pwr :
    gives (hostCmd 0x00004412#32 (drawing []))
      (ends 0#32 0x6#32
        ([false, false, true, false, false, false, true].map (BusEvent.write · false) ++ [.write false true])) := by
  decide +kernel
/-- V-T9. -/
theorem test_end_power : gives (hostCmd 0x00000013#32 powered) (ends 0#32 0x2#32 [.release]) := by decide +kernel
/-- V-T10. -/
theorem test_end_power_released : gives (hostCmd 0x00000013#32 (drawing [])) (ends 0#32 0x2#32 []) := by
  decide +kernel
/-- V-T11. -/
theorem test_read_byte :
    gives (hostCmd 0x00000014#32 (drawing [true, false, true, false, false, false, false, false]))
      (ends 0x00000500#32 0x2#32
        [.read true, .read false, .read true, .read false, .read false, .read false, .read false, .read false]) := by
  decide +kernel
/-- V-T14. -/
theorem test_read_byte_high :
    gives (hostCmd 0x00000014#32 (drawing [false, true, true, true, true, true, false, true]))
      (fun t => t.register 0x08#6 == 0x0000BE00#32) := by decide +kernel
/-- V-T18: the samples decide. -/
theorem test_triplet_follows :
    gives (hostCmd 0x00000015#32 (drawing [true, false]))
      (ends 0x00000500#32 0x2#32 [.read true, .read false, .write true false]) := by decide +kernel
/-- V-T20: the preference decides. -/
theorem test_triplet_prefers :
    gives (hostCmd 0x00000115#32 (drawing [false, false]))
      (ends 0x00000400#32 0x2#32 [.read false, .read false, .write true false]) := by decide +kernel

/-! ## CRC8 -/

/-- V-C9 and V-REG7: from reset. -/
theorem test_crc8_upd :
    gives (hostCmd 0x00341220#32 State.reset) (ends 0x0000FE00#32 0#32 []) := by decide +kernel
/-- V-T8: legal while powered. -/
theorem test_crc8_upd_powered : gives (hostCmd 0x00010020#32 powered) (ends 0x00005E00#32 0x6#32 []) := by
  decide +kernel
/-- V-C10, V-C12 to V-C17. -/
theorem test_crc8_buffer :
    crc8Buffer [0x31#8, 0x32#8, 0x33#8, 0x34#8, 0x35#8, 0x36#8, 0x37#8, 0x38#8, 0x39#8] = 0xA1#8 ∧
    crc8Buffer (romBytes codeA) = 0#8 ∧ crc8Buffer (romBytes codeC) = 0#8 ∧ crc8Buffer (romBytes codeG) = 0#8 ∧
    crc8Buffer (romBytes codeF) = 0x54#8 ∧ crc8Buffer [] = 0#8 ∧
    crc8Buffer (List.replicate 8 0xFF#8) = 0xC9#8 := by decide +kernel

/-! ## Search -/

/-- V-S11: the code is kept. -/
theorem test_search_reset :
    gives (hostCmd 0x00000030#32 exhausted) (shows 0#32 0#32 0x33221103#32 0x0F665544#32 0x2#32 0) := by
  decide +kernel
/-- V-S1 step 1. -/
theorem test_first_scenario_a :
    gives (hostCmd 0x00000032#32 (withDevices [codeA, codeB]))
      (shows 0x00010000#32 0x00000202#32 0x33221101#32 0x75665544#32 0x12#32 201) := by decide +kernel
/-- V-S2. -/
theorem test_first_no_device :
    gives (hostCmd 0x00000032#32 (withDevices [])) (shows 0x00000001#32 0#32 0#32 0#32 0x2#32 1) := by decide +kernel
/-- V-S1 step 2, from the state of step 1. -/
theorem test_next_scenario_a :
    gives (hostCmd 0x00000033#32 { withDevices [codeA, codeB] with
        srch := { ld := 2#7, lfd := 2#4, ldf := false, crc8 := 0#8, rom := codeA } })
      (shows 0x00010000#32 0x00001000#32 0x33221103#32 0x0F665544#32 0x22#32 201) := by decide +kernel
/-- V-S1 step 3. -/
theorem test_next_exhausted :
    gives (hostCmd 0x00000033#32 exhausted) (shows 0x00000002#32 0#32 0x33221103#32 0x0F665544#32 0x2#32 0) := by
  decide +kernel
/-- V-S8: no device in alarm. -/
theorem test_search_alarm_none :
    gives (hostCmd 0x0000EC31#32 (withDevices [codeA, codeB])) (fun t =>
      shows 0x00000003#32 0#32 0#32 0#32 0x2#32 12 t && ends 0x00000003#32 0x2#32
        ([.reset false] ++ [false, false, true, true, false, true, true, true].map (BusEvent.write · false) ++
          [.read true, .read true, .write false false]) t) := by decide +kernel
/-- V-S9: only B in alarm. -/
theorem test_search_alarm_b :
    gives (hostCmd 0x0000EC31#32 (claimed (.reference
        [{ rom := codeA, alarm := false, mode := .inactive }, { rom := codeB, alarm := true, mode := .inactive }])))
      (shows 0x00010000#32 0x00001000#32 0x33221103#32 0x0F665544#32 0x22#32 201) := by decide +kernel
/-- V-S6: CRC_FAIL. -/
theorem test_first_crc_fail :
    gives (hostCmd 0x00000032#32 (withDevices [codeF])) (shows 0x00000004#32 0x00540000#32 0#32 0#32 0x2#32 201) := by
  decide +kernel
/-- V-S7: FAMILY_ZERO. -/
theorem test_next_family_zero :
    gives (hostCmd 0x00000033#32 (withDevices [codeG])) (shows 0x00000005#32 0#32 0#32 0#32 0x2#32 201) := by
  decide +kernel

/-- R604, R610, R612: the second sample of a bit only queues the write slot; R614, R616: once that slot has ended the
bit is recorded, LD and LFD are set, and the pass completes (code A; LD = LFD = 2 as in R604's example). -/
theorem test_record_after_write :
    (let s := { scanning with txq := [], rxq := [false] }.sequencerTurn.sequencerTurn;
      s.txq = [.w1] ∧ s.srch = scanning.srch) ∧
    (recording false).sequencerTurn = recording false ∧
    (let t := { recording false with txq := [] }.sequencerTurn;
      t.busy = false ∧ t.result.flag = true ∧ t.result.code = .ok ∧ t.srch.rom = codeA ∧ t.srch.ld = 2#7 ∧
        t.srch.lfd = 2#4 ∧ t.srch.ldf = false) := by decide +kernel

/-- R610, R617: after (1, 1) the code is discarded only once the write slot has ended. -/
theorem test_abort_after_write :
    (recording true).sequencerTurn = recording true ∧ (recording true).engineTurn.sequencerTurn.srch.rom ≠ 0#64 ∧
    (let t := { recording true with txq := [] }.sequencerTurn;
      t.busy = false ∧ t.result.code = .noResponse ∧ t.srch.rom = 0#64) := by decide +kernel

/-! ## Select -/

/-- V-SEL1: 73 events, and the device is selected. -/
theorem test_select :
    gives (hostCmd 0x00000040#32 { withDevices [codeC] with selrom := codeC }) (fun t =>
      shows 0x00010000#32 0#32 0#32 0#32 0x2#32 73 t &&
        decide (t.bus = .reference [{ rom := codeC, alarm := false, mode := .selected }])) := by decide +kernel
/-- V-SEL2. -/
theorem test_select_no_presence :
    gives (hostCmd 0x00000040#32 (drawing [true])) (ends 0x00000001#32 0x2#32 [.reset true]) := by decide +kernel

/-! ## Slot words: the tables of R421 to R426, from an IDLE engine -/

theorem test_slot_rst :
    gives (exec .slotRst (drawing [false])) (fun t => decide (t.rxq = [false] ∧ t.line = .rel) &&
      decide (t.hist = [.reset false] ∧ t.engine = .idle)) := by decide +kernel
theorem test_slot_w0 :
    gives (exec .slotW0 (drawing [])) (fun t => decide (t.hist = [.write false false] ∧ t.line = .rel)) := by decide
theorem test_slot_w1 :
    gives (exec .slotW1 (drawing [])) (fun t => decide (t.hist = [.write true false] ∧ t.line = .rel)) := by decide
theorem test_slot_rd :
    gives (exec .slotRd (drawing [true])) (fun t => decide (t.hist = [.read true] ∧ t.rxq = [true])) := by decide
theorem test_slot_rel :
    gives (exec .slotRel powered) (fun t => decide (t.hist = [.release] ∧ t.line = .rel)) := by decide
theorem test_slot_w0_pwr :
    gives (exec .slotW0Pwr (drawing [])) (fun t => decide (t.hist = [.write false true] ∧ t.line = .pwr)) := by decide
theorem test_slot_w1_pwr :
    gives (exec .slotW1Pwr (drawing [])) (fun t => decide (t.hist = [.write true true] ∧ t.line = .pwr)) := by decide

/-! ## Registers and faults -/

/-- V-REG4, V-REG5. -/
theorem test_bad_access :
    faults (hostRead 16 0x04#6 State.reset) (.badAccess 0x04#6 16) &&
    faults (hostRead 32 0x06#6 State.reset) (.badAccess 0x06#6 32) := by decide
/-- V-REG3 and V-REG2: SEL0 takes the write, STATUS ignores it. -/
theorem test_writes :
    gives (hostWrite 32 0x1C#6 0x12345678#32 State.reset) (fun t => t.register 0x1C#6 == 0x12345678#32) &&
    gives (hostWrite 32 0x04#6 0xFFFFFFFF#32 State.reset) (fun t => decide (t = State.reset)) := by decide +kernel
/-- V-REG6, V-SEL5. -/
theorem test_busy_writes :
    faults (hostWrite 32 0x00#6 0x00000004#32 busy) (.busyWrite 0x00000004#32) &&
    faults (hostWrite 32 0x1C#6 7#32 busy) (.selWhileBusy 0x1C#6 7#32) := by decide
/-- V-REG9: BUSY is 1 and RESULT still the previous value. -/
theorem test_reads_while_busy :
    gives (hostRead 32 0x04#6 busy) (fun t => t.readData == 0x3#32) &&
    gives (hostRead 32 0x08#6 busy) (fun t => t.readData == 0x00010000#32) := by decide +kernel
/-- V-L4, V-L5, V-L6, V-L7. -/
theorem test_init_faults :
    faults (hostCmd 0x00000501#32 (drawing [])) (.alreadyClaimed 0x00000501#32) &&
    faults (hostCmd 0x00001E01#32 State.reset) (.badPin 0x00001E01#32) &&
    faults (hostCmd 0x01030301#32 State.reset) (.badPin 0x01030301#32) &&
    faults (hostCmd 0x01040301#32 { State.reset with params := { Params.default with hasDir := false } })
      (.badPin 0x01040301#32) := by decide
/-- V-L15, V-T7, V-S13. -/
theorem test_command_faults :
    faults (hostCmd 0x00000010#32 State.reset) (.notClaimed 0x00000010#32) &&
    faults (hostCmd 0x00000010#32 powered) (.powered 0x00000010#32) &&
    faults (hostCmd 0x0000F031#32 powered) (.powered 0x0000F031#32) &&
    faults (hostCmd 0x00000030#32 State.reset) (.notClaimed 0x00000030#32) := by decide
/-- V-REG8: an illegal word on the unclaimed block. -/
theorem test_illegal : gives (hostCmd 0x00000000#32 State.reset) (ends 0x000000FE#32 0#32 []) := by decide +kernel
/-- R442: with a sample queued and no threshold RXRDY reads 1; with threshold 2 it reads 0. -/
theorem test_rxrdy :
    ({ busy with rxq := [true] } : State).statusWord.getLsbD 3 = true ∧
    ({ busy with rxq := [true], cfg := { busy.cfg with thresh := 2#8 } } : State).statusWord.getLsbD 3 = false := by
  decide
/-- A placed word runs in the next step: V-REG7's command and a slot word. -/
theorem test_placed_words :
    gives (step (State.reset.withFetchWord 32 0x00341220)) (fun t => t.register 0x08#6 == 0x0000FE00#32) &&
    gives (step (State.reset.withFetchWord 8 0x02)) (fun t => decide (t.hist = [.write true false])) := by
  decide +kernel

/-! ## Witnesses: the hypotheses of every obligation that has some -/

theorem test_meets_DecodingReadsBackEveryEncoding :
    (Instr.init 0#8 0#8 false).wf = true ∧ (Instr.init 255#8 255#8 true).wf = true ∧
    (Instr.crc8Upd 255#8 255#8).wf = true ∧ Instr.slotRel.wf = true := by decide

theorem test_meets_AcceptedWordsAreEncodings :
    reads 0x00000002#32 .teardown = true ∧ reads 0x01FFFF01#32 (.init 255#8 255#8 true) = true ∧
    decodeTableWord 8 0x0A = some .slotW1Pwr := by decide

theorem test_meets_IllegalWordsOnlyReportIllegal :
    State.reset.busy = false ∧ rejects 0x00000000#32 (.unknownOpcode 0x00#8) = true ∧
    powered.busy = false ∧ rejects 0x00000215#32 (.reservedBits 0x00000215#32) = true := by decide

/-- Each kind of input next. -/
theorem test_meets_StepRunsTheDecodedCommand :
    (let s := { drawing [] with input := [.cmd 0x00000010#32] };
      s.input = .cmd 0x00000010#32 :: [] ∧ s.busy = false ∧ reads 0x00000010#32 .reset = true) ∧
    ({ busy with input := [.write 32 0x1C#6 1#32] } : State).input = .write 32 0x1C#6 1#32 :: [] ∧
    ({ busy with input := [.read 32 0x04#6] } : State).input = .read 32 0x04#6 :: [] ∧
    ({ busy with input := [.sequencerTurn] } : State).input = .sequencerTurn :: [] ∧
    ({ busy with input := [.engineTurn] } : State).input = .engineTurn :: [] ∧
    ({ busy with input := [.blockReset] } : State).input = .blockReset :: [] := by decide

/-- A queued word, a slot in progress, an IDLE and a STOPPED engine with nothing to do. -/
theorem test_meets_StepRunsTheQueuedSlotWord :
    (busy.input = [] ∧ busy.engine = .idle ∧ busy.txq = .rst :: []) ∧
    (let s := { busy with txq := [], line := .low, engine := .run .rst .low };
      s.input = [] ∧ s.engine = .run .rst .low) ∧
    ((drawing []).input = [] ∧ (drawing []).engine = .idle ∧ (drawing []).txq = []) ∧
    (starting.input = [] ∧ starting.engine = .stopped) := by decide

theorem test_meets_BlockResetGivesTheResetValues :
    ({ busy with input := [.blockReset] } : State).input = .blockReset :: [] := by decide

theorem test_meets_HostReadsChangeNothing :
    (0x00#6 : BitVec 6).toNat % 4 = 0 ∧ (0x3C#6 : BitVec 6).toNat % 4 = 0 ∧
    (busy.busy = true ∧ (0x18#6 : BitVec 6).toNat % 4 = 0) ∧ State.reset.busy = false := by decide

theorem test_meets_BadAccessesFault : (16 ≠ 32) ∧ (0x3F#6 : BitVec 6).toNat % 4 ≠ 0 := by decide

theorem test_meets_ReservedAndReadOnlyOffsets :
    ((0x00#6 : BitVec 6).toNat % 4 = 0 ∧ (0x00#6 : BitVec 6).toNat = 0) ∧
    ((0x24#6 : BitVec 6).toNat % 4 = 0 ∧ 0x24 ≤ (0x24#6 : BitVec 6).toNat) ∧
    ((0x04#6 : BitVec 6).toNat % 4 = 0 ∧ (0x04#6 : BitVec 6).toNat ≠ 0 ∧ (0x04#6 : BitVec 6).toNat ≠ 0x1C ∧
      (0x04#6 : BitVec 6).toNat ≠ 0x20) ∧
    ((0x3C#6 : BitVec 6).toNat % 4 = 0 ∧ 0x24 ≤ (0x3C#6 : BitVec 6).toNat ∧ (0x3C#6 : BitVec 6).toNat ≠ 0x20) := by
  decide

/-- Also the hypothesis of CmdWritesWhileBusyFault. -/
theorem test_meets_SelWritesStoreTheirHalf : State.reset.busy = false ∧ busy.busy = true := by decide

/-- The last pin and direction pin of the platform, and DIR_EN = 0. -/
theorem test_meets_InitClaimsOrReportsNoResource :
    (State.reset.handle = none ∧ (29#8 : Byte).toNat < State.reset.params.nGpio ∧
      (true = true → State.reset.params.hasDir = true ∧ (0#8 : Byte).toNat < State.reset.params.nGpio ∧
        (0#8 : Byte) ≠ 29#8) ∧ State.reset.pool = []) ∧
    (let s := { State.reset with pool := [some ⟨0, 0⟩] };
      s.handle = none ∧ (0#8 : Byte).toNat < s.params.nGpio ∧
        (false = true → s.params.hasDir = true ∧ (0#8 : Byte).toNat < s.params.nGpio ∧ (0#8 : Byte) ≠ 0#8) ∧
        s.pool = some ⟨0, 0⟩ :: []) ∧
    (let s := { State.reset with pool := [none] };
      s.handle = none ∧ (3#8 : Byte).toNat < s.params.nGpio ∧
        (true = true → s.params.hasDir = true ∧ (29#8 : Byte).toNat < s.params.nGpio ∧ (29#8 : Byte) ≠ 3#8) ∧
        s.pool = none :: []) := by decide

/-- A claimed block; and unclaimed ones whose pins are bad, in each way, or good. -/
theorem test_meets_InitChecksClaimThenPins :
    (drawing []).handle ≠ none ∧
    (State.reset.handle = none ∧ State.reset.params.nGpio ≤ (30#8 : Byte).toNat) ∧
    (let s := { State.reset with params := { Params.default with hasDir := false } };
      s.handle = none ∧ true = true ∧ s.params.hasDir = false) ∧
    (State.reset.handle = none ∧ true = true ∧ State.reset.params.nGpio ≤ (30#8 : Byte).toNat) ∧
    (State.reset.handle = none ∧ true = true ∧ (3#8 : Byte) = 3#8) ∧
    (State.reset.handle = none ∧ ¬ State.reset.params.nGpio ≤ (29#8 : Byte).toNat ∧ ¬ false = true) := by decide

theorem test_meets_TeardownReleasesTheEngine :
    (powered.handle ≠ none ∧ powered.line = .pwr) ∧ ((drawing []).handle ≠ none ∧ (drawing []).line ≠ .pwr) := by
  decide

/-- Also the hypothesis of SearchResetKeepsTheCode. -/
theorem test_meets_ThresholdIsClamped : (drawing []).handle ≠ none := by decide

theorem test_meets_WaitIdleChangesOnlyResult : (drawing []).Claimed ∧ powered.Claimed := by decide

theorem test_meets_CommandsNeedAHandle :
    State.reset.handle = none ∧ Instr.slot? .teardown = none ∧ (∀ p d e, Instr.teardown ≠ .init p d e) ∧
    (∀ a d, Instr.teardown ≠ .crc8Upd a d) :=
  ⟨rfl, rfl, fun _ _ _ h => Instr.noConfusion h, fun _ _ h => Instr.noConfusion h⟩

theorem test_meets_BusCommandsNeedAReleasedLine : powered.handle ≠ none ∧ powered.line = .pwr := by decide

theorem test_meets_CheckedCommandsComplete :
    (Instr.slot? .reset = none ∧ commandFault .reset (drawing []) = none) ∧
    (Instr.slot? .endPower = none ∧ commandFault .endPower powered = none) ∧
    (Instr.slot? .next = none ∧ commandFault .next powered = some (.powered 0x00000033#32)) := by decide

/-- The hypotheses of ResetReportsPresence, WriteByteSendsLsbFirst, WriteBytePwrHoldsTheLine,
ReadByteCollectsItsSamples, TripletReadsTwiceAndWrites and FirstForgetsTheSearchState, with scripted draws. -/
theorem test_meets_ready :
    (let s := drawing [true, false, true, false, false, false, false, false];
      s.Ready ∧ s.bus = .draws (true :: [false, true, false, false, false, false, false]) ∧
      s.bus = .draws (true :: false :: [true, false, false, false, false, false]) ∧
      s.bus = .draws ([true, false, true, false, false, false, false, false] ++ []) ∧
      [true, false, true, false, false, false, false, false].length = 8 ∧
      (5#8 : Byte).toNat = ([true, false, true, false, false, false, false, false].zipIdx.map
        fun x => if x.1 then 2 ^ x.2 else 0).sum) ∧ (drawing []).Ready := by decide

theorem test_meets_EndPowerReleasesTheLine :
    (powered.Claimed ∧ powered.line = .pwr) ∧ ((drawing []).Claimed ∧ (drawing []).line ≠ .pwr) := by decide

theorem test_meets_ExhaustedSearchesMakeNoSlot :
    exhausted.handle ≠ none ∧ exhausted.line ≠ .pwr ∧ exhausted.srch.ldf = true := by decide

theorem test_meets_NoPresenceEndsThePass :
    (drawing [true]).Ready ∧ ((drawing [true]).drawLevel .rst).1 = true ∧ (drawing [true]).srch.ldf = false ∧
    (let s := { exhausted with bus := .reference [] }; s.Ready ∧ (s.drawLevel .rst).1 = true) := by decide

/-- Each outcome of a pass with a presence is met: test_search_alarm_none, test_first_crc_fail,
test_next_family_zero and test_first_scenario_a run one each from such states. -/
theorem test_meets_PassFollowsItsSamples :
    (let s := withDevices [codeA, codeB]; s.Ready ∧ s.srch.ldf = false ∧ (s.drawLevel .rst).1 = false) ∧
    (let s := withDevices [codeF]; s.Ready ∧ s.srch.ldf = false ∧ (s.drawLevel .rst).1 = false) ∧
    (let s := withDevices [codeG]; s.Ready ∧ s.srch.ldf = false ∧ (s.drawLevel .rst).1 = false) ∧
    (let drawn := List.replicate 64 (false, true);
      let s := drawing (false :: pairDraws drawn ++ [true]);
      s.Ready ∧ s.srch.ldf = false ∧ (s.drawLevel .rst).1 = false ∧ drawn.length = 64 ∧
        s.bus = .draws (false :: pairDraws drawn ++ [true])) := by decide +kernel

/-- A pass that finds a code (V-S3) and one that does not (V-S2); every slot word of them runs. -/
theorem test_meets_OnlyValidCodesAreFound :
    gives (exec .first (withDevices [codeC])) (fun t => t.result.flag) = true ∧
    gives (exec .next (withDevices [])) (fun t => !t.result.flag) = true := by decide +kernel

theorem test_meets_FirstAndNextAreSearch :
    ((drawing []).handle ≠ none ∧ (drawing []).line ≠ .pwr) ∧ (exhausted.handle ≠ none ∧ exhausted.line ≠ .pwr) := by
  decide

/-- Both cases of FirstForgetsTheSearchState occur. -/
theorem test_meets_FirstForgetsTheSearchState :
    gives (exec .first (withDevices [])) (fun t => decide (t.result.code = .noPresence)) = true ∧
    gives (exec .first { withDevices [codeC] with srch := exhausted.srch })
      (fun t => decide (t.result.code ≠ .noPresence)) = true := by decide +kernel

/-- With two devices and with none. -/
theorem test_meets_EnumerationFindsEveryDeviceOnce :
    (let ds : List Device := [codeA, codeB].map fun r => { rom := r, alarm := false, mode := .inactive };
      (withDevices [codeA, codeB]).Ready ∧ (withDevices [codeA, codeB]).bus = .reference ds ∧
      (ds.map fun d => d.rom).Nodup ∧
      ∀ d ∈ ds, crc8Buffer (romBytes d.rom) = 0#8 ∧ romByte d.rom 0 ≠ 0#8) ∧
    (withDevices []).Ready ∧ (withDevices []).bus = .reference [] := by decide +kernel

theorem test_meets_SingleDeviceIsFoundThenExhausted :
    (let d : Device := { rom := codeC, alarm := false, mode := .inactive };
      (withDevices [codeC]).Ready ∧ (withDevices [codeC]).bus = .reference [d] ∧
      crc8Buffer (romBytes d.rom) = 0#8 ∧ romByte d.rom 0 ≠ 0#8) := by decide +kernel

theorem test_meets_SelectSendsTheCode :
    ((drawing [false]).Ready ∧ ((drawing [false]).drawLevel .rst).1 = false) ∧
    ((drawing [true]).Ready ∧ ((drawing [true]).drawLevel .rst).1 = true) := by decide

/-- Also the hypothesis of SampleSlots; and of StoppedEngineTakesNoSlotWord. -/
theorem test_meets_WriteAndReleaseSlots : powered.engine = .idle ∧ State.reset.engine = .stopped := by decide

theorem test_meets_SlotPointsInOrder :
    (Params.default.ok = true ∧ sampleAt Params.default .rst = some 550 ∧ sampleAt Params.default .rd = some 15) ∧
    (busy.engine = .idle ∧ busy.txq = Slot.rst :: [] ∧ Slot.rst ≠ .rel) ∧
    (writing.engine = .idle ∧ writing.txq = Slot.w0 :: [] ∧ Slot.w0 ≠ .rel ∧ Slot.w0 ≠ .rst ∧ Slot.w0 ≠ .rd) ∧
    (let s := { powered with txq := [.rel] }; s.engine = .idle ∧ s.txq = Slot.rel :: [] ∧ s.line = .pwr) := by
  decide

theorem test_meets_CommandsTakeTheirBusTime :
    ((drawing [true]).Claimed ∧ (drawing [true]).line = .rel ∧
      gives (exec .reset (drawing [true])) (fun _ => true) = true) ∧
    (powered.Claimed ∧ powered.line = .pwr ∧ gives (exec .endPower powered) (fun _ => true) = true) ∧
    gives (exec .teardown powered) (fun _ => true) = true := by decide

theorem test_meets_DirPinFollowsTheLine :
    (powered.cfg.dirEn = true ∧ powered.handle ≠ none ∧ powered.line = .pwr) ∧
    (let s := { busy with line := .low, engine := .run .rst .low };
      s.cfg.dirEn = true ∧ s.handle ≠ none ∧ s.line = .low) ∧
    ((drawing []).cfg.dirEn = true ∧ (drawing []).handle ≠ none ∧ (drawing []).line = .rel) ∧
    State.reset.handle = none ∧ State.reset.cfg.dirEn = false := by decide

theorem test_meets_EveryRegisterHasItsWriters :
    gives (exec .waitIdle (drawing [])) (fun _ => true) = true ∧
    gives (exec .slotW1 (drawing [])) (fun _ => true) = true ∧ Instr.slot? .slotW1 ≠ none := by decide

/-- One that completes, one that faults, one that is refused; host writes; moves of the sequencer with no command, a
waiting one and one about to begin; and offsets and bits of the other clauses. -/
theorem test_meets_ThresholdChangesOnlyRxrdy :
    gives (exec .reset (drawing [true])) (fun _ => true) = true ∧
    faults (exec .reset powered) (.powered 0x00000010#32) = true ∧
    refuses (exec .slotRd State.reset) .engineStopped = true ∧
    gives (hostWrite 32 0x00#6 0x00000010#32 (drawing [])) (fun _ => true) = true ∧
    faults (hostWrite 32 0x00#6 0x00000010#32 busy) (.busyWrite 0x00000010#32) = true ∧
    (drawing []).seq = none ∧ busy.seq = some ⟨[], .sample .reset⟩ ∧
    starting.seq = some ⟨[], .start (.crc8Upd 0x12#8 0x34#8)⟩ ∧
    (0x08#6 : BitVec 6) ≠ 0x0C#6 ∧ (0x08#6 : BitVec 6) ≠ 0x04#6 ∧ 4 ≠ 3 := by decide

/-- A step that appends an event. -/
theorem test_meets_HistoryOnlyGrows :
    busy.input = [] ∧ gives (step busy) (fun t => decide (t.hist = [.reset false])) = true := by decide

/-! ## The invariant holds of a command in each phase: accepted, waiting for a sample, pushing its words -/

theorem starting_startOk : starting.StartOk := by
  intro q i hq hc
  obtain rfl : _ = q := Option.some.inj hq
  obtain rfl : _ = i := Cont.start.inj hc
  decide

theorem busy_startOk : busy.StartOk := by
  intro q i hq hc
  obtain rfl : _ = q := Option.some.inj hq
  exact Cont.noConfusion hc

theorem writing_startOk : writing.StartOk := by
  intro q i hq hc
  obtain rfl : _ = q := Option.some.inj hq
  exact Cont.noConfusion hc

theorem drawing_startOk : (drawing []).StartOk := by
  intro q i hq
  cases hq

/-- Between commands: BUSY = 0. -/
theorem test_inv_drawing : (drawing []).Inv where
  params := by decide
  stopped := by decide
  driven := show (drawing []).line ≠ .low by decide
  parked := by decide
  quiet := by decide
  depths := by decide
  samples := by decide
  released := by decide
  waiting := by decide
  start := drawing_startOk
  thresh := by decide
  search := show (drawing []).srch.Ok by decide +kernel

theorem test_inv_starting : starting.Inv where
  params := by decide
  stopped := by decide
  driven := show starting.line = .rel by decide
  parked := by decide
  quiet := by decide
  depths := by decide
  samples := by decide
  released := by decide
  waiting := by decide
  start := starting_startOk
  thresh := by decide
  search := show starting.srch.Ok by decide +kernel

theorem test_inv_busy : busy.Inv where
  params := by decide
  stopped := by decide
  driven := show busy.line ≠ .low by decide
  parked := by decide
  quiet := by decide
  depths := by decide
  samples := by decide
  released := by decide
  waiting := by decide
  start := busy_startOk
  thresh := by decide
  search := show busy.srch.Ok by decide +kernel

theorem test_inv_writing : writing.Inv where
  params := by decide
  stopped := by decide
  driven := show writing.line ≠ .low by decide
  parked := by decide
  quiet := by decide
  depths := by decide
  samples := by decide
  released := by decide
  waiting := by decide
  start := writing_startOk
  thresh := by decide
  search := show writing.srch.Ok by decide +kernel

theorem test_inv_scanning : scanning.Inv where
  params := by decide
  stopped := by decide
  driven := show scanning.line ≠ .low by decide
  parked := by decide
  quiet := by decide
  depths := by decide
  samples := by decide
  released := by decide
  waiting := by decide
  start := by
    intro q i hq hc
    obtain rfl : _ = q := Option.some.inj hq
    exact Cont.noConfusion hc
  thresh := by decide
  search := show Scan.Ok { p := 63, lastZero := 2, lastFam := 2 } scanning.srch by decide +kernel

theorem test_inv_recording : (recording false).Inv where
  params := by decide
  stopped := by decide
  driven := show (recording false).line ≠ .low by decide
  parked := by decide
  quiet := by decide
  depths := by decide
  samples := by decide
  released := by decide
  waiting := by decide
  start := by
    intro q i hq hc
    obtain rfl : _ = q := Option.some.inj hq
    exact Cont.noConfusion hc
  thresh := by decide
  search := show Scan.Ok { p := 63, lastZero := 2, lastFam := 2 } (recording false).srch by decide +kernel

/-- Between commands, and with a queued slot word on an IDLE engine; without a handle; a search bit to be recorded, at
rest and with its write slot still queued. -/
theorem test_meets_InvariantGivesTheSpecsRules :
    ((drawing []).Inv ∧ (drawing []).busy = false) ∧
    (writing.Inv ∧ writing.engine = .idle ∧ writing.txq = Slot.w0 :: [] ∧ Slot.w0 ≠ .rel) ∧
    (starting.Inv ∧ starting.handle = none) ∧
    ((recording false).Inv ∧ (recording false).sequencerTurn.busy = true) ∧
    ({ recording false with txq := [] } : State).sequencerTurn.srch ≠ (recording false).srch :=
  ⟨⟨test_inv_drawing, by decide⟩, ⟨test_inv_writing, by decide⟩, ⟨test_inv_starting, by decide⟩, ⟨test_inv_recording, by decide⟩, by decide +kernel⟩

theorem test_meets_EveryStepKeepsTheInvariant :
    (busy.Inv ∧ gives (step busy) (fun _ => true) = true) ∧
    (scanning.Inv ∧ gives (step scanning) (fun _ => true) = true) ∧
    (starting.Inv ∧ gives (step starting) (fun _ => true) = true) :=
  ⟨⟨test_inv_busy, by decide⟩, ⟨test_inv_scanning, by decide⟩, test_inv_starting, by decide⟩

/-- A busy block of each kind, and one between commands. -/
theorem test_meets_MovesKeepTheOutcome :
    (starting.StartOk ∧ (starting.busy = false → starting.Quiet)) ∧
    (busy.StartOk ∧ (busy.busy = false → busy.Quiet)) ∧
    ((drawing []).StartOk ∧ ((drawing []).busy = false → (drawing []).Quiet)) :=
  ⟨⟨starting_startOk, by decide⟩, ⟨busy_startOk, by decide⟩, ⟨drawing_startOk, by decide⟩⟩

theorem test_meets_WritingCmdStartsTheCommand :
    ((drawing [false]).Quiet ∧ gives (hostWrite 32 0x00#6 0x00000010#32 (drawing [false])) (fun _ => true) = true) ∧
    (powered.Quiet ∧ faults (hostWrite 32 0x00#6 0x00000010#32 powered) (.powered 0x00000010#32) = true) ∧
    ((drawing []).busy = false ∧ reads 0x00000010#32 .reset = true ∧ commandFault .reset (drawing []) = none) := by
  decide

/-- R105, R106, R219: the write of INIT's word sets BUSY; RESULT and CFG stay until it completes. -/
theorem test_write_cmd_sets_busy :
    gives (hostWrite 32 0x00#6 0x01040301#32 State.reset)
      (fun t => t.register 0x04#6 == 0x1#32 && t.register 0x08#6 == 0#32 && t.register 0x0C#6 == 0#32) := by
  decide +kernel

theorem test_meets_CommandsCompleteByThemselves : busy.Inv ∧ busy.input = [] := ⟨test_inv_busy, by decide⟩

/-- The block's own move: no input is left. -/
theorem test_meets_OnlyHostAccessesStop :
    busy.Inv ∧ (∀ w rest, busy.input ≠ .cmd w :: rest) ∧ (∀ width off v rest, busy.input ≠ .write width off v :: rest) ∧
    (∀ width off rest, busy.input ≠ .read width off :: rest) :=
  by
  refine ⟨test_inv_busy, ?_, ?_, ?_⟩ <;> simp [busy, drawing, claimed, State.reset]

end Sys2Proof.Tests
end

section
/-! PROOFS. The family of 10_state.md: which instruction writes which state, what the invariant says of a state and of
the next move, the reset values. -/

namespace Sys2Proof.Machine

/-! ## Which instructions write which state (R109, R114, R115) -/

/-- t comes from s by an instruction that writes at most RESULT and the line. -/
structure FromTransfer (s t : State) : Prop extends FromCommand s t where
  srch : t.srch = s.srch

theorem FromSlots.transfer {s t : State} (h : FromSlots s t) : FromTransfer s t := ⟨h.command, h.srch⟩

theorem FromSlots.finishWith {s t : State} (h : FromSlots s t) (r : ResultReg) : FromTransfer s (t.finishWith r) :=
  ⟨h.command.trans (fromCommand_finishWith t r), (finishWith_srch t r).trans h.srch⟩

theorem fromTransfer_complete (s : State) (r : ResultReg) : FromTransfer s (s.complete r) :=
  ⟨⟨rfl, rfl, rfl, rfl, rfl, rfl, rfl, rfl, List.prefix_refl _⟩, rfl⟩

/-- What an instruction that leads from s to t writes, by the kind of the instruction. -/
inductive Writes (s t : State) : Instr → Prop where
  /-- INIT: everything but `selrom` and what is not OWM's (R451, R453). -/
  | init {p d : Byte} {e : Bool} (selrom : t.selrom = s.selrom) (params : t.params = s.params)
      (input : t.input = s.input) (readData : t.readData = s.readData) : Writes s t (.init p d e)
  /-- TEARDOWN: the engine, the line with its event, the handle and RESULT (R455). -/
  | teardown (only : t = { s with
      engine := t.engine, line := t.line, handle := t.handle, result := t.result, seq := t.seq, hist := t.hist,
      bus := t.bus }) : Writes s t .teardown
  /-- SET_FIFO_THRESH: CFG and RESULT (R458). -/
  | setFifoThresh {x : Byte} (only : t = { s with cfg := t.cfg, result := t.result, seq := t.seq }) :
      Writes s t (.setFifoThresh x)
  /-- The four commands of 44_search.md: the search state, RESULT and the line. -/
  | search {i : Instr} (is : i = .searchReset ∨ (∃ c, i = .search c) ∨ i = .first ∨ i = .next)
      (only : FromCommand s t) : Writes s t i
  /-- Every other instruction, slot words among them: at most RESULT and the line. -/
  | transfer {i : Instr} (only : FromTransfer s t) : Writes s t i

theorem writes_init (p d : Byte) (e : Bool) (s : State) : Writes s (initSteps p d e s) (.init p d e) := by
  simp only [initSteps]
  split <;> rw [claim_eq] <;> exact .init rfl rfl rfl rfl

theorem writes_teardown (s : State) : Writes s (teardownSteps s) .teardown := by
  refine .teardown ?_
  simp only [teardownSteps]
  split <;> rfl

/-- What the steps of each instruction write. -/
theorem writes_commandSteps (i : Instr) (s : State) : Writes s (commandSteps i s) i := by
  have queued := fromSlots_queue s
  have sampled := fromSlots_slot s
  cases i with
  | init p d e => exact writes_init p d e s
  | teardown => exact writes_teardown s
  | setFifoThresh x => exact .setFifoThresh rfl
  | waitIdle => exact .transfer ((FromSlots.refl s).finishWith _)
  | reset => exact .transfer ((sampled .rst).finishWith _)
  | writeByte d => exact .transfer ((queued _).finishWith _)
  | writeBytePwr d => exact .transfer ((queued _).finishWith _)
  | endPower => exact .transfer ((queued _).finishWith _)
  | readByte => exact .transfer ((fromSlots_readBits 8 0 0#8 s).finishWith _)
  | triplet pref =>
    exact .transfer ((((sampled .rd).trans (fromSlots_slot _ .rd)).trans (fromSlots_queue _ _)).finishWith _)
  | crc8Upd acc d => exact .transfer (fromTransfer_complete s _)
  | searchReset =>
    exact .search (.inl rfl) ((fromCommand_srch s _).trans (fromTransfer_complete s.resetTracking _).toFromCommand)
  | search c => exact .search (.inr (.inl ⟨c, rfl⟩)) (fromCommand_searchPass c s)
  | first =>
    exact .search (.inr (.inr (.inl rfl))) ((fromCommand_srch s _).trans (fromCommand_searchPass _ s.resetTracking))
  | next => exact .search (.inr (.inr (.inr rfl))) (fromCommand_searchPass _ s)
  | select => exact .transfer (((sampled .rst).trans (fromSlots_queue _ _)).finishWith _)
  | slotRst | slotW0 | slotW1 | slotRd | slotRel | slotW0Pwr | slotW1Pwr => exact .transfer (FromSlots.refl s).transfer

/-- An instruction that reads back as a slot is that slot's word (R306). -/
theorem eq_toInstr_of_slot? {i : Instr} {k : Slot} (h : i.slot? = some k) : i = k.toInstr := by
  cases i <;> simp only [Instr.slot?, Option.some.injEq, reduceCtorEq] at h <;> subst h <;> rfl

theorem fromSlots_slotMeaning {s t : State} {k : Slot} (h : s.slotMeaning k = .next t) : FromSlots s t := by
  unfold State.slotMeaning at h
  split at h
  · cases h
  · cases h
    exact (fromSlots_finishSlot s).trans (fromSlots_runSlot _ k)

/-- What each instruction writes, and that a slot word writes no register. -/
theorem writes_exec {i : Instr} {s t : State} (h : exec i s = .next t) :
    Writes s t i ∧ (i.slot? ≠ none → FromSlots s t) := by
  cases hk : i.slot? with
  | none =>
    obtain ⟨-, rfl⟩ := guarded_next ((exec_command hk s).symm.trans h)
    exact ⟨writes_commandSteps i s, fun hn => absurd rfl hn⟩
  | some k =>
    rw [eq_toInstr_of_slot? hk, exec_slot] at h
    have hf := fromSlots_slotMeaning h
    exact ⟨.transfer hf.transfer, fun _ => hf⟩

/-- Settles O51: `Writes` says what each kind of instruction writes, and each clause is read off it. -/
theorem everyRegisterHasItsWriters : Obligations.EveryRegisterHasItsWriters := by
  intro i s t h
  obtain ⟨hw, hslot⟩ := writes_exec h
  have hres : i.slot? ≠ none → t.result = s.result ∧ t.seq = s.seq := fun hn => ⟨(hslot hn).result, (hslot hn).seq⟩
  cases hw with
  | init hsel hpar hin hread =>
    exact ⟨hsel, hpar, hin, hread, fun hi => absurd rfl (hi _ _ _), fun hi => absurd rfl (hi _ _ _),
      fun hi => absurd rfl (hi _ _ _), fun hi => absurd rfl (hi _ _ _), hres⟩
  | teardown only =>
    rw [only]
    exact ⟨rfl, rfl, rfl, rfl, fun _ _ => rfl, fun _ _ _ _ _ => rfl, fun _ ht => absurd rfl ht, fun _ => ⟨rfl, rfl⟩,
      fun hn => absurd rfl hn⟩
  | setFifoThresh only =>
    rw [only]
    exact ⟨rfl, rfl, rfl, rfl, fun _ hf => absurd rfl (hf _), fun _ _ _ _ _ => rfl, fun _ _ => rfl,
      fun _ => ⟨rfl, rfl⟩, fun hn => absurd rfl hn⟩
  | search his f =>
    refine ⟨f.selrom, f.params, f.input, f.readData, fun _ _ => f.cfg, fun _ hr hs hf hx => ?_, fun _ _ => f.handle,
      fun _ => ⟨f.pullOff, f.pool⟩, hres⟩
    obtain rfl | ⟨c, rfl⟩ | rfl | rfl := his
    · exact absurd rfl hr
    · exact absurd rfl (hs c)
    · exact absurd rfl hf
    · exact absurd rfl hx
  | transfer f =>
    exact ⟨f.selrom, f.params, f.input, f.readData, fun _ _ => f.cfg, fun _ _ _ _ _ => f.srch, fun _ _ => f.handle,
      fun _ => ⟨f.pullOff, f.pool⟩, hres⟩

/-! ## What a move of the sequencer changes (R108, R219) -/

/-- Going on with a sample changes the sequencer's position only. -/
theorem resume_eq (w : Wait) (v : Bool) (s : State) : resume w v s = { s with seq := (resume w v s).seq } := by
  cases w with
  | reset | select | tripId _ | tripCmp _ _ | scanId _ | scanCmp _ _ => rfl
  | search c => simp only [resume]; split <;> rfl
  | read i acc => simp only [resume, resumeRead]; split <;> rfl

/-- Recording a bit that leaves the pass going on stores it in `rom_no` and `crc8` only (R612–R614). -/
theorem recordBit_busy {sc : Scan} {id cmp : Bool} {s : State} (h : (recordBit sc id cmp s).busy = true) :
    (recordBit sc id cmp s).result = s.result ∧ (recordBit sc id cmp s).srch.ld = s.srch.ld ∧
      (recordBit sc id cmp s).srch.lfd = s.srch.lfd ∧ (recordBit sc id cmp s).srch.ldf = s.srch.ldf := by
  simp only [recordBit] at h ⊢
  split at h
  · simp [State.busy] at h
  · split at h
    · next hno hp => simp only [hno, hp, if_true]; exact ⟨rfl, rfl, rfl, rfl⟩
    · simp [State.busy] at h

theorem beginPass_busy {c : Byte} {s : State} (h : (beginPass c s).busy = true) :
    (beginPass c s).result = s.result ∧ (beginPass c s).cfg = s.cfg := by
  unfold beginPass at h ⊢
  split at h
  · simp [State.busy] at h
  · next hl => simp only [hl]; exact ⟨rfl, rfl⟩

/-- A first move that leaves the command in progress writes neither RESULT nor CFG: a command that writes CFG
completes in this move (R108, R219). -/
theorem beginCommand_busy {i : Instr} {s : State} (h : (beginCommand i s).busy = true) :
    (beginCommand i s).result = s.result ∧ (beginCommand i s).cfg = s.cfg := by
  cases i with
  | init p d e =>
    simp only [beginCommand, initSteps] at h
    split at h <;> simp [State.busy] at h
  | teardown | setFifoThresh _ | crc8Upd _ _ | searchReset => cases h
  | search _ | first | next => exact beginPass_busy h
  | waitIdle | reset | writeByte _ | writeBytePwr _ | endPower | readByte | triplet _ | select
  | slotRst | slotW0 | slotW1 | slotRd | slotRel | slotW0Pwr | slotW1Pwr => exact ⟨rfl, rfl⟩

/-- A move past the command's first one, with no word to push: it takes a sample or waits, and changes no register; or
every queued slot has ended, and it records a bit or completes, and changes LD, LFD, LDF and RESULT only as it
completes (R112, R607, R610; log 21, log 28). -/
theorem continueWith_cases {c : Cont} (hc : ∀ i, c ≠ .start i) (s : State) :
    s.continueWith c = { s with rxq := (s.continueWith c).rxq, seq := (s.continueWith c).seq } ∨
      s.atRest = true ∧ c.wanted = 0 ∧ (s.continueWith c).cfg = s.cfg ∧
        ((s.continueWith c).busy = true →
          (s.continueWith c).result = s.result ∧ (s.continueWith c).srch.ld = s.srch.ld ∧
            (s.continueWith c).srch.lfd = s.srch.lfd ∧ (s.continueWith c).srch.ldf = s.srch.ldf) := by
  cases c with
  | start i => exact absurd rfl (hc i)
  | sample w =>
    left
    simp only [State.continueWith]
    split
    · rw [resume_eq]
    · rfl
  | record sc id cmp =>
    simp only [State.continueWith]
    split
    · next hr => exact .inr ⟨hr, rfl, by rw [recordBit_eq], recordBit_busy⟩
    · exact .inl rfl
  | absent | done r =>
    simp only [State.continueWith]
    split
    · next hr => exact .inr ⟨hr, rfl, rfl, fun h => by simp [State.busy] at h⟩
    · exact .inl rfl

/-- With no word to push, a move that leaves BUSY = 1 keeps RESULT and CFG (R108, R219). -/
theorem continueWith_busy {s : State} {c : Cont} (h : (s.continueWith c).busy = true) :
    (s.continueWith c).result = s.result ∧ (s.continueWith c).cfg = s.cfg := by
  by_cases hc : ∀ i, c ≠ .start i
  · rcases continueWith_cases hc s with he | ⟨-, -, hcfg, hbusy⟩
    · rw [he]; exact ⟨rfl, rfl⟩
    · exact ⟨(hbusy h).1, hcfg⟩
  · push Not at hc
    obtain ⟨i, rfl⟩ := hc
    exact beginCommand_busy h

/-- A move of the sequencer: it waits, it goes on with no word to push, or it pushes a word. -/
theorem sequencerTurn_cases (s : State) :
    s.sequencerTurn = s ∨ (∃ c, s.seq = some ⟨[], c⟩ ∧ s.sequencerTurn = s.continueWith c) ∨
      ∃ k todo c, s.sequencerTurn = (s.queue [k]).proceed todo c := by
  unfold State.sequencerTurn
  split
  · exact .inl rfl
  · next c hs => exact .inr (.inl ⟨c, hs, rfl⟩)
  · next k todo c _ =>
    split
    · exact .inr (.inr ⟨k, todo, c, rfl⟩)
    · exact .inl rfl

theorem sequencerTurn_busy {s : State} (h : s.sequencerTurn.busy = true) :
    s.sequencerTurn.result = s.result ∧ s.sequencerTurn.cfg = s.cfg := by
  rcases sequencerTurn_cases s with he | ⟨c, -, he⟩ | ⟨k, todo, c, he⟩ <;> rw [he] at h ⊢
  · exact ⟨rfl, rfl⟩
  · exact continueWith_busy h
  · exact ⟨rfl, rfl⟩

/-- Past a command's first move the sequencer changes the search state only with nothing in flight, and LD, LFD and
LDF only as it completes the command (log 21, log 28). -/
theorem sequencerTurn_srch {s : State} (hinv : s.Inv) {q : Seq} (hq : s.seq = some q)
    (hc : ∀ i, q.cont ≠ .start i) :
    (s.sequencerTurn.srch ≠ s.srch →
      q.todo = [] ∧ s.txq = [] ∧ s.rxq = [] ∧ (s.engine = .idle ∨ s.engine = .stopped)) ∧
    (s.sequencerTurn.busy = true →
      s.sequencerTurn.srch.ld = s.srch.ld ∧ s.sequencerTurn.srch.lfd = s.srch.lfd ∧
        s.sequencerTurn.srch.ldf = s.srch.ldf) := by
  rcases sequencerTurn_cases s with he | ⟨c, hs, he⟩ | ⟨k, todo, c, he⟩ <;> rw [he]
  · exact ⟨absurd rfl, fun _ => ⟨rfl, rfl, rfl⟩⟩
  · obtain rfl : q = ⟨[], c⟩ := Option.some.inj (hq.symm.trans hs)
    rcases continueWith_cases hc s with he' | ⟨hrest, hw, -, hbusy⟩
    · rw [he']
      exact ⟨absurd rfl, fun _ => ⟨rfl, rfl, rfl⟩⟩
    · obtain ⟨heng, htx, hrx⟩ := atRest_empty hinv hrest (by simpa only [State.wanted, hs] using hw)
      exact ⟨fun _ => ⟨rfl, htx, hrx, heng⟩, fun h => (hbusy h).2⟩
  · exact ⟨absurd rfl, fun _ => ⟨rfl, rfl, rfl⟩⟩

/-! ## What the invariant says of a state (R116, R403, R443, R520) -/

/-- With an empty queue of samples RXRDY reads 0, whatever the threshold (R442). -/
theorem rxrdy_of_rxq_nil {s : State} (h : s.rxq = []) : s.statusWord.getLsbD 3 = false := by
  rw [statusWord_bit]
  simp [State.rxrdy, h]

/-- Between commands (R116, R443). -/
theorem inv_between {s : State} (h : s.Inv) (hb : s.busy = false) :
    s.txq = [] ∧ s.rxq = [] ∧ (s.engine = .idle ∨ s.engine = .stopped) ∧ s.statusWord.getLsbD 3 = false ∧
      s.srch.Ok := by
  have hs : s.seq = none := by simpa [State.busy] using hb
  obtain ⟨-, htx, hrx, heng⟩ := h.quiet hs
  have hsrch := h.search
  simp only [State.SearchOk, hs] at hsrch
  exact ⟨htx, hrx, heng, rxrdy_of_rxq_nil hrx, hsrch⟩

/-- The word an IDLE engine takes next starts with the line released, unless it is REL (R520). -/
theorem inv_head_released {s : State} (h : s.Inv) {k : Slot} {rest : List Slot} (he : s.engine = .idle)
    (ht : s.txq = k :: rest) (hk : k ≠ .rel) : s.line = .rel := by
  have hline : s.lineAfterSlot = s.line := by simp only [State.lineAfterSlot, he]
  have hpend : ∃ more, s.pendingSlots = k :: more := by
    unfold State.pendingSlots
    split <;> rw [ht] <;> exact ⟨_, rfl⟩
  obtain ⟨more, hpend⟩ := hpend
  have hrel := h.released
  rw [hline, hpend] at hrel
  simp only [startReleased, hk, decide_false, Bool.false_or, Bool.and_eq_true, decide_eq_true_eq] at hrel
  exact hrel.1

/-- Without a handle the engine is STOPPED, so the line is released (R120, R403). -/
theorem inv_unclaimed_released {s : State} (h : s.Inv) (hh : s.handle = none) : s.line = .rel :=
  (lineOk_stopped (h.stopped.mpr hh)).mp h.driven

/-- Settles O54: the clauses on the state are read off the invariant, those on the next move off what a move of the
sequencer and of the engine changes. -/
theorem invariantGivesTheSpecsRules : Obligations.InvariantGivesTheSpecsRules := by
  intro s h
  have hengine := fromSlots_engineTurn s
  exact ⟨inv_between h, fun _ _ => inv_head_released h, inv_unclaimed_released h,
    fun he => (lineOk_idle he).mp h.driven, fun _ => sequencerTurn_srch h, sequencerTurn_busy, hengine.srch,
    hengine.result, hengine.cfg⟩

/-! ## The reset values (R121) -/

theorem register_reset (off : BitVec 6) : State.reset.register off = 0#32 := by
  unfold State.register
  split_ifs <;> rfl

/-- The block reset keeps only what is not OWM's, which no register shows (R801). -/
theorem register_blockReset (s : State) (off : BitVec 6) : s.blockReset.register off = State.reset.register off := rfl

/-- Settles O8: the step gives `State.blockReset`, whose fields are those of the reset state. -/
theorem blockResetGivesTheResetValues : Obligations.BlockResetGivesTheResetValues := by
  refine ⟨fun s rest hin => ?_, rfl, rfl, rfl, rfl, rfl, rfl, rfl, rfl, register_reset⟩
  refine ⟨State.blockReset { s with input := rest }, ?_, rfl, rfl, rfl, rfl, rfl, rfl, rfl, rfl, fun off => ?_⟩
  · simp only [step, stepState, hin, runInput]
  · rw [register_blockReset, register_reset]

end Sys2Proof.Machine
end

section
/-! PROOFS. The family of 20_memory.md: what a host access does, what each register shows, WAIT_IDLE and SELECT. -/

namespace Sys2Proof.Machine

/-! ## The access check (R204) -/

theorem accessFault_aligned {off : BitVec 6} (h : off.toNat % 4 = 0) : accessFault 32 off = none :=
  if_pos ⟨rfl, h⟩

theorem accessFault_bad {width : Nat} {off : BitVec 6} (h : width ≠ 32 ∨ off.toNat % 4 ≠ 0) :
    accessFault width off = some (.badAccess off width) :=
  if_neg fun ⟨hw, ho⟩ => h.elim (· hw) (· ho)

/-- An aligned 32-bit read hands over the value read (R204, R209). -/
theorem hostRead_aligned {off : BitVec 6} (h : off.toNat % 4 = 0) (s : State) :
    hostRead 32 off s = .next { (s.readValue off).2 with readData := (s.readValue off).1 } := by
  rw [hostRead, accessFault_aligned h, guarded]

/-- An aligned 32-bit write is the register's own (R202, R204). -/
theorem hostWrite_aligned {off : BitVec 6} (h : off.toNat % 4 = 0) (v : Word) (s : State) :
    hostWrite 32 off v s = s.writeRegister off v := by
  rw [hostWrite, accessFault_aligned h]

/-- Settles O12: both accesses begin with the access check, which finds BadAccess. -/
theorem badAccessesFault : Obligations.BadAccessesFault := by
  intro s width off v h
  constructor
  · rw [hostRead, accessFault_bad h, guarded]
  · rw [hostWrite, accessFault_bad h]

/-! ## CMD, reserved and read-only offsets (R202) -/

/-- CMD and the reserved offsets are no register's offset: those lie strictly between 0 and 0x24. -/
theorem ne_of_cmd_or_reserved {off n : BitVec 6} (h : off.toNat = 0 ∨ 0x24 ≤ off.toNat)
    (hn : 0 < n.toNat ∧ n.toNat < 0x24) : off ≠ n := by
  rintro rfl
  omega

theorem register_cmd_or_reserved {off : BitVec 6} (h : off.toNat = 0 ∨ 0x24 ≤ off.toNat) (s : State) :
    s.register off = 0#32 := by
  simp [State.register, ne_of_cmd_or_reserved h]

/-- What CMD and the reserved offsets read as is specified while BUSY too (R202, R221). -/
theorem readValue_cmd_or_reserved {off : BitVec 6} (h : off.toNat = 0 ∨ 0x24 ≤ off.toNat) (s : State) :
    s.readValue off = (0#32, s) := by
  have hshow : showsSearch off = false := by simp [showsSearch, ne_of_cmd_or_reserved h]
  simp [State.readValue, hshow, register_cmd_or_reserved h]

/-- Every offset but those of CMD, SEL0 and SEL1 ignores a write (R202). -/
theorem writeRegister_ignored {off : BitVec 6} (h0 : off.toNat ≠ 0) (h1 : off.toNat ≠ 0x1C) (h2 : off.toNat ≠ 0x20)
    (s : State) (v : Word) : s.writeRegister off v = .next s := by
  have e0 : off ≠ 0x00#6 := ne_of_apply_ne BitVec.toNat h0
  have e1 : off ≠ 0x1C#6 := ne_of_apply_ne BitVec.toNat h1
  have e2 : off ≠ 0x20#6 := ne_of_apply_ne BitVec.toNat h2
  rw [State.writeRegister, if_neg e0, if_neg e1, if_neg e2]

/-- Settles O13: reads by `readValue_cmd_or_reserved`, writes by `writeRegister_ignored`. -/
theorem reservedAndReadOnlyOffsets : Obligations.ReservedAndReadOnlyOffsets := by
  intro s off v haligned
  refine ⟨fun hread => ?_, fun ⟨h0, h1, h2⟩ => ?_⟩
  · rw [hostRead_aligned haligned, readValue_cmd_or_reserved hread]
  · rw [hostWrite_aligned haligned, writeRegister_ignored h0 h1 h2]

/-! ## SEL0 and SEL1 (R111, R220) -/

theorem writeSel_busy {s : State} (h : s.busy = true) (off : BitVec 6) (v : Word) (r : RomCode) :
    writeSel off v r s = .fault (.selWhileBusy off v) := if_pos h

theorem writeSel_quiet {s : State} (h : s.busy = false) (off : BitVec 6) (v : Word) (r : RomCode) :
    writeSel off v r s = .next { s with selrom := r } := by
  rw [writeSel, h]
  rfl

theorem hostWrite_sel0 (s : State) (v : Word) :
    hostWrite 32 0x1C#6 v s = writeSel 0x1C#6 v (withLowWord s.selrom v) s := hostWrite_aligned rfl v s

theorem hostWrite_sel1 (s : State) (v : Word) :
    hostWrite 32 0x20#6 v s = writeSel 0x20#6 v (withHighWord s.selrom v) s := hostWrite_aligned rfl v s

theorem register_sel0 (s : State) : s.register 0x1C#6 = lowWord s.selrom := rfl

theorem register_sel1 (s : State) : s.register 0x20#6 = highWord s.selrom := rfl

/-- Settles O14: the half written is the one read back, and the other half is kept. -/
theorem selWritesStoreTheirHalf : Obligations.SelWritesStoreTheirHalf := by
  intro s v
  refine ⟨fun hquiet => ⟨?_, ?_⟩, fun hbusy => ⟨?_, ?_⟩⟩
  · refine ⟨{ s with selrom := withLowWord s.selrom v }, ?_, rfl, ?_, ?_⟩
    · rw [hostWrite_sel0, writeSel_quiet hquiet]
    · rw [register_sel0, lowWord_withLowWord]
    · rw [register_sel1, highWord_withLowWord, register_sel1]
  · refine ⟨{ s with selrom := withHighWord s.selrom v }, ?_, rfl, ?_, ?_⟩
    · rw [hostWrite_sel1, writeSel_quiet hquiet]
    · rw [register_sel1, highWord_withHighWord]
    · rw [register_sel0, lowWord_withHighWord, register_sel0]
  · rw [hostWrite_sel0, writeSel_busy hbusy]
  · rw [hostWrite_sel1, writeSel_busy hbusy]

/-! ## The fields of RESULT, CFG and SRCH (R108–R110) -/

/-- A field of a register word is known by its bits: the bit lemmas of Laws/Registers.lean say which, and in a field
all of them fall under one branch. -/
theorem field_eq {n k len : Nat} {w : BitVec n} {x : BitVec len} (h : ∀ i < len, w.getLsbD (k + i) = x.getLsbD i) :
    w.extractLsb' k len = x := by
  refine BitVec.eq_of_getLsbD_eq fun i hi => ?_
  rw [BitVec.getLsbD_extractLsb', decide_eq_true hi, Bool.true_and, h i hi]

theorem resultWord_fields (r : ResultReg) :
    r.word.extractLsb' 0 8 = r.code.byte ∧ r.word.extractLsb' 8 8 = r.data ∧ r.word.getLsbD 16 = r.flag ∧
      r.word.extractLsb' 17 15 = 0#15 := by
  refine ⟨field_eq fun i hi => ?_, field_eq fun i hi => ?_, ?_, field_eq fun i hi => ?_⟩ <;> rw [resultWord_bit]
  all_goals grind

theorem cfgWord_fields (c : CfgReg) :
    c.word.extractLsb' 0 8 = c.pin ∧ c.word.extractLsb' 8 8 = c.dirpin ∧ c.word.extractLsb' 16 8 = c.thresh ∧
      c.word.getLsbD 24 = c.dirEn ∧ c.word.extractLsb' 25 7 = 0#7 := by
  refine ⟨field_eq fun i hi => ?_, field_eq fun i hi => ?_, field_eq fun i hi => ?_, ?_, field_eq fun i hi => ?_⟩ <;>
    rw [cfgWord_bit]
  all_goals grind

theorem srchWord_fields (r : SearchReg) :
    r.word.extractLsb' 0 7 = r.ld ∧ r.word.getLsbD 7 = false ∧ r.word.extractLsb' 8 4 = r.lfd ∧
      r.word.getLsbD 12 = r.ldf ∧ r.word.extractLsb' 13 3 = 0#3 ∧ r.word.extractLsb' 16 8 = r.crc8 ∧
      r.word.extractLsb' 24 8 = 0#8 := by
  refine ⟨field_eq fun i hi => ?_, ?_, field_eq fun i hi => ?_, ?_, field_eq fun i hi => ?_, field_eq fun i hi => ?_,
    field_eq fun i hi => ?_⟩ <;> rw [srchWord_bit]
  all_goals grind

/-! ## The bytes of a ROM code in its two words (R111, R208) -/

theorem lowWord_byte (r : RomCode) {k : Nat} (hk : k < 4) : (lowWord r).extractLsb' (8 * k) 8 = romByte r k := by
  refine field_eq fun i hi => ?_
  rw [lowWord, romByte, BitVec.getLsbD_extractLsb', BitVec.getLsbD_extractLsb']
  simp [hi, show 8 * k + i < 32 by omega]

theorem highWord_byte (r : RomCode) {k : Nat} (hk : k < 4) :
    (highWord r).extractLsb' (8 * k) 8 = romByte r (4 + k) := by
  refine field_eq fun i hi => ?_
  rw [highWord, romByte, BitVec.getLsbD_extractLsb', BitVec.getLsbD_extractLsb']
  simp [hi, show 8 * k + i < 32 by omega, show 32 + (8 * k + i) = 8 * (4 + k) + i by omega]

/-- Settles O10: the offsets are the register map's, the fields those of each word, the codes those of `Code.byte`. -/
theorem registersShowTheirFields : Obligations.RegistersShowTheirFields := by
  intro s
  have offsets : s.register 0x04#6 = s.statusWord ∧ s.register 0x08#6 = s.result.word ∧
      s.register 0x0C#6 = s.cfg.word ∧ s.register 0x10#6 = s.srch.word := ⟨rfl, rfl, rfl, rfl⟩
  have codes : Code.byte .ok = 0x00#8 ∧ Code.byte .noPresence = 0x01#8 ∧ Code.byte .exhausted = 0x02#8 ∧
      Code.byte .noResponse = 0x03#8 ∧ Code.byte .crcFail = 0x04#8 ∧ Code.byte .familyZero = 0x05#8 ∧
      Code.byte .noResource = 0x10#8 ∧ Code.byte .illegal = 0xFE#8 := ⟨rfl, rfl, rfl, rfl, rfl, rfl, rfl, rfl⟩
  exact ⟨offsets, resultWord_fields s.result, codes, cfgWord_fields s.cfg, srchWord_fields s.srch, fun k hk =>
    ⟨lowWord_byte s.srch.rom hk, highWord_byte s.srch.rom hk, lowWord_byte s.selrom hk, highWord_byte s.selrom hk⟩⟩

/-! ## WAIT_IDLE (R461) -/

/-- Between commands of a claimed block, on any line, completing changes RESULT only (R112). -/
theorem finishWith_claimed {s : State} (h : s.Claimed) (r : ResultReg) : s.finishWith r = { s with result := r } := by
  obtain ⟨-, hengine, hseq, htxq, -⟩ := h
  rw [State.finishWith, settle_rest (.inl hengine) htxq, State.complete, ← hseq]

/-- A command whose checks find nothing is its own steps (R713). -/
theorem exec_checked {i : Instr} {s : State} (hi : i.slot? = none) (h : commandFault i s = none) :
    exec i s = .next (commandSteps i s) := by
  rw [exec_command hi, h, guarded]

/-- Settles O20: with a handle no check finds a fault, and there is nothing to wait for. -/
theorem waitIdleChangesOnlyResult : Obligations.WaitIdleChangesOnlyResult := by
  intro s h
  have hchecks : commandFault .waitIdle s = none := unclaimedFault_none h.1 _
  calc exec .waitIdle s
      = .next (s.finishWith ResultReg.done) := exec_checked rfl hchecks
    _ = .next { s with result := ResultReg.done } := by rw [finishWith_claimed h]

/-! ## SELECT (R651) -/

/-- Counting in blocks of eight. -/
theorem flatMap_range_blocks {α : Type} (f : Nat → α) (n : Nat) :
    ((List.range n).flatMap fun k => (List.range 8).map fun i => f (8 * k + i)) = (List.range (8 * n)).map f := by
  induction n with
  | zero => rfl
  | succ n ih =>
    rw [List.range_succ (n := n), List.flatMap_append, ih, List.flatMap_singleton, Nat.mul_succ, List.range_add,
      List.map_append, List.map_map]
    rfl

theorem byteBits_eq (d : Byte) : byteBits d = (List.range 8).map d.getLsbD := rfl

/-- Bit i of byte k is the bit at position 8k + i (R206, R207). -/
theorem byteBits_romByte (r : RomCode) (k : Nat) :
    byteBits (romByte r k) = (List.range 8).map fun i => r.getLsbD (8 * k + i) := by
  rw [byteBits_eq]
  refine List.map_congr_left fun i hi => ?_
  rw [romByte, BitVec.getLsbD_extractLsb', decide_eq_true (List.mem_range.mp hi), Bool.true_and]

/-- The bits of a ROM code in the order of the line are its bits in order of position. -/
theorem romBits_eq (r : RomCode) : romBits r = (List.range 64).map r.getLsbD := by
  rw [romBits, romBytes_map, List.flatMap_map]
  simp only [byteBits_romByte]
  exact flatMap_range_blocks r.getLsbD 8

/-- The bits SELECT writes after a presence: 0x55, then the code (R651). -/
def selectBits (r : RomCode) : List Bool :=
  (List.range 8).map (0x55#8 : Byte).getLsbD ++ (List.range 64).map r.getLsbD

theorem selectSlots_eq (r : RomCode) : selectSlots r = (selectBits r).map writeSlot := by
  rw [selectSlots, byteSlots, romBits_eq, byteBits_eq, selectBits, List.map_append]

theorem selectBits_events (r : RomCode) :
    (selectBits r).map (BusEvent.write · false) =
      (List.range 8).map (fun i => BusEvent.write ((0x55#8 : Byte).getLsbD i) false) ++
        (List.range 64).map (fun p => BusEvent.write (r.getLsbD p) false) := by
  rw [selectBits, List.map_append, List.map_map, List.map_map]
  rfl

/-- Queueing no slot word changes nothing (R441). -/
theorem queue_nil (s : State) : s.queue [] = s := by
  rw [State.queue, List.append_nil]

theorem selectPresence_absent {s : State} (h : s.Ready) :
    selectPresence true s = { s with result := ResultReg.presence true } := by
  calc selectPresence true s
      = (s.queue []).finishWith (ResultReg.presence true) := rfl
    _ = { s with result := ResultReg.presence true } := by rw [queue_nil, finishWith_ready h]

theorem selectPresence_present {s : State} (h : s.Ready) :
    selectPresence false s = { s with
      result := ResultReg.presence false
      hist := s.hist ++ (selectBits s.selrom).map (BusEvent.write · false)
      bus := ((selectBits s.selrom).map (BusEvent.write · false)).foldl Bus.observe s.bus } := by
  rw [← finishWith_writes h, ← selectSlots_eq]
  rfl

/-- With a handle on the released line SELECT is its RST slot, then what its sample decides (R651). -/
theorem exec_select_ready {s : State} (h : s.Ready) :
    exec .select s = .next (selectPresence (s.slot .rst).1 (s.slot .rst).2) :=
  exec_checked rfl (busFault_ready h _)

/-- Settles O44: the RST slot leaves a ready state, from which the sample decides whether the code is sent. -/
theorem selectSendsTheCode : Obligations.SelectSendsTheCode := by
  intro s h
  have hready := ready_slot h (k := .rst) rfl
  rw [exec_select_ready h]
  rw [slot_ready h rfl] at hready ⊢
  refine ⟨fun hv => ?_, fun hv => ?_⟩
  · rw [hv] at hready ⊢
    rw [selectPresence_present hready, selectBits_events]
    rfl
  · rw [hv] at hready ⊢
    rw [selectPresence_absent hready]
    rfl

end Sys2Proof.Machine
end

section
/-! PROOFS. The family of 30_encoding.md: the decoder reads a word as a command exactly when it is that command's
encoding, and the encodings of a row are the words its match and mask select; illegal words; the sample slots. -/

namespace Sys2Proof.Machine

/-! ## The decoder accepts exactly the encodings (R301–R303) -/

/-- The decoder's equations at one opcode all have this shape. -/
theorem ok_of_ite_ok {p : Prop} [Decidable p] {i j : Instr} {e : DecodeError}
    (h : (if p then Except.ok j else Except.error e) = Except.ok i) : p ∧ j = i := by
  split at h
  · next hp => exact ⟨hp, Except.ok.inj h⟩
  · cases h

/-- A word read as a command is the encoding of that command, which is well formed and no slot word (R302, R303). -/
theorem encode_of_decodeCommand {w : Word} {i : Instr} (h : decodeCommand w = .ok i) :
    encode i = w ∧ i.wf = true ∧ i.slot? = none := by
  rw [← commandWord_fields w] at h ⊢
  generalize fieldOp w = op, fieldA w = a, fieldB w = b, fieldC w = c at h ⊢
  by_cases hop : op ∈ opcodes
  · simp only [opcodes, List.mem_cons, List.not_mem_nil, or_false] at hop
    rcases hop with rfl | rfl | rfl | rfl | rfl | rfl | rfl | rfl | rfl | rfl | rfl | rfl | rfl | rfl | rfl | rfl
    case inl =>
      rw [decode_init] at h
      obtain ⟨rfl | ⟨rfl, rfl⟩, rfl⟩ := ok_of_ite_ok h <;> exact ⟨rfl, rfl, rfl⟩
    all_goals
      simp only [decode_teardown, decode_setFifoThresh, decode_waitIdle, decode_reset, decode_writeByte,
        decode_writeBytePwr, decode_endPower, decode_readByte, decode_triplet, decode_crc8Upd, decode_searchReset,
        decode_search, decode_first, decode_next, decode_select] at h
      obtain ⟨hreserved, rfl⟩ := ok_of_ite_ok h
      grind [encode, Instr.wf, Instr.slot?, bitOperand]
  · rw [decode_unassigned hop] at h
    cases h

/-- The word of a well-formed command is read as that command (R301–R303). -/
theorem decodeCommand_encode {i : Instr} (hwf : i.wf = true) (hslot : i.slot? = none) :
    decodeCommand (encode i) = .ok i := by
  cases i with
  | init pin dirpin dirEn =>
    cases dirEn with
    | false =>
      obtain rfl : dirpin = 0#8 := by simpa [Instr.wf] using hwf
      exact decode_init pin 0#8 0#8
    | true => exact decode_init pin dirpin 1#8
  | triplet dirPref => cases dirPref <;> rfl
  | crc8Upd acc data => exact decode_crc8Upd acc data 0#8
  | setFifoThresh x => exact decode_setFifoThresh x 0#8 0#8
  | writeByte x => exact decode_writeByte x 0#8 0#8
  | writeBytePwr x => exact decode_writeBytePwr x 0#8 0#8
  | search x => exact decode_search x 0#8 0#8
  | teardown | waitIdle | reset | endPower | readByte | searchReset | first | next | select => rfl
  | slotRst | slotW0 | slotW1 | slotRd | slotRel | slotW0Pwr | slotW1Pwr => cases hslot

theorem decodeCommand_eq_ok_iff {w : Word} {i : Instr} :
    decodeCommand w = .ok i ↔ encode i = w ∧ i.wf = true ∧ i.slot? = none := by
  refine ⟨encode_of_decodeCommand, ?_⟩
  rintro ⟨rfl, hwf, hslot⟩
  exact decodeCommand_encode hwf hslot

/-- What `decodeCommand_eq_ok_iff` says of a command that is well formed whatever its operands. -/
theorem decodeCommand_eq_ok_iff_encode {w : Word} {i : Instr} (hwf : i.wf = true) (hslot : i.slot? = none) :
    decodeCommand w = .ok i ↔ encode i = w := by
  simp only [decodeCommand_eq_ok_iff, hwf, hslot, and_self, and_true]

/-! ## The words a row's match and mask select (R303) -/

/-- A row selects by its four fields apart. -/
theorem selectsRow_commandWord (w : Word) (op a b c op' a' b' c' : Byte) :
    selectsRow w (commandWord op a b c) (commandWord op' a' b' c') ↔
      fieldOp w &&& op' = op ∧ fieldA w &&& a' = a ∧ fieldB w &&& b' = b ∧ fieldC w &&& c' = c := by
  rw [selectsRow, ← commandWord_inj, ← commandWord_and, commandWord_fields]

/-- A word of given fields, read field by field. -/
theorem commandWord_eq_iff (w : Word) (op a b c : Byte) :
    commandWord op a b c = w ↔ fieldOp w = op ∧ fieldA w = a ∧ fieldB w = b ∧ fieldC w = c := by
  rw [← commandWord_inj, commandWord_fields, eq_comm]

/-- A field whose bits are all fixed. -/
theorem and_fixed (x : Byte) : x &&& 0xFF#8 = x := BitVec.and_allOnes

/-- A field that holds a 1-bit operand (R302). -/
theorem and_bitOperand (x : Byte) : x &&& 0xFE#8 = 0#8 ↔ ∃ b, x = bitOperand b := by
  revert x
  decide

theorem selectsRow_noOperand (w m : Word) : selectsRow w m 0xFFFFFFFF#32 ↔ m = w := by
  have hmask : w &&& 0xFFFFFFFF#32 = w := BitVec.and_allOnes
  rw [selectsRow, hmask, eq_comm]

theorem selectsRow_byteOperand (w : Word) (op : Byte) :
    selectsRow w (commandWord op 0#8 0#8 0#8) 0xFFFF00FF#32 ↔ ∃ x, commandWord op x 0#8 0#8 = w := by
  have hmask : 0xFFFF00FF#32 = commandWord 0xFF#8 0#8 0xFF#8 0xFF#8 := rfl
  rw [hmask, selectsRow_commandWord]
  simp [commandWord_eq_iff, and_fixed]

theorem selectsRow_twoByteOperands (w : Word) (op : Byte) :
    selectsRow w (commandWord op 0#8 0#8 0#8) 0xFF0000FF#32 ↔ ∃ x y, commandWord op x y 0#8 = w := by
  have hmask : 0xFF0000FF#32 = commandWord 0xFF#8 0#8 0#8 0xFF#8 := rfl
  rw [hmask, selectsRow_commandWord]
  simp [commandWord_eq_iff, and_fixed]

theorem selectsRow_bitOperand (w : Word) (op : Byte) :
    selectsRow w (commandWord op 0#8 0#8 0#8) 0xFFFFFEFF#32 ↔ ∃ x, commandWord op (bitOperand x) 0#8 0#8 = w := by
  have hmask : 0xFFFFFEFF#32 = commandWord 0xFF#8 0xFE#8 0xFF#8 0xFF#8 := rfl
  rw [hmask, selectsRow_commandWord]
  simp [commandWord_eq_iff, and_fixed, and_bitOperand]

theorem selectsRow_init (w : Word) :
    selectsRow w (commandWord 0x01#8 0#8 0#8 0#8) 0xFE0000FF#32 ↔
      ∃ p d e, commandWord 0x01#8 p d (bitOperand e) = w := by
  have hmask : 0xFE0000FF#32 = commandWord 0xFF#8 0#8 0#8 0xFE#8 := rfl
  rw [hmask, selectsRow_commandWord]
  simp [commandWord_eq_iff, and_fixed, and_bitOperand]

/-! ## Rows and commands (R303) -/

section
variable {w : Word}

theorem decode_iff_noOperand {i : Instr} (hwf : i.wf = true) (hslot : i.slot? = none) :
    decodeCommand w = .ok i ↔ selectsRow w (encode i) 0xFFFFFFFF#32 := by
  rw [decodeCommand_eq_ok_iff_encode hwf hslot, selectsRow_noOperand]

theorem decode_iff_byteOperand {f : Byte → Instr} (op : Byte) (hf : ∀ x, encode (f x) = commandWord op x 0#8 0#8)
    (hwf : ∀ x, (f x).wf = true) (hslot : ∀ x, (f x).slot? = none) :
    (∃ x, decodeCommand w = .ok (f x)) ↔ selectsRow w (commandWord op 0#8 0#8 0#8) 0xFFFF00FF#32 := by
  simp only [decodeCommand_eq_ok_iff_encode (hwf _) (hslot _), hf, selectsRow_byteOperand]

theorem decode_iff_triplet :
    (∃ d, decodeCommand w = .ok (.triplet d)) ↔ selectsRow w (commandWord 0x15#8 0#8 0#8 0#8) 0xFFFFFEFF#32 := by
  have hencode : ∀ d, decodeCommand w = .ok (.triplet d) ↔ commandWord 0x15#8 (bitOperand d) 0#8 0#8 = w :=
    fun _ => decodeCommand_eq_ok_iff_encode rfl rfl
  simp only [hencode, selectsRow_bitOperand]

theorem decode_iff_crc8Upd :
    (∃ a d, decodeCommand w = .ok (.crc8Upd a d)) ↔
      selectsRow w (commandWord 0x20#8 0#8 0#8 0#8) 0xFF0000FF#32 := by
  have hencode : ∀ a d, decodeCommand w = .ok (.crc8Upd a d) ↔ commandWord 0x20#8 a d 0#8 = w :=
    fun _ _ => decodeCommand_eq_ok_iff_encode rfl rfl
  simp only [hencode, selectsRow_twoByteOperands]

/-- INIT's extra condition on the word is the well-formedness of the command it encodes (R302, R303). -/
theorem init_wf_iff (p d : Byte) (e : Bool) :
    (Instr.init p d e).wf = true ↔
      (encode (.init p d e)).getLsbD 24 = true ∨ (encode (.init p d e)).extractLsb' 16 8 = 0#8 := by
  have henable : (encode (.init p d e)).getLsbD 24 = e := by
    rw [encode, getLsbD_commandWord]
    cases e <;> rfl
  have hdirpin : (encode (.init p d e)).extractLsb' 16 8 = d := fieldB_commandWord _ _ _ _
  rw [henable, hdirpin]
  simp [Instr.wf]

theorem decode_iff_init :
    (∃ p d e, decodeCommand w = .ok (.init p d e)) ↔
      selectsRow w (commandWord 0x01#8 0#8 0#8 0#8) 0xFE0000FF#32 ∧
        (w.getLsbD 24 = true ∨ w.extractLsb' 16 8 = 0#8) := by
  rw [selectsRow_init]
  constructor
  · rintro ⟨p, d, e, h⟩
    obtain ⟨rfl, hwf, -⟩ := encode_of_decodeCommand h
    exact ⟨⟨p, d, e, rfl⟩, (init_wf_iff p d e).mp hwf⟩
  · rintro ⟨⟨p, d, e, rfl⟩, hextra⟩
    exact ⟨p, d, e, decodeCommand_encode ((init_wf_iff p d e).mpr hextra) rfl⟩

end

/-- Settles O2: a word is read as the command it encodes, and each row selects the encodings of its command. -/
theorem decodingFollowsMatchAndMask : Obligations.DecodingFollowsMatchAndMask := by
  intro w
  have noOperand {i : Instr} := decode_iff_noOperand (w := w) (i := i)
  refine ⟨decode_iff_init, noOperand rfl rfl, ?setFifoThresh, noOperand rfl rfl, noOperand rfl rfl, ?writeByte,
    ?writeBytePwr, noOperand rfl rfl, noOperand rfl rfl, decode_iff_triplet, decode_iff_crc8Upd, noOperand rfl rfl,
    ?search, noOperand rfl rfl, noOperand rfl rfl, noOperand rfl rfl⟩
  case setFifoThresh => exact decode_iff_byteOperand 0x03#8 (fun _ => rfl) (fun _ => rfl) (fun _ => rfl)
  case writeByte => exact decode_iff_byteOperand 0x11#8 (fun _ => rfl) (fun _ => rfl) (fun _ => rfl)
  case writeBytePwr => exact decode_iff_byteOperand 0x12#8 (fun _ => rfl) (fun _ => rfl) (fun _ => rfl)
  case search => exact decode_iff_byteOperand 0x31#8 (fun _ => rfl) (fun _ => rfl) (fun _ => rfl)

/-! ## Illegal words (R304) -/

/-- With BUSY = 0 an illegal word's completion writes RESULT only (R112, R304). -/
theorem completeIllegal_quiet {s : State} (h : s.busy = false) :
    s.completeIllegal = { s with result := ResultReg.flagged .illegal false } := by
  have hseq : s.seq = none := by simpa [State.busy] using h
  rw [State.completeIllegal, State.complete, ← hseq]

section
variable {s : State} {w : Word} {e : DecodeError} (hquiet : s.busy = false) (hw : decodeCommand w = .error e)
include hquiet hw

theorem hostCmd_illegal : hostCmd w s = .next s.completeIllegal := by
  simp [hostCmd, hquiet, hw]

theorem writeCmd_illegal : writeCmd w s = .next s.completeIllegal := by
  simp [writeCmd, hquiet, hw]

end

/-- A 32-bit write at CMD's offset is a write to CMD (R105, R204). -/
theorem hostWrite_cmd (s : State) (w : Word) : hostWrite 32 0x00#6 w s = writeCmd w s := hostWrite_aligned rfl w s

/-- Settles O5: `cmd` and the bare write both complete the word as ILLEGAL, which writes RESULT only. -/
theorem illegalWordsOnlyReportIllegal : Obligations.IllegalWordsOnlyReportIllegal := by
  intro s w e hquiet hw
  refine ⟨?_, ?_, rfl⟩
  · rw [hostCmd_illegal hquiet hw, completeIllegal_quiet hquiet]
    rfl
  · rw [hostWrite_cmd, writeCmd_illegal hquiet hw, completeIllegal_quiet hquiet]
    rfl

/-! ## The sample slots (R421, R426) -/

/-- An IDLE engine runs a slot with a sample to its end: the line is released, the sample pushed, the event appended
(R412, R421, R426). -/
theorem exec_sampleSlot {s : State} (h : s.engine = .idle) {k : Slot} (hk : slotSamples k = true) :
    exec k.toInstr s = .next { s with
      line := .rel
      rxq := s.rxq ++ [(s.drawLevel k).1]
      hist := s.hist ++ [slotEvent k (s.drawLevel k).1]
      bus := s.busAfter k
      draws := (s.drawLevel k).2.draws } := by
  rw [exec_slot, slotMeaning_idle h, runSlot_sample s hk, ← h]

/-- Settles O46: RST and RD are the slots with a sample. -/
theorem sampleSlots : Obligations.SampleSlots := by
  intro s h
  exact ⟨exec_sampleSlot h (k := .rst) rfl, exec_sampleSlot h (k := .rd) rfl⟩

end Sys2Proof.Machine
end

section
/-! PROOFS. The family of 40_timing_engine.md: powered writes and the end of a strong pull-up, TEARDOWN, OWM's own move
when no input is left, and the two pins. -/

namespace Sys2Proof.Machine

/-! ## WRITE_BYTE_PWR (R424, R507) -/

/-- A write slot with P = 1 leaves the line powered and appends its event (R424). -/
theorem runSlot_writePwr (s : State) (b : Bool) :
    s.runSlot (writeSlotPwr b) = { s with
      line := .pwr, engine := .idle, hist := s.hist ++ [.write b true], bus := s.bus.observe (.write b true) } := by
  cases b <;> exact runSlot_write s rfl

/-- Words are pushed one group after the other (R441). -/
theorem queue_append (s : State) (a b : List Slot) : s.queue (a ++ b) = (s.queue a).queue b := by
  simp only [State.queue, List.append_assoc]

/-- Write slots, the last with P = 1, run before the completion: their events are appended, the line is powered, RESULT
is written, nothing else of OWM changes (R422–R424, R112). -/
theorem finishWith_writesPwr {s : State} (h : s.Ready) (bits : List Bool) (b : Bool) (r : ResultReg) :
    (s.queue (bits.map writeSlot ++ [writeSlotPwr b])).finishWith r =
      (let es := bits.map (BusEvent.write · false) ++ [.write b true];
        { s with result := r, line := .pwr, hist := s.hist ++ es, bus := es.foldl Bus.observe s.bus }) := by
  have ⟨⟨_, hengine, hseq, _, _⟩, _⟩ := h
  rw [State.finishWith, queue_append, settle_queue, settle_writes h, State.runSlots, runSlot_writePwr, State.runSlots,
    State.complete, ← hengine, ← hseq]
  simp only [List.append_assoc, List.foldl_append, List.foldl_cons, List.foldl_nil]

theorem byteSlotsPwr_eq (d : Byte) :
    byteSlotsPwr d = ((List.range 7).map d.getLsbD).map writeSlot ++ [writeSlotPwr (d.getLsbD 7)] := rfl

/-- Settles O26: the seven plain writes and the powered one are all that runs before the completion. -/
theorem writeBytePwrHoldsTheLine : Obligations.WriteBytePwrHoldsTheLine := by
  intro s data h
  have hsteps : exec (.writeBytePwr data) s = .next ((s.queue (byteSlotsPwr data)).finishWith ResultReg.done) :=
    exec_checked rfl (busFault_ready h _)
  rw [hsteps, byteSlotsPwr_eq, finishWith_writesPwr h, List.map_map]
  rfl

/-! ## END_POWER (R425, R510) -/

/-- A queued REL runs before the completion: the line is released with one event, RESULT is written, nothing else of
OWM changes (R425, R112). -/
theorem finishWith_release {s : State} (h : s.Claimed) (r : ResultReg) :
    (s.queue [.rel]).finishWith r = { s with
      result := r, line := .rel, hist := s.hist ++ [.release], bus := s.bus.observe .release } := by
  obtain ⟨-, hengine, hseq, htxq, -⟩ := h
  rw [State.finishWith, settle_queue_idle hengine htxq, State.runSlots, runSlot_write s rfl, State.runSlots,
    State.complete, ← hengine, ← hseq]
  rfl

/-- Settles O27: END_POWER queues REL on the powered line and nothing on any other. -/
theorem endPowerReleasesTheLine : Obligations.EndPowerReleasesTheLine := by
  intro s h
  have hsteps : exec .endPower s = .next ((s.queue (endPowerSlots s)).finishWith ResultReg.done) :=
    exec_checked rfl (unclaimedFault_none h.1 _)
  refine ⟨fun hpwr => ?powered, fun hline => ?unpowered⟩
  case powered =>
    rw [hsteps, endPowerSlots, if_pos hpwr, finishWith_release h]
    rfl
  case unpowered =>
    rw [hsteps, endPowerSlots, if_neg hline, queue_nil, finishWith_claimed h]
    rfl

/-! ## OWM's own move (R412) -/

theorem step_of_no_input {s : State} (h : s.input = []) : step s = runOn s := by
  simp only [step, stepState, h]

/-- With a slot in progress OWM's own move is a turn of the engine. -/
theorem runOn_run {s : State} {k : Slot} {ph : Phase} (h : s.engine = .run k ph) : runOn s = .next s.engineTurn := by
  simp only [runOn, State.engineTurn, h]

/-- An engine with nothing to do leaves the sequencer its move. -/
theorem runOn_rest {s : State} (h : (s.engine = .idle ∧ s.txq = []) ∨ s.engine = .stopped) :
    runOn s = .next s.sequencerTurn := by
  rcases h with ⟨hengine, htxq⟩ | hengine
  · simp only [runOn, hengine, htxq]
  · simp only [runOn, hengine]

/-- Settles O7: with no input left the step is OWM's own move, which the engine and its queue decide. -/
theorem stepRunsTheQueuedSlotWord : Obligations.StepRunsTheQueuedSlotWord := by
  intro s h
  rw [step_of_no_input h]
  exact ⟨fun _ _ => runOn_idle, fun _ _ => runOn_run, runOn_rest⟩

/-! ## TEARDOWN (R411, R455) -/

/-- On the powered line TEARDOWN ends the strong pull-up with a Release event. -/
theorem teardownSteps_powered {s : State} (h : s.line = .pwr) :
    teardownSteps s = { s with
      result := ResultReg.done, engine := .stopped, handle := none, line := .rel, seq := none
      hist := s.hist ++ [.release], bus := s.bus.observe .release } := by
  rw [teardownSteps, if_pos h]
  rfl

theorem teardownSteps_unpowered {s : State} (h : s.line ≠ .pwr) :
    teardownSteps s = { s with
      result := ResultReg.done, engine := .stopped, handle := none, line := .rel, seq := none } := by
  rw [teardownSteps, if_neg h]
  rfl

/-- Settles O18: with a handle no check finds a fault, and TEARDOWN's steps depend on the line only. -/
theorem teardownReleasesTheEngine : Obligations.TeardownReleasesTheEngine := by
  intro s h
  have hsteps : exec .teardown s = .next (teardownSteps s) := exec_checked rfl (unclaimedFault_none h _)
  refine ⟨fun hpwr => ?powered, fun hline => ?unpowered⟩
  case powered => exact hsteps.trans (congrArg _ (teardownSteps_powered hpwr))
  case unpowered => exact hsteps.trans (congrArg _ (teardownSteps_unpowered hline))

/-! ## The pins DQ and DIR (R401, R403, R405) -/

section
variable {s : State}

theorem dqDrive_rel (h : s.line = .rel) : s.dqDrive = none := by simp only [State.dqDrive, h]

theorem dqDrive_low (h : s.line = .low) : s.dqDrive = some false := by simp only [State.dqDrive, h]

theorem dqDrive_pwr (h : s.line = .pwr) : s.dqDrive = some true := by simp only [State.dqDrive, h]

theorem dirLevel_disabled (h : s.cfg.dirEn = false) : s.dirLevel = none := by simp [State.dirLevel, h]

theorem dirLevel_unclaimed (h : s.handle = none) : s.dirLevel = none := by simp [State.dirLevel, h]

/-- With DIR_EN = 1 and a handle DIR is driven, at the level the line says (R405). -/
theorem dirLevel_enabled (hen : s.cfg.dirEn = true) (hh : s.handle ≠ none) :
    s.dirLevel = some (if s.line = .rel then !s.params.dirTxLevel else s.params.dirTxLevel) := by
  have hdriven : (s.cfg.dirEn && s.handle.isSome) = true := by simp [hen, Option.isSome_iff_ne_none, hh]
  rw [State.dirLevel, if_pos hdriven]

end

/-- Settles O50: DQ by the line; DIR is `dirLevel_enabled` or not driven. -/
theorem dirPinFollowsTheLine : Obligations.DirPinFollowsTheLine := by
  intro s
  refine ⟨dqDrive_rel, dqDrive_low, dqDrive_pwr, dirLevel_disabled, fun hen hh hline => ?transmit,
    fun hen hh hline => ?receive, dirLevel_unclaimed⟩
  case transmit =>
    have hdriven : s.line ≠ .rel := by rcases hline with hline | hline <;> simp [hline]
    rw [dirLevel_enabled hen hh, if_neg hdriven]
  case receive => rw [dirLevel_enabled hen hh, if_pos hline]

end Sys2Proof.Machine
end

section
/-! PROOFS. The family of 41_lifecycle.md: INIT. -/

namespace Sys2Proof.Machine

/-! ## INIT (R451, R453) -/

/-- The pins R451 accepts: the data pin exists, and with DIR_EN = 1 the platform wires a direction GPIO and the
direction pin exists and is another one. -/
theorem badPins_eq_false_iff {p : Params} {pin dirpin : Byte} {dirEn : Bool} :
    badPins p pin dirpin dirEn = false ↔
      pin.toNat < p.nGpio ∧ (dirEn = true → p.hasDir = true ∧ dirpin.toNat < p.nGpio ∧ dirpin ≠ pin) := by
  cases dirEn <;> simp [badPins, and_assoc]

/-- On an unclaimed block with accepted pins the checks of INIT find nothing (R451, R713). -/
theorem initFault_none {s : State} {pin dirpin : Byte} {dirEn : Bool} (hh : s.handle = none)
    (hpins : badPins s.params pin dirpin dirEn = false) (w : Word) : s.initFault w pin dirpin dirEn = none := by
  simp [State.initFault, hh, hpins]

section
variable {s : State}

/-- The platform's next scripted answer is taken (R3, R452, R454). -/
theorem claim_scripted {answer : Option Handle} {rest : List (Option Handle)} (h : s.pool = answer :: rest) :
    s.claim = (answer, { s with pool := rest }) := by
  simp only [State.claim, h]

/-- With no scripted answer left a free value answers: a slot or none (R3, R452, R454; log 3). -/
theorem claim_unscripted (h : s.pool = []) : ∃ answer, s.claim = (answer, { s with draws := s.draws + 1 }) := by
  simp only [State.claim, h]
  exact ⟨_, rfl⟩

variable {t : State} (pin dirpin : Byte) (dirEn : Bool)

/-- With a slot granted INIT sets the block up and completes OK with FLAG 1 (R451, R453). -/
theorem initSteps_granted {h : Handle} (hclaim : { s with pullOff := true }.claim = (some h, t)) :
    initSteps pin dirpin dirEn s = (t.withClaim h pin dirpin dirEn).complete (ResultReg.flagged .ok true) := by
  simp only [initSteps, hclaim]

/-- With no slot granted INIT completes with NO_RESOURCE and FLAG 0 (R451). -/
theorem initSteps_denied (hclaim : { s with pullOff := true }.claim = (none, t)) :
    initSteps pin dirpin dirEn s = t.complete (ResultReg.flagged .noResource false) := by
  simp only [initSteps, hclaim]

end

/-- Settles O16: the checks find nothing, and INIT's steps depend on the platform's answer only. -/
theorem initClaimsOrReportsNoResource : Obligations.InitClaimsOrReportsNoResource := by
  intro s pin dirpin dirEn hhandle hpin hdir
  have hpins : badPins s.params pin dirpin dirEn = false := badPins_eq_false_iff.mpr ⟨hpin, hdir⟩
  have hsteps : exec (.init pin dirpin dirEn) s = .next (initSteps pin dirpin dirEn s) :=
    exec_checked rfl (initFault_none hhandle hpins _)
  refine ⟨fun h rest hpool => ?granted, fun rest hpool => ?denied, fun hpool => ?unscripted⟩
  case granted =>
    rw [hsteps, initSteps_granted pin dirpin dirEn (claim_scripted hpool)]
    rfl
  case denied =>
    rw [hsteps, initSteps_denied pin dirpin dirEn (claim_scripted hpool)]
    rfl
  case unscripted =>
    obtain ⟨answer, hclaim⟩ := claim_unscripted (s := { s with pullOff := true }) hpool
    cases answer with
    | some h =>
      rw [hsteps, initSteps_granted pin dirpin dirEn hclaim]
      exact .inl ⟨h, _, rfl⟩
    | none =>
      rw [hsteps, initSteps_denied pin dirpin dirEn hclaim]
      exact .inr ⟨_, rfl⟩

end Sys2Proof.Machine
end

section
/-! PROOFS. The family of 42_transfer.md: every checked command completes; RESET, WRITE_BYTE and READ_BYTE from a ready
state. -/

namespace Sys2Proof.Machine

/-! ## Completion (R112, R521) -/

/-- Waiting for the engine and completing leaves BUSY 0, from every state (R112). -/
theorem finishWith_seq (s : State) (r : ResultReg) : (s.finishWith r).seq = none := complete_seq s.settle r

/-- A pass completes after its last bit or at the bit without a response (R604, R617). -/
theorem scanBits_seq (k : Nat) (sc : Scan) (s : State) : (scanBits k sc s).seq = none := by
  induction k generalizing sc s with
  | zero => exact finishWith_seq _ _
  | succ k ih =>
    rw [scanBits, scanCmp, scanWrite_eq]
    split
    · exact finishWith_seq _ _
    · exact ih _ _

/-- SEARCH completes whether the enumeration is exhausted, no device answers, or the bits follow (R604, R606, R607). -/
theorem searchPass_seq (c : Byte) (s : State) : (searchPass c s).seq = none := by
  rw [searchPass]
  split
  · exact complete_seq _ _
  · rw [searchPresence]
    split
    · exact finishWith_seq _ _
    · exact scanBits_seq _ _ _

theorem initSteps_seq (pin dirpin : Byte) (dirEn : Bool) (s : State) : (initSteps pin dirpin dirEn s).seq = none := by
  rw [initSteps]
  split <;> exact complete_seq _ _

/-- The steps of a command end with BUSY 0 (R112, R521). -/
theorem commandSteps_seq {i : Instr} (hi : i.slot? = none) (s : State) : (commandSteps i s).seq = none := by
  cases i with
  | init p d e => exact initSteps_seq p d e s
  | teardown | setFifoThresh _ | crc8Upd _ _ | searchReset => exact complete_seq _ _
  | waitIdle | reset | writeByte _ | writeBytePwr _ | endPower | readByte | triplet _ | select =>
    exact finishWith_seq _ _
  | search c => exact searchPass_seq c s
  | first => exact searchPass_seq _ s.resetTracking
  | next => exact searchPass_seq _ s
  | slotRst | slotW0 | slotW1 | slotRd | slotRel | slotW0Pwr | slotW1Pwr => simp [Instr.slot?] at hi

/-- Settles O23: a command is its checks, then its own steps, and these end in a completion. -/
theorem checkedCommandsComplete : Obligations.CheckedCommandsComplete := by
  intro s i hi
  refine ⟨fun hnone => ⟨commandSteps i s, exec_checked hi hnone, ?_⟩, fun f hf => ?_⟩
  · rw [State.busy, commandSteps_seq hi, Option.isSome_none]
  · rw [exec_command hi, hf, guarded]

/-! ## RESET (R501, R502) -/

/-- RESET's result by its sample: CODE is OK or NO_PRESENCE, FLAG the inverse of the sample (R502). -/
theorem presence_eq (v : Bool) :
    ResultReg.presence v = { code := if v then .noPresence else .ok, data := 0#8, flag := !v } := by
  cases v <;> rfl

/-- With a handle on the released line RESET is its RST slot, then the completion with what the sample says
(R501, R502). -/
theorem exec_reset_ready {s : State} (h : s.Ready) :
    exec .reset s = .next { s with
      result := ResultReg.presence (s.drawLevel .rst).1
      hist := s.hist ++ [.reset (s.drawLevel .rst).1]
      bus := s.busAfter .rst
      draws := (s.drawLevel .rst).2.draws } := by
  have hsteps : exec .reset s = .next ((s.slot .rst).2.finishWith (ResultReg.presence (s.slot .rst).1)) :=
    exec_checked rfl (busFault_ready h _)
  rw [hsteps, finishWith_ready (ready_slot h rfl), slot_ready h rfl]
  rfl

/-- Settles O24: a scripted draw is the sample the RST slot takes. -/
theorem resetReportsPresence : Obligations.ResetReportsPresence := by
  intro s h
  rw [exec_reset_ready h, presence_eq]
  refine ⟨rfl, fun v rest hbus => ?_⟩
  obtain ⟨hv, hafter, hdraws⟩ := draw_scripted hbus .rst
  rw [hv, hafter, hdraws]

/-! ## WRITE_BYTE (R504, R505) -/

/-- Settles O25: the eight write slots are all that runs before the completion. -/
theorem writeByteSendsLsbFirst : Obligations.WriteByteSendsLsbFirst := by
  intro s data h
  have hsteps : exec (.writeByte data) s = .next ((s.queue (byteSlots data)).finishWith ResultReg.done) :=
    exec_checked rfl (busFault_ready h _)
  rw [hsteps, byteSlots, finishWith_writes h, byteBits_eq, List.map_map]
  rfl

/-! ## READ_BYTE (R513, R514) -/

/-- A byte with these samples stored, each at the bit number beside it (R513 `b[i] <- …`). -/
def collectBits (acc : Byte) (xs : List (Bool × Nat)) : Byte := xs.foldl (fun b x => withBit b x.2 x.1) acc

/-- Storing the next bit above the bits stored so far adds its weight. -/
theorem toNat_withBit {acc : Byte} {i : Nat} (hacc : acc.toNat < 2 ^ i) (hi : i < 8) (v : Bool) :
    (withBit acc i v).toNat = acc.toNat + if v then 2 ^ i else 0 := by
  cases v with
  | true =>
    have hor : 2 ^ i + acc.toNat = 2 ^ i ||| acc.toNat := by simpa using Nat.two_pow_add_eq_or_of_lt hacc 1
    rw [withBit, if_pos rfl, if_pos rfl, BitVec.toNat_or, BitVec.toNat_twoPow_of_lt hi, Nat.or_comm, ← hor, Nat.add_comm]
  | false =>
    have hclear : acc.getLsbD i = false := Nat.testBit_lt_two_pow hacc
    have hsame : withBit acc i false = acc := by
      refine BitVec.eq_of_getLsbD_eq fun q _ => ?_
      rw [getLsbD_withBit]
      split
      · next hq => rw [hq.1, hclear]
      · rfl
    rw [hsame]
    rfl

/-- DATA is the sum of `v_i · 2^i` (R514). -/
theorem toNat_collectBits {acc : Byte} {i : Nat} {vs : List Bool} (hacc : acc.toNat < 2 ^ i) (hi : i + vs.length ≤ 8) :
    (collectBits acc (vs.zipIdx i)).toNat =
      acc.toNat + ((vs.zipIdx i).map fun x => if x.1 then 2 ^ x.2 else 0).sum := by
  induction vs generalizing acc i with
  | nil => rfl
  | cons v vs ih =>
    rw [List.length_cons] at hi
    have hstep := toNat_withBit hacc (by omega) v
    have hnext : (withBit acc i v).toNat < 2 ^ (i + 1) := by
      rw [hstep, Nat.pow_succ]
      split <;> omega
    calc (collectBits acc ((v :: vs).zipIdx i)).toNat
        = (collectBits (withBit acc i v) (vs.zipIdx (i + 1))).toNat := rfl
      _ = acc.toNat + (((v :: vs).zipIdx i).map fun x => if x.1 then 2 ^ x.2 else 0).sum := by
        rw [ih hnext (by omega), hstep, List.zipIdx_cons, List.map_cons, List.sum_cons, Nat.add_assoc]

/-- From a ready state n read slots take n samples, which are stored from bit i on and appended as Read events;
nothing else of OWM changes. Scripted draws are taken in slot order (R426, R513). -/
theorem readBits_ready (n i : Nat) (acc : Byte) {s : State} (h : s.Ready) :
    ∃ (vs : List Bool) (b : Bus) (d : Nat),
      vs.length = n ∧
      readBits n i acc s = (collectBits acc (vs.zipIdx i),
        { s with hist := s.hist ++ vs.map BusEvent.read, bus := b, draws := d }) ∧
      ∀ drawn rest, drawn.length = n → s.bus = .draws (drawn ++ rest) →
        vs = drawn ∧ b = .draws rest ∧ d = s.draws := by
  induction n generalizing i acc s with
  | zero =>
    refine ⟨[], s.bus, s.draws, rfl, ?_, fun drawn rest hlen hbus => ?_⟩
    · rw [List.map_nil, List.append_nil]
      rfl
    · obtain rfl := List.eq_nil_of_length_eq_zero hlen
      exact ⟨rfl, hbus, rfl⟩
  | succ n ih =>
    have hready := ready_slot h (k := .rd) rfl
    have hslot := slot_ready h (k := .rd) rfl
    obtain ⟨vs, b, d, hlen, hread, hscript⟩ := ih (i + 1) (withBit acc i (s.slot .rd).1) hready
    refine ⟨(s.drawLevel .rd).1 :: vs, b, d, congrArg Nat.succ hlen, ?_, fun drawn rest hn hbus => ?_⟩
    · rw [readBits, hread, hslot, List.map_cons, List.append_cons s.hist _ (vs.map _)]
      rfl
    · cases drawn with
      | nil => cases hn
      | cons v drawn =>
        obtain ⟨hv, hafter, hdraws⟩ := draw_scripted hbus .rd
        rw [hslot] at hscript
        obtain ⟨hvs, hb, hd⟩ := hscript drawn rest (Nat.succ.inj hn) hafter
        exact ⟨by rw [hv, hvs], hb, hd.trans hdraws⟩

/-- Settles O28: the eight samples are collected into DATA, whose value fixes it. -/
theorem readByteCollectsItsSamples : Obligations.ReadByteCollectsItsSamples := by
  intro s h
  obtain ⟨vs, b, d, hlen, hread, hscript⟩ := readBits_ready 8 0 0#8 h
  have hdata : (collectBits 0#8 vs.zipIdx).toNat = (vs.zipIdx.map fun x => if x.1 then 2 ^ x.2 else 0).sum := by
    rw [toNat_collectBits (by decide) (by omega), BitVec.toNat_zero, Nat.zero_add]
  have hexec : exec .readByte s = .next { s with
      result := ResultReg.byte (collectBits 0#8 vs.zipIdx)
      hist := s.hist ++ vs.map BusEvent.read, bus := b, draws := d } := by
    have hsteps : exec .readByte s = .next (readFrom 8 0 0#8 s) := exec_checked rfl (busFault_ready h _)
    rw [hsteps, readFrom, hread, finishWith_ready]
    exact h
  refine ⟨⟨vs, _, b, d, hlen, hdata, hexec⟩, fun drawn rest data hbus hn hsum => ?_⟩
  obtain ⟨rfl, rfl, rfl⟩ := hscript drawn rest hn hbus
  have hsame : data = collectBits 0#8 vs.zipIdx := BitVec.eq_of_toNat_eq (hsum.trans hdata.symm)
  rw [hexec, hsame]
  rfl

end Sys2Proof.Machine
end

section
/-! PROOFS. The family of 43_crc8.md: one round of the loop is linear and leaves its decision in the top bit; hence
the laws of crc8_step, its table and the fold. -/

namespace Sys2Proof.Machine

/-! ## One round (R551) -/

/-- What a round mixes into the shifted accumulator when it decides b. -/
def crc8Mask (b : Bool) : Byte := if b then 0x8C#8 else 0#8

theorem crc8Mask_xor : ∀ a b : Bool, crc8Mask (a ^^ b) = crc8Mask a ^^^ crc8Mask b := by decide

/-- 0x8C has its top bit set, so the mask's top bit is the decision. -/
theorem crc8Mask_top : ∀ b : Bool, (crc8Mask b).getLsbD 7 = b := by decide

/-- The accumulator after one round of R551's loop. -/
def crc8Round (acc byte : Byte) : Byte := acc >>> 1 ^^^ crc8Mask ((acc ^^^ byte).getLsbD 0)

theorem crc8Rounds_succ (n : Nat) (acc byte : Byte) :
    crc8Rounds (n + 1) acc byte = crc8Rounds n (crc8Round acc byte) (byte >>> 1) := by
  rw [crc8Rounds, crc8Round]
  cases (acc ^^^ byte).getLsbD 0
  · exact congrArg (crc8Rounds n · _) BitVec.xor_zero.symm
  · rfl

theorem crc8Round_xor (a1 a2 b1 b2 : Byte) :
    crc8Round (a1 ^^^ a2) (b1 ^^^ b2) = crc8Round a1 b1 ^^^ crc8Round a2 b2 := by
  have hdecides : a1 ^^^ a2 ^^^ (b1 ^^^ b2) = a1 ^^^ b1 ^^^ (a2 ^^^ b2) := by ac_rfl
  simp only [crc8Round, hdecides, BitVec.getLsbD_xor (x := a1 ^^^ b1), crc8Mask_xor, BitVec.ushiftRight_xor_distrib]
  ac_rfl

/-- The shift brings in 0, so a round leaves its decision in the top bit. -/
theorem crc8Round_top (acc byte : Byte) : (crc8Round acc byte).getLsbD 7 = (acc ^^^ byte).getLsbD 0 := by
  rw [crc8Round, BitVec.getLsbD_xor, crc8Mask_top, BitVec.getLsbD_ushiftRight, BitVec.getLsbD_of_ge _ _ (Nat.le_refl 8),
    Bool.false_xor]

theorem crc8Round_of_agree {acc byte : Byte} (h : (acc ^^^ byte).getLsbD 0 = false) :
    crc8Round acc byte = acc >>> 1 := by
  rw [crc8Round, h]
  exact BitVec.xor_zero

/-! ## Eight rounds: linearity and the zero residue (R555, R557) -/

theorem crc8Rounds_xor (n : Nat) (a1 a2 b1 b2 : Byte) :
    crc8Rounds n (a1 ^^^ a2) (b1 ^^^ b2) = crc8Rounds n a1 b1 ^^^ crc8Rounds n a2 b2 := by
  induction n generalizing a1 a2 b1 b2 with
  | zero => rfl
  | succ n ih =>
    rw [crc8Rounds_succ, crc8Round_xor, BitVec.ushiftRight_xor_distrib, ih, crc8Rounds_succ, crc8Rounds_succ]

theorem crc8Rounds_self (n : Nat) (acc : Byte) : crc8Rounds n acc acc = acc >>> n := by
  induction n generalizing acc with
  | zero => exact (BitVec.ushiftRight_zero acc).symm
  | succ n ih =>
    have hagree : (acc ^^^ acc).getLsbD 0 = false := by rw [BitVec.xor_self, BitVec.getLsbD_zero]
    rw [crc8Rounds_succ, crc8Round_of_agree hagree, ih, ← BitVec.shiftRight_add, Nat.add_comm]

/-- If n ≤ 8 rounds leave 0, the accumulator was the low n bits of the byte. For the first of n + 1 rounds: what it
leaves is the low n ≤ 7 bits of the rest, so its top bit is 0, so the round decided 0 and the operands agree there. -/
theorem getLsbD_of_crc8Rounds_eq_zero {n : Nat} (hn : n ≤ 8) {acc byte : Byte} (h : crc8Rounds n acc byte = 0#8)
    (i : Nat) : acc.getLsbD i = (decide (i < n) && byte.getLsbD i) := by
  induction n generalizing acc byte i with
  | zero => simp [show acc = 0#8 from h]
  | succ n ih =>
    rw [crc8Rounds_succ] at h
    have hbits := ih (by omega) h
    have hagree : (acc ^^^ byte).getLsbD 0 = false := by
      rw [← crc8Round_top, hbits, decide_eq_false (by omega), Bool.false_and]
    cases i with
    | zero => simpa using hagree
    | succ i => simpa [crc8Round_of_agree hagree, Nat.add_comm] using hbits i

theorem crc8Step_eq_zero (acc byte : Byte) : crc8Step acc byte = 0#8 ↔ byte = acc := by
  constructor
  · intro h
    refine BitVec.eq_of_getLsbD_eq fun i hi => ?_
    rw [getLsbD_of_crc8Rounds_eq_zero (Nat.le_refl 8) h, decide_eq_true hi, Bool.true_and]
  · rintro rfl
    exact (crc8Rounds_self 8 byte).trans (BitVec.ushiftRight_eq_zero (Nat.le_refl 8))

/-- Settles O32: every round is linear. -/
theorem crcStepIsLinear : Obligations.CrcStepIsLinear := crc8Rounds_xor 8

/-! ## T, the step from accumulator 0 (R554, R555, R558) -/

/-- (acc, byte) is (0, acc ^ byte) XOR (acc, acc), and the step of the latter is 0. -/
theorem crc8Step_eq_xor (acc byte : Byte) : crc8Step acc byte = crc8Step 0#8 (acc ^^^ byte) := by
  have hself : crc8Step acc acc = 0#8 := (crc8Step_eq_zero acc acc).2 rfl
  calc crc8Step acc byte
      = crc8Step (0#8 ^^^ acc) (acc ^^^ byte ^^^ acc) := by
        rw [BitVec.zero_xor, BitVec.xor_comm acc byte, BitVec.xor_assoc, BitVec.xor_self, BitVec.xor_zero]
    _ = crc8Step 0#8 (acc ^^^ byte) ^^^ crc8Step acc acc := crcStepIsLinear ..
    _ = crc8Step 0#8 (acc ^^^ byte) := by rw [hself, BitVec.xor_zero]

theorem crc8Step_zero_bijective : Function.Bijective (crc8Step 0#8) := by
  have : Finite Byte := Finite.of_injective BitVec.toFin fun _ _ h => BitVec.eq_of_toFin_eq h
  refine Finite.injective_iff_bijective.1 fun x y h => ?_
  have hdiff : crc8Step x y = 0#8 :=
    calc crc8Step x y
        = crc8Step (0#8 ^^^ 0#8) (x ^^^ y) := crc8Step_eq_xor x y
      _ = crc8Step 0#8 x ^^^ crc8Step 0#8 y := crcStepIsLinear ..
      _ = 0#8 := by rw [h, BitVec.xor_self]
  exact ((crc8Step_eq_zero x y).1 hdiff).symm

theorem crcTable_eq : crcTable = (List.range 256).map fun x => crc8Step 0#8 (BitVec.ofNat 8 x) := by
  decide +kernel

/-- Settles O31: the table lists the steps from accumulator 0, and acc ^ byte is all a step depends on. -/
theorem crcStepIsTheTable : Obligations.CrcStepIsTheTable := by
  intro acc byte
  rw [crc8Step_eq_xor, crcTable_eq, List.getElem?_map, List.getElem?_range (acc ^^^ byte).isLt, Option.map_some,
    BitVec.ofNat_toNat, BitVec.setWidth_eq]

/-! ## The fold over a byte sequence (R552, R555, R556) -/

theorem crc8Buffer_append (a b : List Byte) : crc8Buffer (a ++ b) = crc8Fold (crc8Buffer a) b :=
  List.foldl_append

theorem crc8Buffer_concat (bs : List Byte) (b : Byte) : crc8Buffer (bs ++ [b]) = crc8Step (crc8Buffer bs) b :=
  crc8Buffer_append bs [b]

/-- Settles O33: a step from the sequence's CRC gives 0 for the check byte equal to it only. -/
theorem crcResidueIsZeroOnlyForTheCheckByte : Obligations.CrcResidueIsZeroOnlyForTheCheckByte := by
  refine ⟨crc8Step_zero_bijective, (crc8Step_eq_zero 0#8 0#8).2 rfl, crc8Step_eq_zero, fun r c => ?_⟩
  rw [crc8Buffer_concat, crc8Step_eq_zero]

/-- Settles O34: `crc8Fold` is the left fold of the step. -/
theorem crcBufferIsAFold : Obligations.CrcBufferIsAFold :=
  ⟨rfl, crc8Buffer_concat, crc8Buffer_append⟩

end Sys2Proof.Machine
end

section
/-! PROOFS. The family of 44_search.md: on the reference bus FIRST finds the least code in the order of the line, each
NEXT the successor of the code before, and the command after the greatest none. -/

namespace Sys2Proof.Machine

/-! ## Lists in the order of the line (R631) -/

/-- The least member of a list in order stands first. -/
theorem head?_eq_of_least {l : List RomCode} (hs : l.Pairwise lineBefore) {a : RomCode} (ha : a ∈ l)
    (hle : ∀ x ∈ l, x ≠ a → lineBefore a x) : l.head? = some a := by
  cases l with
  | nil => cases ha
  | cons b l =>
    obtain ⟨hb, -⟩ := List.pairwise_cons.mp hs
    rcases List.mem_cons.mp ha with rfl | hal
    · rfl
    · have hba : lineBefore b a := hb a hal
      have hne : b ≠ a := fun e => lineBefore_irrefl a (e ▸ hba)
      exact absurd (lineBefore_trans hba (hle b List.mem_cons_self hne)) (lineBefore_irrefl b)

/-- The least of the members from position k on stands at k. -/
theorem getElem?_eq_of_least {l : List RomCode} (hs : l.Pairwise lineBefore) {k : Nat} {a : RomCode}
    (ha : a ∈ l.drop k) (hle : ∀ x ∈ l.drop k, x ≠ a → lineBefore a x) : l[k]? = some a := by
  rw [← List.head?_drop]
  exact head?_eq_of_least (hs.drop) ha hle

/-- Behind a member of a list in order stand the members after it in the order. -/
theorem mem_drop_succ_iff {l : List RomCode} (hs : l.Pairwise lineBefore) {k : Nat} {c : RomCode}
    (hk : l[k]? = some c) (x : RomCode) : x ∈ l.drop (k + 1) ↔ x ∈ l ∧ lineBefore c x := by
  induction l generalizing k with
  | nil => cases hk
  | cons b l ih =>
    obtain ⟨hb, hl⟩ := List.pairwise_cons.mp hs
    rw [List.drop_succ_cons, List.mem_cons]
    cases k with
    | zero =>
      obtain rfl : b = c := Option.some.inj hk
      constructor
      · exact fun hx => ⟨.inr hx, hb x hx⟩
      · rintro ⟨rfl | hx, hlt⟩
        · exact absurd hlt (lineBefore_irrefl x)
        · exact hx
    | succ k =>
      have hbc : lineBefore b c := hb c (List.mem_of_getElem? hk)
      rw [ih hl hk]
      constructor
      · exact fun ⟨hx, hlt⟩ => ⟨.inr hx, hlt⟩
      · rintro ⟨rfl | hx, hlt⟩
        · exact absurd (lineBefore_trans hbc hlt) (lineBefore_irrefl x)
        · exact ⟨hx, hlt⟩

/-! ## Devices and their codes -/

/-- The devices have these codes and no others. -/
def Carry (ds : List Device) (codes : List RomCode) : Prop := ∀ x, x ∈ codes ↔ ∃ d ∈ ds, d.rom = x

theorem Carry.forall_iff {ds : List Device} {codes : List RomCode} (hc : Carry ds codes) {P : RomCode → Prop} :
    (∀ x ∈ codes, P x) ↔ ∀ d ∈ ds, P d.rom := by
  constructor
  · exact fun h d hd => h d.rom ((hc d.rom).mpr ⟨d, hd, rfl⟩)
  · intro h x hx
    obtain ⟨d, hd, rfl⟩ := (hc x).mp hx
    exact h d hd

/-- A code has no open branch exactly when no code is after it: at an open branch some device has the 1. -/
theorem openBranch_zero_iff {ds : List Device} {codes : List RomCode} (hc : Carry ds codes) {c : RomCode} {n : Nat}
    (h : openBranch ds c n) : n = 0 ↔ ∀ x ∈ codes, ¬ lineBefore c x := by
  rw [hc.forall_iff]
  constructor
  · rintro rfl
    exact last_greatest h
  · intro hgreatest
    obtain ⟨-, hn, -⟩ := h
    refine hn.resolve_right ?_
    rintro ⟨-, ⟨d, hd, hpath, hbit⟩, hzero⟩
    refine hgreatest d hd ⟨n - 1, fun q hq => (onPath_iff.mp hpath q hq).symm, hzero, ?_⟩
    simpa [hzero] using hbit

/-! ## A pass that finds a code (R614–R616) -/

/-- The state after a pass that found the code c: RESULT and `rom_no` say so, the devices have the codes as before,
and LD and LDF tell c's open branch (R614, R616). -/
structure Found (codes : List RomCode) (c : RomCode) (t : State) : Prop where
  ready : t.Ready
  result : t.result = { code := .ok, data := 0#8, flag := true }
  rom : t.srch.rom = c
  branch : ∃ ds n, t.bus = .reference ds ∧ Carry ds codes ∧ openBranch ds c n ∧
    t.srch.ld = BitVec.ofNat 7 n ∧ t.srch.ldf = decide (n = 0)

section
variable {codes : List RomCode} (hv : ∀ c ∈ codes, crc8Buffer (romBytes c) = 0#8 ∧ romByte c 0 ≠ 0#8)
include hv

/-- From LDF = 0 a pass finds one of the codes, and each of its bits is the direction of the pass there (R610). -/
theorem searchPass_found {s : State} {ds : List Device} (h : s.Ready) (hl : s.srch.ldf = false)
    (hb : s.bus = .reference ds) (hc : Carry ds codes) (hne : codes ≠ []) :
    ∃ R, (∃ d ∈ ds, d.rom = R) ∧ (∀ p, p < 64 → R.getLsbD p = passDir s.srch p (sampled ds R p)) ∧
      Found codes R (searchPass 0xF0#8 s) := by
  obtain ⟨x, hx⟩ := List.exists_mem_of_ne_nil codes hne
  obtain ⟨d0, hd0, -⟩ := (hc x).mp hx
  obtain ⟨R, n, m, hR, hdir, hlast, -, hready, hresult, hsrch, hbus⟩ :=
    searchPass_reference h hl hb (List.ne_nil_of_mem hd0) (hc.forall_iff.mp hv)
  obtain ⟨es, hes, hroms⟩ := searching_roms ds R 64
  refine ⟨R, hR, hdir, hready, hresult, by rw [hsrch], es, n, hbus.trans hes, fun x => ?_, ?_, by rw [hsrch],
    by rw [hsrch]⟩
  · rw [hc, ← List.mem_map, ← List.mem_map, hroms]
  · exact (openBranch_congr hroms).mpr (openBranch_of hR hdir hlast)

variable (hs : codes.Pairwise lineBefore)
include hs

/-- FIRST finds the first code of the order (R631). -/
theorem firstSteps_found {s : State} {ds : List Device} (h : s.Ready) (hb : s.bus = .reference ds)
    (hc : Carry ds codes) {c : RomCode} (h0 : codes[0]? = some c) : Found codes c (firstSteps s) := by
  obtain ⟨R, hR, hdir, hfound⟩ :=
    searchPass_found hv (s := s.resetTracking) h rfl hb hc (List.ne_nil_of_mem (List.mem_of_getElem? h0))
  have hleast : ∀ x ∈ codes, x ≠ R → lineBefore R x := hc.forall_iff.mpr (first_least hR rfl hdir)
  have hfirst : codes[0]? = some R := getElem?_eq_of_least hs ((hc R).mpr hR) hleast
  obtain rfl : R = c := Option.some.inj (hfirst.symm.trans h0)
  exact hfound

/-- The pass after one that found the k-th code finds the code after it, if there is one (R631). -/
theorem searchPass_found_next {t : State} {k : Nat} {b c : RomCode} (ht : Found codes b t) (hk : codes[k]? = some b)
    (hk1 : codes[k + 1]? = some c) : Found codes c (searchPass 0xF0#8 t) := by
  obtain ⟨hready, -, hrom, ds, n, hbus, hc, hopen, hld, hldf⟩ := ht
  have hbehind := mem_drop_succ_iff hs hk
  have hbd : ∃ d ∈ ds, d.rom = b := (hc b).mp (List.mem_of_getElem? hk)
  have hn : n ≠ 0 := by
    obtain ⟨hmem, hlt⟩ := (hbehind c).mp (List.mem_of_mem_head? (by rw [List.head?_drop, hk1]; rfl))
    exact fun h0 => (openBranch_zero_iff hc hopen).mp h0 c hmem hlt
  obtain ⟨R, hR, hdir, hfound⟩ :=
    searchPass_found hv hready (by simp [hldf, hn]) hbus hc (List.ne_nil_of_mem (List.mem_of_getElem? hk))
  obtain ⟨hbR, hsucc⟩ := next_successor hR hbd (by omega) hopen hld hrom hdir
  have hleast : ∀ x ∈ codes, lineBefore b x → x ≠ R → lineBefore R x := hc.forall_iff.mpr hsucc
  have hnext : codes[k + 1]? = some R := by
    refine getElem?_eq_of_least hs ((hbehind R).mpr ⟨(hc R).mpr hR, hbR⟩) fun x hx hne => ?_
    obtain ⟨hmem, hlt⟩ := (hbehind x).mp hx
    exact hleast x hmem hlt hne
  obtain rfl : R = c := Option.some.inj (hnext.symm.trans hk1)
  exact hfound

end

/-- LDF = 1 exactly after the last code (R614, R630). -/
theorem Found.ldf_eq {codes : List RomCode} {c : RomCode} {t : State} {k : Nat} (ht : Found codes c t)
    (hs : codes.Pairwise lineBefore) (hk : codes[k]? = some c) : t.srch.ldf = decide (k + 1 = codes.length) := by
  obtain ⟨-, -, -, ds, n, -, hc, hopen, -, hldf⟩ := ht
  rw [hldf, decide_eq_decide]
  have hlt : k < codes.length := (List.getElem?_eq_some_iff.mp hk).1
  calc n = 0 ↔ ∀ x ∈ codes, ¬ lineBefore c x := openBranch_zero_iff hc hopen
    _ ↔ codes.drop (k + 1) = [] := by
      simp only [List.eq_nil_iff_forall_not_mem, mem_drop_succ_iff hs hk, not_and]
    _ ↔ k + 1 = codes.length := by rw [List.drop_eq_nil_iff]; omega

/-! ## The enumeration (R622, R624) -/

theorem exec_first_ready {s : State} (h : s.Ready) : exec .first s = .next (firstSteps s) :=
  exec_checked rfl (busFault_ready h _)

theorem exec_next_ready {s : State} (h : s.Ready) : exec .next s = .next (searchPass 0xF0#8 s) :=
  exec_checked rfl (busFault_ready h _)

theorem enumerate_succ_of_ready {k : Nat} {s t : State} (h : enumerate k s = .next t) (ht : t.Ready) :
    enumerate (k + 1) s = .next (searchPass 0xF0#8 t) := by
  rw [enumerate, h, ← exec_next_ready ht]

/-- FIRST and k NEXTs find the k-th code. -/
theorem enumerate_found {codes : List RomCode}
    (hv : ∀ c ∈ codes, crc8Buffer (romBytes c) = 0#8 ∧ romByte c 0 ≠ 0#8) (hs : codes.Pairwise lineBefore)
    {s : State} {ds : List Device} (h : s.Ready) (hb : s.bus = .reference ds) (hc : Carry ds codes) {k : Nat}
    {c : RomCode} (hk : codes[k]? = some c) : ∃ t, enumerate k s = .next t ∧ Found codes c t := by
  induction k generalizing c with
  | zero => exact ⟨_, exec_first_ready h, firstSteps_found hv hs h hb hc hk⟩
  | succ k ih =>
    have hlt : k + 1 < codes.length := (List.getElem?_eq_some_iff.mp hk).1
    have hk0 : codes[k]? = some codes[k] := List.getElem?_eq_getElem (by omega)
    obtain ⟨t, ht, hfound⟩ := ih hk0
    exact ⟨_, enumerate_succ_of_ready ht hfound.ready, searchPass_found_next hv hs hfound hk0 hk⟩

/-! ## The command after the last code (R606, R607) -/

/-- With LDF = 1 a pass reports EXHAUSTED and leaves LDF = 0 (R606). -/
theorem searchPass_exhausted {s : State} (h : s.srch.ldf = true) (c : Byte) :
    searchPass c s = s.zeroCrc.resetTracking.complete (ResultReg.flagged .exhausted false) := by
  rw [searchPass, if_pos h]

theorem drawLevel_reference {s : State} {ds : List Device} (h : s.bus = .reference ds) (k : Slot) :
    s.drawLevel k = (referenceLevel ds k, s) := by
  simp only [State.drawLevel, h]

/-- With no device on the reference bus FIRST reports NO_PRESENCE and leaves LDF = 0 (R607). -/
theorem firstSteps_no_device {s : State} (h : s.Ready) (hb : s.bus = .reference []) :
    (firstSteps s).result = ResultReg.flagged .noPresence false ∧ (firstSteps s).srch.ldf = false := by
  have hdraw : (s.resetTracking.zeroCrc.drawLevel .rst).1 = true := by
    rw [drawLevel_reference (s := s.resetTracking.zeroCrc) hb]
    rfl
  have hready : s.resetTracking.zeroCrc.Ready := h
  have hslot := ready_slot (k := .rst) hready rfl
  have hfirst : firstSteps s = (s.resetTracking.zeroCrc.slot .rst).2.resetTracking.finishWith
      (ResultReg.flagged .noPresence false) := by
    rw [firstSteps, searchPass_slot rfl, slot_ready hready rfl, hdraw]
    rfl
  generalize (s.resetTracking.zeroCrc.slot .rst).2 = t at hfirst hslot
  rw [hfirst, finishWith_ready (s := t.resetTracking) hslot]
  exact ⟨rfl, rfl⟩

/-- Settles O42: the k-th code is found by induction on k, each pass finding the successor of the code before; the last
code leaves LDF = 1, so the NEXT after it is exhausted. -/
theorem enumerationFindsEveryDeviceOnce : Obligations.EnumerationFindsEveryDeviceOnce := by
  intro s ds h hb hnodup hvalid
  obtain ⟨codes, hperm, hs⟩ := sorted_exists _ hnodup
  have hc : Carry ds codes := fun x => by rw [hperm.mem_iff, List.mem_map]
  have hv : ∀ c ∈ codes, crc8Buffer (romBytes c) = 0#8 ∧ romByte c 0 ≠ 0#8 := hc.forall_iff.mpr hvalid
  refine ⟨codes, hperm, hs, fun k c hk => ?_, ?_⟩
  · obtain ⟨t, ht, hfound⟩ := enumerate_found hv hs h hb hc hk
    exact ⟨t, ht, hfound.result, hfound.rom, hfound.ldf_eq hs hk⟩
  · have hlen : codes.length = ds.length := by rw [hperm.length_eq, List.length_map]
    cases hn : codes.length with
    | zero =>
      obtain rfl : ds = [] := List.eq_nil_of_length_eq_zero (hlen.symm.trans hn)
      obtain ⟨hresult, hldf⟩ := firstSteps_no_device h hb
      exact ⟨_, exec_first_ready h, hldf, hresult⟩
    | succ k =>
      have hk : codes[k]? = some codes[k] := List.getElem?_eq_getElem (by omega)
      obtain ⟨t, ht, hfound⟩ := enumerate_found hv hs h hb hc hk
      have hldf : t.srch.ldf = true := by rw [hfound.ldf_eq hs hk, hn]; simp
      have hne : ds ≠ [] := List.ne_nil_of_length_pos (by omega)
      refine ⟨_, enumerate_succ_of_ready ht hfound.ready, ?_⟩
      rw [searchPass_exhausted hldf, if_neg hne]
      exact ⟨rfl, rfl⟩

end Sys2Proof.Machine
end

section
/-! PROOFS. The family of 60_exceptions.md: the faults of commands without a handle and of bus commands on the powered
line, and the completion of the command in progress by the block's own steps. -/

namespace Sys2Proof.Machine

/-! ## NotClaimed and Powered (R711, R713) -/

/-- Without a handle the check of a command that needs one finds NotClaimed. -/
theorem unclaimedFault_unclaimed {s : State} (h : s.handle = none) (w : Word) :
    s.unclaimedFault w = some (.notClaimed w) := by
  simp [State.unclaimedFault, h]

/-- Without a handle a bus command's checks find NotClaimed, which comes before Powered (R731). -/
theorem busFault_unclaimed {s : State} (h : s.handle = none) (w : Word) : s.busFault w = some (.notClaimed w) := by
  simp [State.busFault, h]

/-- On the powered line of a claimed block a bus command's checks find Powered. -/
theorem busFault_powered {s : State} (h : s.handle ≠ none) (hl : s.line = .pwr) (w : Word) :
    s.busFault w = some (.powered w) := by
  simp [State.busFault, h, hl]

/-- INIT and CRC8_UPD are the only commands whose checks do not find NotClaimed without a handle (R713). -/
theorem commandFault_unclaimed {s : State} {i : Instr} (h : s.handle = none) (hi : i.slot? = none)
    (hinit : ∀ p d e, i ≠ .init p d e) (hcrc : ∀ a d, i ≠ .crc8Upd a d) :
    commandFault i s = some (.notClaimed (encode i)) := by
  cases i with
  | init p d e => exact absurd rfl (hinit p d e)
  | crc8Upd a d => exact absurd rfl (hcrc a d)
  | teardown | setFifoThresh _ | waitIdle | endPower | searchReset => exact unclaimedFault_unclaimed h _
  | reset | writeByte _ | writeBytePwr _ | readByte | triplet _ | search _ | first | next | select =>
    exact busFault_unclaimed h _
  | slotRst | slotW0 | slotW1 | slotRd | slotRel | slotW0Pwr | slotW1Pwr => simp [Instr.slot?] at hi

/-- A command faults with what its checks find (R713, R731). -/
theorem exec_faulted {i : Instr} {s : State} {f : Fault} (hi : i.slot? = none) (h : commandFault i s = some f) :
    exec i s = .fault f :=
  (checkedCommandsComplete s i hi).2 f h

/-- Settles O21: the checks of every such command begin with the handle. -/
theorem commandsNeedAHandle : Obligations.CommandsNeedAHandle :=
  fun _ _ h hi hinit hcrc => exec_faulted hi (commandFault_unclaimed h hi hinit hcrc)

/-- On the powered line of a claimed block a command that makes a bus command's checks faults with Powered. -/
theorem exec_powered {s : State} (h : s.handle ≠ none) (hl : s.line = .pwr) (i : Instr) (hi : i.slot? = none)
    (hbus : commandFault i s = s.busFault (encode i)) : exec i s = .fault (.powered (encode i)) :=
  exec_faulted hi (hbus.trans (busFault_powered h hl _))

/-- Settles O22: the nine commands are those whose checks are `busFault`. -/
theorem busCommandsNeedAReleasedLine : Obligations.BusCommandsNeedAReleasedLine := by
  intro s d c pref h hl
  have hpowered := exec_powered h hl
  exact ⟨hpowered .reset rfl rfl, hpowered (.writeByte d) rfl rfl, hpowered (.writeBytePwr d) rfl rfl,
    hpowered .readByte rfl rfl, hpowered (.triplet pref) rfl rfl, hpowered (.search c) rfl rfl,
    hpowered .first rfl rfl, hpowered .next rfl rfl, hpowered .select rfl rfl⟩

/-! ## The block's own steps complete the command (R742) -/

/-- With the engine at rest the sequencer's own words are all that is left to run. -/
theorem finish_of_todo_nil {s : State} {c : Cont} (hs : s.seq = some ⟨[], c⟩)
    (he : s.engine = .idle ∨ s.engine = .stopped) (ht : s.txq = []) : s.finish = finishCont c s := by
  have hqueue : s.queue [] = s := by simp [State.queue]
  simp only [State.finish, hs, hqueue, settle_rest he ht]

/-- With the engine at rest, going on leads to what is left of the command (R217, R414). -/
theorem finish_continueWith {s : State} {c : Cont} (he : s.engine = .idle ∨ s.engine = .stopped) (ht : s.txq = [])
    (hs : s.seq = some ⟨[], c⟩) (hstart : s.StartOk) : (s.continueWith c).finish = finishCont c s := by
  have hrest : s.atRest = true := by simp [State.atRest, he, ht]
  cases c with
  | start i => exact finish_beginCommand i s (hstart _ i hs rfl).1
  | sample w =>
    cases hx : s.rxq with
    | nil => simp only [State.continueWith, hx]; exact finish_of_todo_nil hs he ht
    | cons v rest =>
      have hsettle : ({ s with rxq := rest } : State).settle = { s with rxq := rest } := settle_rest he ht
      simp only [State.continueWith, hx, finish_resume, hsettle, finishCont, State.popSample]
  | record sc id cmp =>
    simp only [State.continueWith, hrest, if_true]
    exact finish_recordBit sc id cmp he ht
  | absent =>
    have hsettle : s.resetTracking.settle = s.resetTracking := settle_rest he ht
    simp only [State.continueWith, hrest, if_true, finishCont, State.finishWith, hsettle]
    exact finish_none rfl
  | done r =>
    simp only [State.continueWith, hrest, if_true, finishCont]
    exact finish_none rfl

/-- With the engine at rest, a move of the sequencer keeps what the command comes to (R217, R414). -/
theorem finish_sequencerTurn {s : State} (h : s.Inv) (he : s.engine = .idle ∨ s.engine = .stopped)
    (ht : s.txq = []) : s.sequencerTurn.finish = s.finish := by
  rcases hs : s.seq with _ | ⟨_ | ⟨k, rest⟩, c⟩
  · simp only [State.sequencerTurn, hs]
  · simp only [State.sequencerTurn, hs]
    rw [finish_continueWith he ht hs h.start, finish_of_todo_nil hs he ht]
  · have hc : ∀ i, c ≠ .start i := fun i hi => by simpa using (h.start _ i hs hi).2.1
    simp only [State.sequencerTurn, hs]
    split
    · rw [finish_proceed _ _ _ hc, ← queue_append]
      simp only [State.finish, hs, List.singleton_append]
    · rfl

/-- What one of the block's own steps does to a command in progress: it keeps the invariant and what the command comes
to, hands the next move to no one else, and leaves less to do. -/
structure Nearer (s t : State) : Prop where
  inv : t.Inv
  input : t.input = s.input
  finish : t.finish = s.finish
  less : State.toGo t < State.toGo s

theorem nearer_sequencerTurn {s : State} (h : s.Inv) (hs : s.seq ≠ none)
    (he : s.engine = .idle ∨ s.engine = .stopped) (ht : s.txq = []) : Nearer s s.sequencerTurn :=
  ⟨sequencerTurn_inv h, sequencerTurn_input s, finish_sequencerTurn h he ht, sequencerTurn_toGo h he ht hs⟩

/-- A turn of the engine changes nothing of what the command comes to (R413), and makes what is left less where it
reaches a point. -/
theorem nearer_engineTurn {s : State} (h : s.Inv) (hs : s.seq ≠ none)
    (hless : State.toGo s.engineTurn < State.toGo s) : Nearer s s.engineTurn where
  inv := engineTurn_inv h
  input := (fromSlots_engineTurn s).input
  finish := (finish_congr (settle_engineTurn s).symm (fromSlots_engineTurn s).seq.symm hs).symm
  less := hless

/-- Reaching the next point of a slot comes no less near to completion. -/
theorem Nearer.nextPoint {s t : State} (h : Nearer s t) (ht : t.seq ≠ none) : Nearer s t.nextPoint where
  inv := nextPoint_inv h.inv
  input := (fromSlots_nextPoint t).input.trans h.input
  finish := (finish_congr (settle_nextPoint t).symm (fromSlots_nextPoint t).seq.symm ht).symm.trans h.finish
  less := (nextPoint_toGo_le t).trans_lt h.less

/-- A queued slot word, run by an IDLE engine as the instruction it is, brings the command nearer to completion
(R412, R413). -/
theorem nearer_slotWord {s : State} (h : s.Inv) (hs : s.seq ≠ none) {k : Slot} {rest : List Slot}
    (he : s.engine = .idle) (ht : s.txq = k :: rest) : Nearer s s.engineTurn.nextPoint.nextPoint.nextPoint := by
  have h0 : s.engineTurn.seq ≠ none := by rwa [(fromSlots_engineTurn s).seq]
  have h1 : s.engineTurn.nextPoint.seq ≠ none := by rwa [(fromSlots_nextPoint _).seq]
  have h2 : s.engineTurn.nextPoint.nextPoint.seq ≠ none := by rwa [(fromSlots_nextPoint _).seq]
  exact (((nearer_engineTurn h hs (engineTurn_toGo k rest he ht)).nextPoint h0).nextPoint h1).nextPoint h2

/-- With no input left and a command in progress, the step is a next state nearer to its completion (R742). -/
theorem step_nearer {s : State} (h : s.Inv) (hin : s.input = []) (hs : s.seq ≠ none) :
    ∃ t, step s = .next t ∧ Nearer s t := by
  rw [step_of_no_input hin]
  cases he : s.engine with
  | stopped =>
    have ht : s.txq = [] := by
      obtain ⟨hpending, -⟩ := h.parked (h.stopped.mp he)
      unfold State.pendingSlots at hpending
      split at hpending
      · exact hpending
      · exact (List.append_eq_nil_iff.mp hpending).1
    exact ⟨_, runOn_rest (.inr he), nearer_sequencerTurn h hs (.inr he) ht⟩
  | idle =>
    cases ht : s.txq with
    | nil => exact ⟨_, runOn_rest (.inl ⟨he, ht⟩), nearer_sequencerTurn h hs (.inl he) ht⟩
    | cons k rest =>
      exact ⟨_, (runOn_idle he ht).trans (exec_slot_eq s k rest he ht), nearer_slotWord h hs he ht⟩
  | run k ph =>
    have hturn : s.engineTurn = s.nextPoint := by simp only [State.engineTurn, he]
    exact ⟨_, runOn_run he, nearer_engineTurn h hs (hturn ▸ nextPoint_toGo k ph he)⟩

/-- The block's own steps reach the finished state, and no command is in progress there: by induction on what is left
to do. -/
theorem run_finish (s : State) (h : s.Inv) (hin : s.input = []) :
    (∃ k, Host.Core.run Sys2Proof.core k s = .next s.finish) ∧ s.finish.seq = none := by
  by_cases hs : s.seq = none
  · rw [finish_none hs]
    exact ⟨⟨0, rfl⟩, hs⟩
  · obtain ⟨t, hstep, ht⟩ := step_nearer h hin hs
    have hless := ht.less
    obtain ⟨⟨k, hrun⟩, hseq⟩ := run_finish t ht.inv (ht.input.trans hin)
    rw [ht.finish] at hrun hseq
    exact ⟨⟨k + 1, (run_succ Sys2Proof.core k s t hstep).trans hrun⟩, hseq⟩
termination_by State.toGo s

/-- Settles O59: each of the block's own steps keeps what the command comes to and leaves less to do. -/
theorem commandsCompleteByThemselves : Obligations.CommandsCompleteByThemselves := by
  intro s h hin
  obtain ⟨hrun, hseq⟩ := run_finish s h hin
  exact ⟨hrun, by rw [State.busy, hseq, Option.isSome_none]⟩

end Sys2Proof.Machine
end

section
/-! PROOFS. Encodings and the decoder read back; every step keeps the invariant; no move of the two agents changes what
the command in progress comes to. -/

namespace Sys2Proof.Machine

/-! ## The two decoders and the encodings (R301–R303, R306) -/

theorem decodeSlot_word (k : Slot) : decodeSlot k.word = .ok k := by cases k <;> rfl

/-- A byte read as a slot word is the word of that slot (R306). -/
theorem word_of_decodeSlot {w : Byte} {k : Slot} (h : decodeSlot w = .ok k) : k.word = w := by
  unfold decodeSlot at h
  split_ifs at h with h0 h1 h2 h3 h4 h9 hA <;> cases h <;> subst w <;> rfl

/-- A slot word's row of the opcode table has 8 bits, which hold its word (R306). -/
theorem decodeTableWord_slot (k : Slot) :
    decodeTableWord k.toInstr.nbits (encode k.toInstr).toNat = some k.toInstr := by
  have hnbits : k.toInstr.nbits ≤ 8 := by simp [Instr.nbits]
  have hword : BitVec.ofNat 8 (encode k.toInstr).toNat = k.word := by cases k <;> rfl
  simp only [decodeTableWord, hnbits, if_true, hword, decodeSlot_word]

/-- A command's row has 32 bits, which are the word the register CMD takes (R301). -/
theorem decodeTableWord_command {i : Instr} (hi : i.slot? = none) (hwf : i.wf = true) :
    decodeTableWord i.nbits (encode i).toNat = some i := by
  have hnbits : ¬ i.nbits ≤ 8 := by simp [Instr.nbits, hi]
  simp only [decodeTableWord, hnbits, if_false, BitVec.ofNat_toNat, BitVec.setWidth_eq, decodeCommand_encode hwf hi]

/-- Settles O1: an instruction is a slot word or a command, and each decoder inverts its encoding. -/
theorem decodingReadsBackEveryEncoding : Obligations.DecodingReadsBackEveryEncoding := by
  intro i hwf
  cases hi : i.slot? with
  | some k =>
    obtain rfl := eq_toInstr_of_slot? hi
    exact decodeTableWord_slot k
  | none => exact decodeTableWord_command hi hwf

/-- Settles O3: what each decoder accepts is an encoding of what it reads. -/
theorem acceptedWordsAreEncodings : Obligations.AcceptedWordsAreEncodings :=
  ⟨fun _ _ => encode_of_decodeCommand, fun _ _ => word_of_decodeSlot⟩

/-! ## Every step keeps the invariant -/

theorem seq_none_of_quiet {s : State} (h : s.busy = false) : s.seq = none := by simpa [State.busy] using h

/-- What a 32-bit read leaves behind is the host's value and the index of the next free value (R209, R221). -/
theorem readValue_snd (s : State) (off : BitVec 6) :
    (s.readValue off).2 = { s with draws := (s.readValue off).2.draws } := by
  unfold State.readValue
  split <;> rfl

/-- A host read changes only the host's value and the index of free values (R205, R209). -/
theorem hostRead_next {width : Nat} {off : BitVec 6} {s t : State} (h : hostRead width off s = .next t) :
    t = { s with readData := t.readData, draws := t.draws } := by
  obtain ⟨-, rfl⟩ := guarded_next h
  rw [readValue_snd]

/-- A word written to CMD that gives a next state found BUSY = 0: it was illegal, or it starts a command whose checks
found nothing (R304, R731). -/
theorem writeCmd_next {w : Word} {s t : State} (h : writeCmd w s = .next t) :
    s.seq = none ∧ (t = s.completeIllegal ∨
      ∃ i, decodeCommand w = .ok i ∧ commandFault i s = none ∧ t = s.proceed [] (.start i)) := by
  unfold writeCmd at h
  split at h
  · cases h
  next hbusy =>
    refine ⟨seq_none_of_quiet (by simpa using hbusy), ?_⟩
    split at h
    · cases h
      exact .inl rfl
    next i hw =>
      obtain ⟨hfault, rfl⟩ := guarded_next h
      exact .inr ⟨i, hw, hfault, rfl⟩

theorem writeSel_next {off : BitVec 6} {v : Word} {r : RomCode} {s t : State} (h : writeSel off v r s = .next t) :
    t = { s with selrom := r } := by
  unfold writeSel at h
  split at h
  · cases h
  · cases h
    rfl

/-- A host write that gives a next state wrote CMD, or changes at most `selrom` (R111, R202). -/
theorem hostWrite_next {width : Nat} {off : BitVec 6} {v : Word} {s t : State} (h : hostWrite width off v s = .next t) :
    writeCmd v s = .next t ∨ t = { s with selrom := t.selrom } := by
  unfold hostWrite at h
  split at h
  · cases h
  unfold State.writeRegister at h
  split_ifs at h
  · exact .inl h
  · exact .inr (by rw [writeSel_next h])
  · exact .inr (by rw [writeSel_next h])
  · cases h
    exact .inr rfl

/-- A word run by `cmd` that gives a next state found BUSY = 0: it was illegal, or it ran a command whose checks found
nothing (R304, R309). -/
theorem hostCmd_next {w : Word} {s t : State} (h : hostCmd w s = .next t) :
    s.seq = none ∧ (t = s.completeIllegal ∨
      ∃ i, i.slot? = none ∧ commandFault i s = none ∧ t = commandSteps i s) := by
  unfold hostCmd at h
  split at h
  · cases h
  next hbusy =>
    refine ⟨seq_none_of_quiet (by simpa using hbusy), ?_⟩
    split at h
    · cases h
      exact .inl rfl
    next i hw =>
      have hi : i.slot? = none := (encode_of_decodeCommand hw).2.2
      obtain ⟨hfault, rfl⟩ := guarded_next ((exec_command hi s).symm.trans h)
      exact .inr ⟨i, hi, hfault, rfl⟩

/-- Completing between commands writes RESULT only (R112, R304). -/
theorem complete_inv {s : State} (h : s.Inv) (hs : s.seq = none) (r : ResultReg) : (s.complete r).Inv := by
  obtain ⟨-, htx, hrx, heng⟩ := h.quiet hs
  have hsearch := h.search
  simp only [State.SearchOk, hs] at hsearch
  exact inv_of_quiet h.params h.stopped h.driven ⟨rfl, htx, hrx, heng⟩ h.thresh hsearch

/-- An accepted command is in progress with nothing in flight (R731). -/
theorem start_inv {s : State} (h : s.Inv) (hs : s.seq = none) {i : Instr} (hi : i.slot? = none)
    (hfault : commandFault i s = none) : (s.proceed [] (.start i)).Inv := by
  obtain ⟨-, htx, hrx, heng⟩ := h.quiet hs
  have hpend : (s.proceed [] (.start i)).pendingSlots = [] := by simp [State.pendingSlots, State.proceed, htx]
  have hsearch := h.search
  simp only [State.SearchOk, hs] at hsearch
  have hkeep : commandFault i (s.proceed [] (.start i)) = commandFault i s := by cases i <;> rfl
  refine ⟨h.params, h.stopped, h.driven, fun _ => ⟨hpend, rfl⟩, (nomatch ·), h.depths, ?samples, ?released, (nomatch ·),
    ?start, h.thresh, hsearch⟩
  case samples =>
    rw [State.outstanding, hpend]
    rcases heng with he | he <;> simp [State.proceed, State.wanted, Cont.wanted, hrx, he, Engine.awaited]
  case released => rw [hpend]; rfl
  case start =>
    intro q j hq hc
    obtain rfl : _ = q := Option.some.inj hq
    obtain rfl : i = j := Cont.start.inj hc
    exact ⟨hi, rfl, htx, hrx, heng, hkeep.trans hfault⟩

/-- The search state of R121 is one whose tracking was reset. -/
theorem reset_srch_ok : State.reset.srch.Ok :=
  resetTracking_srch_ok State.reset (.inl rfl)

/-- The state after the block reset meets the invariant, whatever it was before, as the platform's parameters stay
(R121, R801). -/
theorem blockReset_inv {s : State} (hp : s.params.ok = true) : s.blockReset.Inv :=
  inv_of_quiet hp ⟨fun _ => rfl, fun _ => rfl⟩ rfl ⟨rfl, rfl, rfl, .inr rfl⟩ (Nat.zero_le _) reset_srch_ok

/-- Settles O55: the reset state is what a block reset with R3's default parameters leaves. -/
theorem resetMeetsTheInvariant : Obligations.ResetMeetsTheInvariant := blockReset_inv (s := State.reset) (by decide)

theorem runInput_inv {a : Input} {s t : State} (h : s.Inv) (ht : runInput a s = .next t) : t.Inv := by
  cases a with
  | cmd w =>
    obtain ⟨hs, rfl | ⟨i, hi, hfault, rfl⟩⟩ := hostCmd_next ht
    · exact complete_inv h hs _
    · exact commandSteps_inv h hs i hi hfault
  | write width off v =>
    rcases hostWrite_next ht with hcmd | hsel
    · obtain ⟨hs, rfl | ⟨i, hw, hfault, rfl⟩⟩ := writeCmd_next hcmd
      · exact complete_inv h hs _
      · exact start_inv h hs (encode_of_decodeCommand hw).2.2 hfault
    · exact env_inv h (by rw [hsel])
  | read width off => exact env_inv h (by rw [hostRead_next ht])
  | sequencerTurn => cases ht; exact sequencerTurn_inv h
  | engineTurn => cases ht; exact engineTurn_inv h
  | blockReset => cases ht; exact blockReset_inv h.params

/-- OWM's own move is a move of the sequencer, a whole queued slot, or the next point of the slot in progress
(R412). -/
theorem runOn_eq (s : State) :
    runOn s = .next s.sequencerTurn ∨ runOn s = .next s.nextPoint ∨
      runOn s = .next s.engineTurn.nextPoint.nextPoint.nextPoint := by
  cases he : s.engine with
  | stopped => exact .inl (runOn_rest (.inr he))
  | run k ph => exact .inr (.inl (by simp only [runOn, he]))
  | idle =>
    cases ht : s.txq with
    | nil => exact .inl (runOn_rest (.inl ⟨he, ht⟩))
    | cons k rest => exact .inr (.inr ((runOn_idle he ht).trans (exec_slot_eq s k rest he ht)))

theorem runOn_inv {s t : State} (h : s.Inv) (ht : runOn s = .next t) : t.Inv := by
  rcases runOn_eq s with he | he | he <;> cases he.symm.trans ht
  · exact sequencerTurn_inv h
  · exact nextPoint_inv h
  · exact nextPoint_inv (nextPoint_inv (nextPoint_inv (engineTurn_inv h)))

theorem step_of_input {s : State} {a : Input} {rest : List Input} (h : s.input = a :: rest) :
    step s = runInput a { s with input := rest } := by
  simp only [step, stepState, h]

/-- Settles O56: an input is a host access, a move of an agent or the block reset, each of which keeps the invariant;
with none left OWM's own move does. -/
theorem everyStepKeepsTheInvariant : Obligations.EveryStepKeepsTheInvariant := by
  intro s t h ht
  cases hin : s.input with
  | nil => exact runOn_inv h ((step_of_no_input hin).symm.trans ht)
  | cons a rest =>
    have hrest : State.Inv { s with input := rest } := env_inv h rfl
    exact runInput_inv hrest ((step_of_input hin).symm.trans ht)

/-! ## No move changes what the command in progress comes to (R217, R413, R414) -/

theorem atRest_iff {s : State} : s.atRest = true ↔ (s.engine = .idle ∨ s.engine = .stopped) ∧ s.txq = [] := by
  simp [State.atRest]

/-- With no word to push, what is left is the cont's, once the words in flight have run. -/
theorem finish_todo_nil {s : State} {c : Cont} (hs : s.seq = some ⟨[], c⟩) : s.finish = finishCont c s.settle := by
  simp only [State.finish, hs, queue_nil]

/-- The oldest sample stays the oldest while the words in flight run, so taking it early makes no difference
(R441). -/
theorem settle_popSample {s : State} {v : Bool} {rest : List Bool} (hr : s.rxq = v :: rest) :
    s.settle.popSample = (v, ({ s with rxq := rest } : State).settle) := by
  have hsettle := settle_rxq { s with rxq := rest } [v]
  have hsame : { ({ s with rxq := rest } : State) with rxq := [v] ++ rest } = s := by rw [List.singleton_append, ← hr]
  rw [hsame] at hsettle
  rw [hsettle]
  rfl

/-- Going on with no word to push keeps what the command comes to, whatever is in flight. -/
theorem finish_continueWith_eq {s : State} {c : Cont} (hs : s.seq = some ⟨[], c⟩) (hstart : s.StartOk) :
    (s.continueWith c).finish = s.finish := by
  have atRest (hr : s.atRest = true) : (s.continueWith c).finish = s.finish := by
    obtain ⟨he, ht⟩ := atRest_iff.mp hr
    rw [finish_continueWith he ht hs hstart, finish_of_todo_nil hs he ht]
  cases c with
  | start i =>
    obtain ⟨-, -, htx, -, heng, -⟩ := hstart _ i hs rfl
    exact atRest (atRest_iff.mpr ⟨heng, htx⟩)
  | sample w =>
    cases hr : s.rxq with
    | nil => simp only [State.continueWith, hr]
    | cons v rest =>
      simp only [State.continueWith, hr, finish_resume, finish_todo_nil hs, finishCont, settle_popSample hr]
  | record sc id cmp | absent | done r =>
    by_cases hr : s.atRest = true
    · exact atRest hr
    · simp only [State.continueWith, if_neg hr]

theorem finish_sequencerTurn_eq {s : State} (hstart : s.StartOk) : s.sequencerTurn.finish = s.finish := by
  rcases hs : s.seq with _ | ⟨_ | ⟨k, rest⟩, c⟩
  · simp only [State.sequencerTurn, hs]
  · simp only [State.sequencerTurn, hs]
    exact finish_continueWith_eq hs hstart
  · have hc : ∀ i, c ≠ .start i := fun i hi => by simpa using (hstart _ i hs hi).2.1
    simp only [State.sequencerTurn, hs]
    split
    · rw [finish_proceed _ _ _ hc, ← queue_append]
      simp only [State.finish, hs, List.singleton_append]
    · rfl

/-- Between commands the engine has nothing to do. -/
theorem engine_quiet {s : State} (h : s.Quiet) : s.engineTurn = s ∧ s.nextPoint = s := by
  obtain ⟨-, htx, -, he | he⟩ := h
  · exact ⟨by simp only [State.engineTurn, he, htx], nextPoint_idle he⟩
  · exact ⟨by simp only [State.engineTurn, he], nextPoint_stopped he⟩

/-- A move t of the engine that leaves what the words in flight settle to keeps what the command comes to. -/
theorem finish_of_settle {s t : State} (hf : FromSlots s t) (hsettle : t.settle = s.settle)
    (hquiet : s.seq = none → t = s) : t.finish = s.finish := by
  by_cases hs : s.seq = none
  · rw [hquiet hs]
  · exact (finish_congr hsettle.symm hf.seq.symm hs).symm

/-- Settles O57: a move of the sequencer takes one of the pseudocode's own steps, a move of the engine leaves what the
words in flight settle to. -/
theorem movesKeepTheOutcome : Obligations.MovesKeepTheOutcome := by
  intro s hstart hquiet
  have hstill (hs : s.seq = none) : s.engineTurn = s ∧ s.nextPoint = s :=
    engine_quiet (hquiet (by rw [State.busy, hs, Option.isSome_none]))
  exact ⟨finish_sequencerTurn_eq hstart,
    finish_of_settle (fromSlots_engineTurn s) (settle_engineTurn s) fun hs => (hstill hs).1,
    finish_of_settle (fromSlots_nextPoint s) (settle_nextPoint s) fun hs => (hstill hs).2⟩

end Sys2Proof.Machine
end

section
/-! PROOFS. The step's inputs one by one, what host accesses show and write, which steps can stop, and the history. -/

namespace Sys2Proof.Machine

/-! ## The words of the encoding table (R303, R306) -/

/-- Settles O4: each word is the encoding of the instruction it stands for. -/
theorem writtenOutWordsDecode : Obligations.WrittenOutWordsDecode :=
  ⟨decodeCommand_encode (i := .init 3#8 4#8 true) rfl rfl, decodeCommand_encode (i := .writeByte 0xCC#8) rfl rfl,
    decodeCommand_encode (i := .triplet true) rfl rfl, decodeCommand_encode (i := .crc8Upd 0x12#8 0x34#8) rfl rfl,
    decodeCommand_encode (i := .search 0xEC#8) rfl rfl, decodeCommand_encode (i := .select) rfl rfl,
    decodeSlot_word .w1Pwr⟩

/-! ## The step (R309, R731) -/

/-- With BUSY = 0 `cmd` runs the command its word is read as. -/
theorem hostCmd_decoded {s : State} {w : Word} {i : Instr} (hquiet : s.busy = false) (hw : decodeCommand w = .ok i) :
    hostCmd w s = exec i s := by
  simp [hostCmd, hquiet, hw]

/-- Settles O6: a step with an input left is that input's meaning. -/
theorem stepRunsTheDecodedCommand : Obligations.StepRunsTheDecodedCommand := by
  intro s rest u
  refine ⟨fun w i hin hquiet hw => ?_, fun w => step_of_input, fun width off v => step_of_input,
    fun width off => step_of_input, step_of_input, step_of_input, step_of_input⟩
  calc step s
      = hostCmd w u := step_of_input hin
    _ = exec i u := hostCmd_decoded hquiet hw

/-! ## STATUS (R106, R107, R120, R442) -/

theorem statusWord_sstate (s : State) : s.statusWord.extractLsb' 4 2 = s.srch.sstate := by
  refine field_eq fun i hi => ?_
  rw [statusWord_bit, if_neg (by omega), if_neg (by omega), if_neg (by omega), if_neg (by omega), if_pos (by omega),
    Nat.add_sub_cancel_left]

theorem statusWord_reserved (s : State) : s.statusWord.extractLsb' 6 26 = 0#26 := by
  refine field_eq fun i _ => ?_
  rw [statusWord_bit, if_neg (by omega), if_neg (by omega), if_neg (by omega), if_neg (by omega), if_neg (by omega),
    BitVec.getLsbD_zero]

/-- Settles O9: each bit of the word is the view of the state that `statusWord_bit` names. -/
theorem statusShowsTheBlock : Obligations.StatusShowsTheBlock := by
  intro s
  refine ⟨rfl, ?busy, ?claimed, ?power, ?rxrdy, ?sstate, statusWord_reserved s⟩
  case busy => rw [statusWord_bit]; simp [State.busy, Option.isSome_iff_ne_none]
  case claimed => rw [statusWord_bit]; simp [State.claimed, Option.isSome_iff_ne_none]
  case power => rw [statusWord_bit]; simp [State.power]
  case rxrdy => rw [statusWord_bit]; simp [State.rxrdy]
  case sstate => rw [statusWord_sstate, SearchReg.sstate, ite_not]

/-! ## Host accesses (R105, R209, R221) -/

/-- A read gives the register, but for the search state while BUSY (R209, R221). -/
theorem readValue_cases (s : State) (off : BitVec 6) :
    (s.busy = true ∧ (off = 0x10#6 ∨ off = 0x14#6 ∨ off = 0x18#6)) ∨ s.readValue off = (s.register off, s) := by
  by_cases h : (s.busy && showsSearch off) = true
  · left
    simpa [showsSearch, or_assoc] using h
  · exact .inr (if_neg h)

/-- Settles O11: an aligned read hands over the value read, which `readValue_cases` gives. -/
theorem hostReadsChangeNothing : Obligations.HostReadsChangeNothing := by
  intro s off haligned
  refine ⟨(s.readValue off).1, (s.readValue off).2.draws, ?_, ?_⟩
  · rw [hostRead_aligned haligned, readValue_snd]
  · exact (readValue_cases s off).imp_right fun h => by rw [h]; exact ⟨rfl, rfl⟩

/-- Settles O15: BUSY is looked at before the word. -/
theorem cmdWritesWhileBusyFault : Obligations.CmdWritesWhileBusyFault := by
  intro s w hbusy
  exact ⟨(hostWrite_cmd s w).trans (if_pos hbusy), if_pos hbusy⟩

/-! ## A bare write to CMD starts the command (R105, R309) -/

theorem guarded_fault_iff {f : Option Fault} {t : State} {e : Fault} : guarded f t = .fault e ↔ f = some e := by
  cases f <;> simp [guarded]

/-- With BUSY = 0 an accepted word begins its command after the command's checks (R731). -/
theorem writeCmd_decoded {s : State} {w : Word} {i : Instr} (hquiet : s.busy = false) (hw : decodeCommand w = .ok i) :
    writeCmd w s = guarded (commandFault i s) (s.proceed [] (.start i)) := by
  simp [writeCmd, hquiet, hw]

theorem beginPass_setSeq (c : Byte) (s : State) (q : Option Seq) :
    beginPass c { s with seq := q } = beginPass c s := by
  unfold beginPass
  split <;> rfl

/-- The platform's answer does not depend on the sequencer's position. -/
theorem claim_setSeq (s : State) (q : Option Seq) :
    ({ s with seq := q } : State).claim = (s.claim.1, { s.claim.2 with seq := q }) := by
  cases hp : s.pool <;> simp only [State.claim, hp]

theorem initSteps_setSeq (pin dirpin : Byte) (dirEn : Bool) (s : State) (q : Option Seq) :
    initSteps pin dirpin dirEn { s with seq := q } = initSteps pin dirpin dirEn s := by
  have hclaim := claim_setSeq { s with pullOff := true } q
  rcases hanswer : ({ s with pullOff := true } : State).claim with ⟨_ | h, t⟩ <;> rw [hanswer] at hclaim
  · rw [initSteps_denied pin dirpin dirEn hanswer]
    exact initSteps_denied (s := { s with seq := q }) (t := { t with seq := q }) pin dirpin dirEn hclaim
  · rw [initSteps_granted pin dirpin dirEn hanswer]
    exact initSteps_granted (s := { s with seq := q }) (t := { t with seq := q }) pin dirpin dirEn hclaim

/-- The first move of a command sets the sequencer's position, whatever it was. -/
theorem beginCommand_setSeq {i : Instr} (hi : i.slot? = none) (s : State) (q : Option Seq) :
    beginCommand i { s with seq := q } = beginCommand i s := by
  cases i with
  | init p d e => exact initSteps_setSeq p d e s q
  | teardown =>
    simp only [beginCommand, teardownSteps]
    split <;> rfl
  | search c => exact beginPass_setSeq c s q
  | first => exact beginPass_setSeq _ s.resetTracking q
  | next => exact beginPass_setSeq _ s q
  | setFifoThresh _ | waitIdle | reset | writeByte _ | writeBytePwr _ | endPower | readByte | triplet _ | crc8Upd _ _
  | searchReset | select => rfl
  | slotRst | slotW0 | slotW1 | slotRd | slotRel | slotW0Pwr | slotW1Pwr => cases hi

/-- Between commands a command that is started comes to what its own steps give (R731). -/
theorem finish_start {s : State} (h : s.Quiet) {i : Instr} (hi : i.slot? = none) :
    (s.proceed [] (.start i)).finish = commandSteps i s := by
  obtain ⟨-, htx, -, heng⟩ := h
  calc (s.proceed [] (.start i)).finish
      = commandSteps i (s.proceed [] (.start i)) := finish_of_todo_nil (s := s.proceed [] (.start i)) rfl heng htx
    _ = (beginCommand i (s.proceed [] (.start i))).finish := (finish_beginCommand i _ hi).symm
    _ = (beginCommand i s).finish := by rw [State.proceed, beginCommand_setSeq hi]
    _ = commandSteps i s := finish_beginCommand i s hi

/-- Settles O58: the write and `cmd` decode and check alike, and the command started comes to its own steps. -/
theorem writingCmdStartsTheCommand : Obligations.WritingCmdStartsTheCommand := by
  refine ⟨fun s w h => ?_, fun s w i hquiet hw hfault => ?_⟩
  · have hquiet : s.busy = false := by rw [State.busy, h.1, Option.isSome_none]
    rw [hostWrite_cmd]
    cases hw : decodeCommand w with
    | error e =>
      rw [hostCmd_illegal hquiet hw, writeCmd_illegal hquiet hw]
      refine ⟨fun t ht => ?_, fun f => Iff.rfl⟩
      cases ht
      rw [finish_none rfl]
    | ok i =>
      have hi : i.slot? = none := (encode_of_decodeCommand hw).2.2
      rw [hostCmd_decoded hquiet hw, writeCmd_decoded hquiet hw, exec_command hi]
      refine ⟨fun t ht => ?_, fun f => by rw [guarded_fault_iff, guarded_fault_iff]⟩
      obtain ⟨hnone, rfl⟩ := guarded_next ht
      rw [hnone, guarded, finish_start h hi]
  · refine ⟨s.proceed [] (.start i), ?_, rfl, rfl⟩
    rw [hostWrite_cmd, writeCmd_decoded hquiet hw, hfault, guarded]

/-! ## Which steps can stop (R711, R712) -/

/-- Settles O60: only the three host accesses have an outcome other than a next state. -/
theorem onlyHostAccessesStop : Obligations.OnlyHostAccessesStop := by
  intro s h hcmd hwrite hread
  cases hin : s.input with
  | nil =>
    rw [step_of_no_input hin]
    rcases runOn_eq s with he | he | he <;> exact ⟨_, he⟩
  | cons a rest =>
    rw [step_of_input hin]
    cases a with
    | cmd w => exact absurd hin (hcmd w rest)
    | write width off v => exact absurd hin (hwrite width off v rest)
    | read width off => exact absurd hin (hread width off rest)
    | sequencerTurn | engineTurn | blockReset => exact ⟨_, rfl⟩

/-! ## The history (R119, R215) -/

theorem hist_initSteps (pin dirpin : Byte) (dirEn : Bool) (s : State) :
    (initSteps pin dirpin dirEn s).hist = s.hist := by
  simp only [initSteps]
  split <;> rw [claim_eq] <;> rfl

theorem hist_teardownSteps (s : State) : s.hist <+: (teardownSteps s).hist := by
  simp only [teardownSteps]
  split
  · exact List.prefix_append _ _
  · exact List.prefix_refl _

/-- A command only appends events. -/
theorem hist_commandSteps (i : Instr) (s : State) : s.hist <+: (commandSteps i s).hist := by
  cases writes_commandSteps i s with
  | init => exact (hist_initSteps _ _ _ s).symm ▸ List.prefix_refl _
  | teardown => exact hist_teardownSteps s
  | setFifoThresh => exact List.prefix_refl _
  | search _ hcommand => exact hcommand.hist
  | transfer htransfer => exact htransfer.hist

theorem hist_beginPass (c : Byte) (s : State) : (beginPass c s).hist = s.hist := by
  unfold beginPass
  split <;> rfl

/-- A command's first move either does all its steps or none that ends a slot. -/
theorem hist_beginCommand (i : Instr) (s : State) : s.hist <+: (beginCommand i s).hist := by
  cases i with
  | init p d e => exact hist_commandSteps (.init p d e) s
  | teardown => exact hist_commandSteps .teardown s
  | search c => rw [beginCommand, hist_beginPass]
  | first => rw [beginCommand, hist_beginPass]; exact List.prefix_refl _
  | next => rw [beginCommand, hist_beginPass]
  | setFifoThresh _ | waitIdle | reset | writeByte _ | writeBytePwr _ | endPower | readByte | triplet _ | crc8Upd _ _
  | searchReset | select | slotRst | slotW0 | slotW1 | slotRd | slotRel | slotW0Pwr | slotW1Pwr =>
    exact List.prefix_refl _

theorem hist_continueWith (c : Cont) (s : State) : s.hist <+: (s.continueWith c).hist := by
  cases c with
  | start i => exact hist_beginCommand i s
  | sample w =>
    simp only [State.continueWith]
    split
    · rw [resume_eq]
    · exact List.prefix_refl _
  | record sc id cmp =>
    simp only [State.continueWith]
    split
    · rw [recordBit_eq]
    · exact List.prefix_refl _
  | absent | done r =>
    simp only [State.continueWith]
    split <;> exact List.prefix_refl _

theorem hist_sequencerTurn (s : State) : s.hist <+: s.sequencerTurn.hist := by
  rcases sequencerTurn_cases s with he | ⟨c, -, he⟩ | ⟨k, todo, c, he⟩ <;> rw [he]
  · exact hist_continueWith c s
  · exact List.prefix_refl _

/-- An input other than the block reset only appends events. -/
theorem hist_runInput {a : Input} (ha : a ≠ .blockReset) {s t : State} (h : runInput a s = .next t) :
    s.hist <+: t.hist := by
  cases a with
  | cmd w =>
    obtain ⟨-, rfl | ⟨i, -, -, rfl⟩⟩ := hostCmd_next h
    · exact List.prefix_refl _
    · exact hist_commandSteps i s
  | write width off v =>
    rcases hostWrite_next h with hcmd | hsel
    · obtain ⟨-, rfl | ⟨i, -, -, rfl⟩⟩ := writeCmd_next hcmd <;> exact List.prefix_refl _
    · rw [hsel]
  | read width off => rw [hostRead_next h]
  | sequencerTurn => cases h; exact hist_sequencerTurn s
  | engineTurn => cases h; exact (fromSlots_engineTurn s).hist
  | blockReset => exact absurd rfl ha

theorem hist_runOn {s t : State} (h : runOn s = .next t) : s.hist <+: t.hist := by
  rcases runOn_eq s with he | he | he <;> cases he.symm.trans h
  · exact hist_sequencerTurn s
  · exact (fromSlots_nextPoint s).hist
  · exact ((((fromSlots_engineTurn s).trans (fromSlots_nextPoint _)).trans (fromSlots_nextPoint _)).trans
      (fromSlots_nextPoint _)).hist

/-- Settles O53: slots append their events, and nothing but the block reset writes the history otherwise. -/
theorem historyOnlyGrows : Obligations.HistoryOnlyGrows := by
  intro s t hreset ht
  cases hin : s.input with
  | nil => exact hist_runOn ((step_of_no_input hin).symm.trans ht)
  | cons a rest =>
    have ha : a ≠ .blockReset := fun e => hreset rest (e ▸ hin)
    exact hist_runInput (s := { s with input := rest }) ha ((step_of_input hin).symm.trans ht)

end Sys2Proof.Machine
end

section
/-! PROOFS. Commands that make no slot, TRIPLET, the slot words, and the points and times of a slot. -/

namespace Sys2Proof.Machine

/-! ## The checks of INIT (R451, R711, R731) -/

theorem badPins_eq_true_iff {p : Params} {pin dirpin : Byte} {dirEn : Bool} :
    badPins p pin dirpin dirEn = true ↔
      p.nGpio ≤ pin.toNat ∨ (dirEn = true ∧ (p.hasDir = false ∨ p.nGpio ≤ dirpin.toNat ∨ dirpin = pin)) := by
  simp [badPins, or_assoc]

theorem initFault_claimed {s : State} (h : s.handle ≠ none) (w : Word) (pin dirpin : Byte) (dirEn : Bool) :
    s.initFault w pin dirpin dirEn = some (.alreadyClaimed w) :=
  if_pos (Option.isSome_iff_ne_none.mpr h)

theorem initFault_unclaimed_iff {s : State} (h : s.handle = none) (w : Word) (pin dirpin : Byte) (dirEn : Bool) :
    s.initFault w pin dirpin dirEn = some (.badPin w) ↔ badPins s.params pin dirpin dirEn = true := by
  simp [State.initFault, h]

/-- Settles O17: INIT faults with what its checks find, the claim being looked at before the pins. -/
theorem initChecksClaimThenPins : Obligations.InitChecksClaimThenPins := by
  intro s pin dirpin dirEn
  refine ⟨fun h => exec_faulted rfl (initFault_claimed h _ pin dirpin dirEn), fun h => ?_⟩
  calc exec (.init pin dirpin dirEn) s = .fault (.badPin (encode (.init pin dirpin dirEn)))
      ↔ s.initFault (encode (.init pin dirpin dirEn)) pin dirpin dirEn =
          some (.badPin (encode (.init pin dirpin dirEn))) := guarded_fault_iff
    _ ↔ badPins s.params pin dirpin dirEn = true := initFault_unclaimed_iff h _ pin dirpin dirEn
    _ ↔ _ := badPins_eq_true_iff

/-! ## Commands that complete in one move (R458, R553, R601, R606) -/

/-- Settles O19: with a handle no check finds a fault, and the steps write CFG.FIFO_THRESH and RESULT. -/
theorem thresholdIsClamped : Obligations.ThresholdIsClamped :=
  fun _ _ h => exec_checked rfl (unclaimedFault_none h _)

/-- Settles O30: the command makes no check, and its steps complete with the step's value. -/
theorem crcUpdateReturnsTheStep : Obligations.CrcUpdateReturnsTheStep :=
  fun _ acc data => exec_checked (i := .crc8Upd acc data) rfl rfl

/-- Settles O35: with a handle no check finds a fault, and the steps reset the tracking. -/
theorem searchResetKeepsTheCode : Obligations.SearchResetKeepsTheCode :=
  fun _ h => exec_checked rfl (unclaimedFault_none h _)

/-- With its checks passed SEARCH is the pass (R604). -/
theorem exec_search {s : State} (h : s.handle ≠ none) (hl : s.line ≠ .pwr) (c : Byte) :
    exec (.search c) s = .next (searchPass c s) :=
  exec_checked rfl (busFault_none h hl _)

/-- With its checks passed NEXT is the pass with 0xF0 (R624). -/
theorem exec_next {s : State} (h : s.handle ≠ none) (hl : s.line ≠ .pwr) :
    exec .next s = .next (searchPass 0xF0#8 s) :=
  exec_checked rfl (busFault_none h hl _)

/-- With its checks passed FIRST resets the tracking, then is the pass with 0xF0 (R622). -/
theorem exec_first {s : State} (h : s.handle ≠ none) (hl : s.line ≠ .pwr) :
    exec .first s = .next (searchPass 0xF0#8 s.resetTracking) :=
  exec_checked rfl (busFault_none h hl _)

/-- Settles O36: with LDF = 1 the pass completes before its first slot. -/
theorem exhaustedSearchesMakeNoSlot : Obligations.ExhaustedSearchesMakeNoSlot := by
  intro s c h hl hldf t
  rw [exec_search h hl, exec_next h hl, searchPass_exhausted hldf, searchPass_exhausted hldf]
  exact ⟨rfl, rfl⟩

/-! ## TRIPLET (R516, R518) -/

theorem direction_eq (id cmp pref : Bool) : direction id cmp pref = if id = cmp then pref else id := by
  cases id <;> cases cmp <;> rfl

/-- From a ready state two read slots take two samples and append their events; nothing else of OWM changes. Scripted
draws are taken in slot order (R426). -/
theorem slot_rd_twice {s : State} (h : s.Ready) :
    ∃ (b : Bus) (d : Nat),
      ((s.slot .rd).2.slot .rd).2 = { s with
        hist := s.hist ++ [.read (s.slot .rd).1, .read ((s.slot .rd).2.slot .rd).1], bus := b, draws := d } ∧
      ∀ id cmp rest, s.bus = .draws (id :: cmp :: rest) →
        (s.slot .rd).1 = id ∧ ((s.slot .rd).2.slot .rd).1 = cmp ∧ b = .draws rest ∧ d = s.draws := by
  have hslot := slot_ready h (k := .rd) rfl
  have hslot2 := slot_ready (ready_slot h (k := .rd) rfl) (k := .rd) rfl
  refine ⟨(s.slot .rd).2.busAfter .rd, ((s.slot .rd).2.drawLevel .rd).2.draws, ?_, fun id cmp rest hbus => ?_⟩
  · rw [hslot2, hslot]
    simp [slotEvent]
  · obtain ⟨hid, hafter, hdraws⟩ := draw_scripted hbus .rd
    have hbus2 : (s.slot .rd).2.bus = .draws (cmp :: rest) := by rw [hslot]; exact hafter
    obtain ⟨hcmp, hafter2, hdraws2⟩ := draw_scripted hbus2 .rd
    refine ⟨by rw [hslot, hid], by rw [hslot2, hcmp], hafter2, hdraws2.trans ?_⟩
    rw [hslot, hdraws]

/-- Settles O29: after the two reads the state is ready for the one write slot that runs before the completion. -/
theorem tripletReadsTwiceAndWrites : Obligations.TripletReadsTwiceAndWrites := by
  intro s pref h
  have hsteps : exec (.triplet pref) s =
      .next (tripletWrite pref (s.slot .rd).1 ((s.slot .rd).2.slot .rd).1 ((s.slot .rd).2.slot .rd).2) :=
    exec_checked rfl (busFault_ready h _)
  have hready : ((s.slot .rd).2.slot .rd).2.Ready := ready_slot (ready_slot h rfl) rfl
  obtain ⟨b, d, hreads, hscript⟩ := slot_rd_twice h
  generalize (s.slot .rd).1 = id, ((s.slot .rd).2.slot .rd).1 = cmp, ((s.slot .rd).2.slot .rd).2 = t at *
  have hwrite := finishWith_writes hready [direction id cmp pref]
    (ResultReg.byte (tripletByte id cmp (direction id cmp pref)))
  have hexec : exec (.triplet pref) s = .next { s with
      result := ResultReg.byte (tripletByte id cmp (direction id cmp pref))
      hist := s.hist ++ [.read id, .read cmp, .write (direction id cmp pref) false]
      bus := b.observe (.write (direction id cmp pref) false), draws := d } := by
    rw [hsteps, tripletWrite]
    refine congrArg _ (hwrite.trans ?_)
    rw [hreads]
    simp
  rw [direction_eq] at hexec
  refine ⟨⟨id, cmp, _, d, hexec⟩, fun i c rest hbus => ?_⟩
  obtain ⟨rfl, rfl, rfl, rfl⟩ := hscript i c rest hbus
  exact hexec

/-! ## Slot words (R411, R422–R425) -/

/-- An IDLE engine runs a slot without a sample to its end: the line is as the slot releases it, the event appended
(R422–R425). -/
theorem exec_writeSlot {s : State} (h : s.engine = .idle) {k : Slot} (hk : slotSamples k = false) :
    exec k.toInstr s = .next { s with
      line := releaseLine k, hist := s.hist ++ [slotEvent k false], bus := s.bus.observe (slotEvent k false) } := by
  rw [exec_slot, slotMeaning_idle h, runSlot_write s hk, ← h]

/-- Settles O45: the five words are those of the slots without a sample. -/
theorem writeAndReleaseSlots : Obligations.WriteAndReleaseSlots := by
  intro s h after
  exact ⟨exec_writeSlot h (k := .w0) rfl, exec_writeSlot h (k := .w1) rfl, exec_writeSlot h (k := .w0Pwr) rfl,
    exec_writeSlot h (k := .w1Pwr) rfl, exec_writeSlot h (k := .rel) rfl⟩

/-- Settles O47: every slot word's meaning looks at the engine first. -/
theorem stoppedEngineTakesNoSlotWord : Obligations.StoppedEngineTakesNoSlotWord := by
  intro s k h
  rw [exec_slot, State.slotMeaning, if_pos h]

/-! ## The points of a slot and their times (R3, R412, R421–R426) -/

theorem sampleAt_eq (p : Params) (k : Slot) :
    sampleAt p k = if k = .rst then some (p.tRstl + p.tMsp) else if k = .rd then some p.tMsr else none := by
  cases k <;> rfl

theorem endAt_eq (p : Params) (k : Slot) :
    endAt p k = if k = .rst then p.tRstl + p.tRsth else if k = .rel then 0 else p.tSlot := by
  cases k <;> rfl

/-- With parameters that meet R3 the points of a slot other than REL stand in their order. -/
theorem points_ordered {p : Params} (hp : p.ok = true) {k : Slot} (hk : k ≠ .rel) :
    0 < releaseAt p k ∧ releaseAt p k < endAt p k ∧
      ∀ t, sampleAt p k = some t → releaseAt p k < t ∧ t < endAt p k := by
  simp only [Params.ok, Bool.and_eq_true, decide_eq_true_eq] at hp
  cases k with
  | rel => exact absurd rfl hk
  | rst | rd =>
    simp only [releaseAt, endAt, sampleAt, Option.some.injEq, forall_eq']
    omega
  | w0 | w1 | w0Pwr | w1Pwr =>
    simp only [releaseAt, endAt, sampleAt, reduceCtorEq, false_implies, implies_true, and_true]
    omega

theorem releaseLine_eq (k : Slot) : releaseLine k = if k = .w0Pwr ∨ k = .w1Pwr then .pwr else .rel := by
  cases k <;> rfl

theorem slotSamples_iff (k : Slot) : slotSamples k = true ↔ k = .rst ∨ k = .rd := by
  cases k <;> simp [slotSamples]

/-- With a slot in progress a turn of the engine reaches the slot's next point (R412). -/
theorem engineTurn_run {s : State} {k : Slot} {ph : Phase} (h : s.engine = .run k ph) : s.engineTurn = s.nextPoint := by
  simp only [State.engineTurn, h]

/-- An IDLE engine takes the head of the queue (R412). -/
theorem engineTurn_take {s : State} {k : Slot} {rest : List Slot} (h : s.engine = .idle) (ht : s.txq = k :: rest) :
    s.engineTurn = ({ s with txq := rest } : State).takeSlot k := by
  simp only [State.engineTurn, h, ht]

/-- The release point (R421–R426). -/
theorem engineTurn_low {s : State} {k : Slot} (h : s.engine = .run k .low) :
    s.engineTurn = { s with line := releaseLine k, engine := .run k .released } := by
  rw [engineTurn_run h, State.nextPoint, h]

/-- From the release point a slot without a sample goes to its end (R422–R424). -/
theorem engineTurn_released_write {s : State} {k : Slot} (h : s.engine = .run k .released)
    (hk : slotSamples k = false) : s.engineTurn = s.endSlot k false := by
  simp only [engineTurn_run h, State.nextPoint, h, hk, Bool.false_eq_true, if_false]

/-- From the release point a slot with a sample goes to its sample point, where the released line is drawn; a draw
depends on the environment and the draw index only (R404, R421, R426). -/
theorem engineTurn_released_sample {s r : State} {k : Slot} (h : r.engine = .run k .released)
    (hk : slotSamples k = true) (hl : r.line = .rel) (hbus : r.bus = s.bus) (hdraws : r.draws = s.draws) :
    r.engineTurn = { r with
      engine := .run k (.sampled (s.drawLevel k).1), rxq := r.rxq ++ [(s.drawLevel k).1]
      bus := (s.drawLevel k).2.bus, draws := (s.drawLevel k).2.draws } := by
  have hsample : r.sampleLine k = r.drawLevel k := by simp only [State.sampleLine, hl]
  obtain ⟨h1, h2, h3⟩ := drawLevel_congr k hbus hdraws
  simp only [engineTurn_run h, State.nextPoint, h, hk, if_true, State.samplePoint, hsample]
  rw [drawLevel_snd, h1, h2, h3]

/-- From the sample point a slot goes to its end (R421, R426). -/
theorem engineTurn_sampled {s : State} {k : Slot} {v : Bool} (h : s.engine = .run k (.sampled v)) :
    s.engineTurn = s.endSlot k v := by
  rw [engineTurn_run h, State.nextPoint, h]

/-- Settles O48: the times are the tables', and each turn of the engine goes to the slot's next point. -/
theorem slotPointsInOrder : Obligations.SlotPointsInOrder := by
  refine ⟨fun p => ⟨⟨rfl, rfl, rfl, rfl, rfl, rfl, rfl⟩, sampleAt_eq p, endAt_eq p, fun hp _ => points_ordered hp⟩,
    fun s k rest he ht hk => ?slot, fun s rest he ht => ?rel⟩
  case rel =>
    rw [engineTurn_take he ht, State.takeSlot, if_pos rfl, he]
    rfl
  case slot =>
    have htake : s.engineTurn = { s with txq := rest, line := .low, engine := .run k .low } := by
      rw [engineTurn_take he ht, State.takeSlot, if_neg hk]
    refine ⟨htake, ?_, ?_, ?_⟩
    · rw [htake, engineTurn_low (k := k) rfl, releaseLine_eq]
    · intro hno
      have hsamples : slotSamples k = false := by
        rw [← Bool.not_eq_true, slotSamples_iff, not_or]
        exact hno
      exact engineTurn_released_write rfl hsamples
    · intro hyes v sampled
      have hsamples : slotSamples k = true := (slotSamples_iff k).mpr hyes
      have hpwr : ¬ (k = .w0Pwr ∨ k = .w1Pwr) := by rcases hyes with rfl | rfl <;> simp
      refine ⟨engineTurn_released_sample rfl hsamples (if_neg hpwr) rfl rfl, engineTurn_sampled rfl⟩

end Sys2Proof.Machine
end

section
/-! PROOFS. The family of 44_search.md on any line: how a pass ends, as a function of the sample pairs it takes; what
FIRST and NEXT are; what a completed search says of its code; FIRST and NEXT with one device. -/

namespace Sys2Proof.Machine

/-! ## The start of a pass (R605, R607) -/

/-- The search state with the tracking and `crc8` zero (R602, R605). -/
def SearchReg.cleared (crc8 : Byte) (rom : RomCode) : SearchReg :=
  { ld := 0#7, lfd := 0#4, ldf := false, crc8 := crc8, rom := rom }

/-- A pass from LDF = 0 takes its presence sample with `crc8` zero, whatever else the search state is (R605, R607). -/
theorem searchPass_presence {s : State} (hl : s.srch.ldf = false) (c : Byte) :
    searchPass c s = searchPresence c (s.slot .rst).1 { (s.slot .rst).2 with srch := { s.srch with crc8 := 0#8 } } := by
  rw [searchPass_slot hl, State.zeroCrc, slot_srch]

/-- FIRST takes its presence sample with the tracking and `crc8` zero and `rom_no` as it was (R622). -/
theorem firstSteps_presence (s : State) (r : SearchReg) :
    firstSteps { s with srch := r } =
      searchPresence 0xF0#8 (s.slot .rst).1 { (s.slot .rst).2 with srch := .cleared 0#8 r.rom } := by
  have hreset : State.resetTracking { s with srch := r } = { s with srch := .cleared r.crc8 r.rom } := rfl
  rw [firstSteps, hreset, searchPass_presence rfl, slot_srch]
  rfl

/-- Without a presence the pass resets the tracking and completes with NO_PRESENCE (R607). -/
theorem searchPresence_absent {s : State} (h : s.Ready) (c : Byte) :
    searchPresence c true s = { s with
      result := ResultReg.flagged .noPresence false, srch := .cleared s.srch.crc8 s.srch.rom } := by
  have hready : s.resetTracking.Ready := h
  rw [searchPresence, if_pos rfl, finishWith_ready hready]
  rfl

/-- From a ready state whose RST sample is 1, with any search state. -/
theorem searchPresence_absent_slot {s : State} (h : s.Ready) (hv : (s.drawLevel .rst).1 = true) (c : Byte)
    (r : SearchReg) :
    searchPresence c (s.slot .rst).1 { (s.slot .rst).2 with srch := r } = { s with
      result := ResultReg.flagged .noPresence false, srch := .cleared r.crc8 r.rom
      hist := s.hist ++ [.reset true], bus := s.busAfter .rst, draws := (s.drawLevel .rst).2.draws } := by
  have hready : ({ (s.slot .rst).2 with srch := r } : State).Ready := ready_slot h rfl
  have hsample : (s.slot .rst).1 = true := by rw [slot_ready h rfl, hv]
  rw [hsample, searchPresence_absent hready, slot_ready h rfl, hv]
  rfl

/-- Settles O37: the three commands take the same RST sample, which ends the pass. -/
theorem noPresenceEndsThePass : Obligations.NoPresenceEndsThePass := by
  intro s c h hv t
  refine ⟨fun hl => ?_, ?_⟩
  · have hpass (c : Byte) : searchPass c s = t := by
      rw [searchPass_presence hl, searchPresence_absent_slot h hv]
      rfl
    exact ⟨(exec_checked (i := .search c) rfl (busFault_ready h _)).trans (congrArg _ (hpass c)),
      (exec_next_ready h).trans (congrArg _ (hpass _))⟩
  · have hfirst : firstSteps s = t := (firstSteps_presence s s.srch).trans (searchPresence_absent_slot h hv _ _)
    rw [exec_first_ready h, hfirst]

/-! ## The verdict on 64 bits (R614–R617) -/

/-- Completing after a verdict writes RESULT and the search state; the rest is what the words in flight settle to. -/
theorem scanEnd_eq (sc : Scan) (s : State) :
    scanEnd sc s = { s.settle with
      result := (s.verdict sc).1, srch := (s.verdict sc).2.srch, seq := none } := by
  rw [scanEnd, verdict_eq, finishWith_srch_set]
  rfl

theorem verdict_crcFail {s : State} (h : s.srch.crc8 ≠ 0#8) (sc : Scan) :
    (s.verdict sc).1 = ResultReg.flagged .crcFail false ∧
      (s.verdict sc).2.srch = .cleared s.srch.crc8 0#64 := by
  simp only [State.verdict, if_pos h]
  exact ⟨trivial, rfl⟩

theorem verdict_familyZero {s : State} (h : s.srch.crc8 = 0#8) (hfam : romByte s.srch.rom 0 = 0#8) (sc : Scan) :
    (s.verdict sc).1 = ResultReg.flagged .familyZero false ∧
      (s.verdict sc).2.srch = .cleared s.srch.crc8 0#64 := by
  simp only [State.verdict, if_neg (not_not.mpr h), if_pos hfam]
  exact ⟨trivial, rfl⟩

theorem verdict_found {s : State} (h : s.srch.crc8 = 0#8) (hfam : romByte s.srch.rom 0 ≠ 0#8) (sc : Scan) :
    (s.verdict sc).1 = ResultReg.flagged .ok true ∧ (s.verdict sc).2.srch = s.srch.track sc := by
  simp only [State.verdict, if_neg (not_not.mpr h), if_neg hfam]
  exact ⟨trivial, trivial⟩

/-! ## What a completed search says of its code (R613, R616, R618) -/

/-- What a pass with a presence has completed with: a code whose CRC register is 0 and whose family code is not, or
no code and no tracking (R615–R617). -/
structure Judged (t : State) : Prop where
  found : t.result.flag = true → t.result.code = .ok ∧ romByte t.srch.rom 0 ≠ 0#8 ∧ t.srch.crc8 = 0#8
  failed : t.result.flag = false →
    t.result.code ≠ .ok ∧ t.srch.ld = 0#7 ∧ t.srch.lfd = 0#4 ∧ t.srch.ldf = false
  present : t.result.code ≠ .noPresence
  started : t.result.code ≠ .exhausted

/-- A search that failed with this code. -/
theorem judged_failed {t : State} {code : Code} {crc8 : Byte} {rom : RomCode}
    (hr : t.result = ResultReg.flagged code false) (hs : t.srch = .cleared crc8 rom) (hok : code ≠ .ok)
    (hpresent : code ≠ .noPresence) (hstarted : code ≠ .exhausted) : Judged t where
  found := by rw [hr]; exact (nomatch ·)
  failed := by rw [hr, hs]; exact fun _ => ⟨hok, rfl, rfl, rfl⟩
  present := by rw [hr]; exact hpresent
  started := by rw [hr]; exact hstarted

theorem judged_scanEnd (sc : Scan) (s : State) : Judged (scanEnd sc s) := by
  rw [scanEnd_eq]
  by_cases hcrc : s.srch.crc8 = 0#8
  · by_cases hfam : romByte s.srch.rom 0 = 0#8
    · obtain ⟨hr, hs⟩ := verdict_familyZero hcrc hfam sc
      exact judged_failed hr hs (by decide) (by decide) (by decide)
    · obtain ⟨hr, hs⟩ := verdict_found hcrc hfam sc
      rw [hr, hs]
      exact ⟨fun _ => ⟨rfl, hfam, hcrc⟩, (nomatch ·), nofun, nofun⟩
  · obtain ⟨hr, hs⟩ := verdict_crcFail hcrc sc
    exact judged_failed hr hs (by decide) (by decide) (by decide)

/-- A pass ends with no response or with its verdict, from every state. -/
theorem judged_scanBits (k : Nat) (sc : Scan) (s : State) : Judged (scanBits k sc s) := by
  induction k generalizing sc s with
  | zero => exact judged_scanEnd sc s
  | succ k ih =>
    rw [scanBits, scanCmp, scanWrite_eq]
    split
    · exact judged_failed rfl (finishWith_srch _ _) (by decide) (by decide) (by decide)
    · exact ih _ _

/-- The 64 bits of a pass that starts with `crc8` zero leave a search state that meets R116. -/
theorem scanBits_start_ok {s : State} (h : s.srch.crc8 = 0#8) : (scanBits 64 Scan.start s).srch.Ok :=
  scanBits_srch_ok 64 Scan.start s rfl h (Nat.le_refl _) (Nat.zero_le _) (Nat.le_refl _)

/-- A search that starts with the tracking zero is judged, or found no presence (R607). -/
theorem searchPresence_cases (c : Byte) (v : Bool) {s : State} (h : s.srch.crc8 = 0#8) :
    (∃ rom, (searchPresence c v s).result = ResultReg.flagged .noPresence false ∧
      (searchPresence c v s).srch = .cleared 0#8 rom) ∨
    Judged (searchPresence c v s) ∧ (searchPresence c v s).srch.Ok := by
  cases v with
  | true =>
    refine .inl ⟨s.srch.rom, rfl, ?_⟩
    calc (searchPresence c true s).srch
        = .cleared s.srch.crc8 s.srch.rom := finishWith_srch s.resetTracking _
      _ = .cleared 0#8 s.srch.rom := by rw [h]
  | false =>
    rw [searchPresence_present]
    exact .inr ⟨judged_scanBits _ _ _, scanBits_start_ok h⟩

/-- A pass reports EXHAUSTED or NO_PRESENCE with the tracking zero, or is judged (R606, R607, R615). -/
theorem searchPass_cases (c : Byte) (s : State) :
    (∃ code rom, (code = .exhausted ∧ s.srch.ldf = true ∨ code = .noPresence) ∧
      (searchPass c s).result = ResultReg.flagged code false ∧ (searchPass c s).srch = .cleared 0#8 rom) ∨
    Judged (searchPass c s) ∧ (searchPass c s).srch.Ok := by
  cases hl : s.srch.ldf with
  | true =>
    rw [searchPass_exhausted hl]
    exact .inl ⟨.exhausted, s.srch.rom, .inl ⟨rfl, rfl⟩, rfl, rfl⟩
  | false =>
    rw [searchPass_presence hl]
    exact (searchPresence_cases c _ rfl).imp_left fun ⟨rom, h⟩ => ⟨.noPresence, rom, .inr rfl, h⟩

/-- A completed SEARCH, FIRST or NEXT is a pass (R604, R622, R624). -/
theorem exec_search_next {s t : State} {i : Instr} {c : Byte} (hi : i = .search c ∨ i = .first ∨ i = .next)
    (h : exec i s = .next t) : ∃ (c : Byte) (u : State), t = searchPass c u := by
  rcases hi with rfl | rfl | rfl <;> obtain ⟨-, rfl⟩ := guarded_next h <;> exact ⟨_, _, rfl⟩

/-- Settles O39: a judged pass with FLAG 1 has a code that R116 says is valid, as its family code is not 0; the other
ends of a pass have FLAG 0. -/
theorem onlyValidCodesAreFound : Obligations.OnlyValidCodesAreFound := by
  intro s t i c hi h
  obtain ⟨c, u, rfl⟩ := exec_search_next hi h
  rcases searchPass_cases c u with ⟨code, rom, hcode, hr, hs⟩ | ⟨hj, hok⟩
  · rw [hr, hs]
    refine ⟨(nomatch ·), fun _ => ⟨?_, rfl, rfl, rfl⟩⟩
    rcases hcode with ⟨rfl, -⟩ | rfl <;> nofun
  · refine ⟨fun hflag => ?_, hj.failed⟩
    obtain ⟨hcode, hfam, hcrc⟩ := hj.found hflag
    obtain ⟨-, -, -, -, hrom⟩ := hok
    have hne : (searchPass c u).srch.rom ≠ 0#64 := by
      intro h0
      exact hfam (by rw [h0]; rfl)
    exact ⟨hcode, (hrom.resolve_left hne).1, hfam, hcrc⟩

/-- Settles O40: the three are passes, and FIRST's starts with LDF = 0. -/
theorem firstAndNextAreSearch : Obligations.FirstAndNextAreSearch := by
  intro s h hl
  rw [exec_first h hl, exec_next h hl]
  refine ⟨(exec_search (s := s.resetTracking) h hl _).symm, ⟨_, rfl, ?_⟩, (exec_search h hl _).symm, ⟨_, rfl⟩⟩
  rcases searchPass_cases 0xF0#8 s.resetTracking with ⟨code, rom, ⟨-, hldf⟩ | rfl, hr, -⟩ | ⟨hj, -⟩
  · cases hldf
  · rw [hr]
    nofun
  · exact hj.started

/-! ## FIRST does not depend on the search state before it (R622, R632) -/

/-- Two search states that differ only in bits of `rom_no` a pass has not reached: those from position p on. -/
structure AgreeBelow (p : Nat) (a b : SearchReg) : Prop where
  ld : a.ld = b.ld
  lfd : a.lfd = b.lfd
  ldf : a.ldf = b.ldf
  crc8 : a.crc8 = b.crc8
  rom : ∀ q, q < p → a.rom.getLsbD q = b.rom.getLsbD q

/-- With all 64 bits reached they are the same. -/
theorem AgreeBelow.eq {a b : SearchReg} (h : AgreeBelow 64 a b) : a = b := by
  obtain ⟨hld, hlfd, hldf, hcrc, hrom⟩ := h
  have : a.rom = b.rom := BitVec.eq_of_getLsbD_eq hrom
  cases a
  cases b
  simp_all

/-- Storing the next bit makes them agree there too (R612, R613). -/
theorem AgreeBelow.store {p : Nat} {a b : SearchReg} (h : AgreeBelow p a b) (dir : Bool) :
    AgreeBelow (p + 1) (a.store p dir) (b.store p dir) := by
  have hrom : ∀ q, q < p + 1 → (withBit a.rom p dir).getLsbD q = (withBit b.rom p dir).getLsbD q := by
    intro q hq
    rw [getLsbD_withBit, getLsbD_withBit]
    split
    · rfl
    · next hne =>
      by_cases hlt : q < p
      · exact h.rom q hlt
      · rw [BitVec.getLsbD_of_ge _ _ (by omega), BitVec.getLsbD_of_ge _ _ (by omega)]
  refine ⟨h.ld, h.lfd, h.ldf, ?_, hrom⟩
  simp only [SearchReg.store, h.crc8]
  split
  · rw [romByte_congr fun q hq => hrom q (by omega)]
  · rfl

/-- With LD = 0 every preferred direction is 0, so the rest of a pass does not see the bits it has not reached
(R609). -/
theorem scanBits_agree (k : Nat) (sc : Scan) (s : State) {a b : SearchReg} (h : AgreeBelow sc.p a b)
    (hld : a.ld = 0#7) (hk : sc.p + k = 64) :
    scanBits k sc { s with srch := a } = scanBits k sc { s with srch := b } := by
  induction k generalizing sc s a b with
  | zero =>
    rw [show sc.p = 64 from hk] at h
    rw [h.eq]
  | succ k ih =>
    have hpref : preferred a sc.p = preferred b sc.p := by
      simp [preferred, hld, ← h.ld]
    simp only [scanBits, scanCmp, slot_srch]
    generalize ((s.slot .rd).2.slot .rd).2 = w
    generalize (s.slot .rd).1 = id, ((s.slot .rd).2.slot .rd).1 = cmp
    simp only [scanWrite_eq, hpref]
    generalize direction id cmp (preferred b sc.p) = dir
    split
    · exact congrArg (fun crc8 => ({ w.queue [writeSlot dir] with srch := .cleared crc8 0#64 } : State).finishWith _)
        h.crc8
    · exact ih (sc.after id cmp dir) (w.queue [writeSlot dir]) (h.store dir) hld (by simp only [Scan.after]; omega)

/-- With a presence the pass overwrites `rom_no` bit by bit and reads none of its bits before (R609, R612). -/
theorem searchPresence_cleared (c : Byte) (s : State) (a b : RomCode) :
    searchPresence c false { s with srch := .cleared 0#8 a } = searchPresence c false { s with srch := .cleared 0#8 b } := by
  rw [searchPresence_present, searchPresence_present]
  exact scanBits_agree 64 Scan.start (s.queue (byteSlots c))
    ⟨rfl, rfl, rfl, rfl, fun q hq => absurd hq (Nat.not_lt_zero q)⟩ rfl rfl

/-- Settles O41: without a presence `rom_no` is all that differs; with one nothing does. -/
theorem firstForgetsTheSearchState : Obligations.FirstForgetsTheSearchState := by
  intro s r h
  have hr : ({ s with srch := r } : State).Ready := h
  have ht := firstSteps_presence s s.srch
  have hu := firstSteps_presence s r
  refine ⟨_, _, exec_first_ready h, exec_first_ready hr, ?_⟩
  cases hv : (s.slot .rst).1 with
  | true =>
    have hready : ∀ x : SearchReg, ({ (s.slot .rst).2 with srch := x } : State).Ready := fun _ => ready_slot h rfl
    rw [hv, searchPresence_absent (hready _)] at ht hu
    rw [hu, show firstSteps s = _ from ht]
    exact ⟨rfl, fun hne => absurd rfl hne, fun _ => ⟨rfl, rfl⟩⟩
  | false =>
    rw [hv] at ht hu
    have hsame : firstSteps { s with srch := r } = firstSteps s :=
      hu.trans ((searchPresence_cleared _ _ _ _).trans ht.symm)
    have hcode : (firstSteps s).result.code ≠ .noPresence := by
      rw [show firstSteps s = _ from ht, searchPresence_present]
      exact (judged_scanBits _ _ _).present
    rw [hsame]
    exact ⟨rfl, fun _ => rfl, fun hno => absurd hno hcode⟩

end Sys2Proof.Machine
end

section
/-! PROOFS. A whole pass on any line as a function of the sample pairs it takes; the search for one device. -/

namespace Sys2Proof.Machine

/-! ## How a pass ends (R604, R610–R618) -/

/-- The pass from r took all its 64 pairs, none of them (1, 1), and gathered this code (R610, R612). -/
structure Gathered (r : SearchReg) (pairs : List (Bool × Bool)) (rom : RomCode) : Prop where
  length : pairs.length = 64
  answered : ∀ p : Nat, pairs[p]? ≠ some (true, true)
  code : gathered r pairs 64 rom

/-- RESULT and the search state of a pass from r with these sample pairs, `rom` being the bits it gathered. -/
inductive PassEnd (r : SearchReg) (pairs : List (Bool × Bool)) (rom : RomCode) : ResultReg → SearchReg → Prop where
  /-- The last pair is the first (1, 1): the code is discarded, `crc8` has the complete bytes (R610, R617). -/
  | noResponse (k : Nat) (hk : k < 64) (hlen : pairs.length = k + 1) (hlast : pairs[k]? = some (true, true))
      (hbefore : ∀ p : Nat, p < k → pairs[p]? ≠ some (true, true)) (hcode : gathered r pairs k rom) :
      PassEnd r pairs rom (ResultReg.flagged .noResponse false)
        (.cleared (crc8Buffer ((romBytes rom).take (k / 8))) 0#64)
  /-- R615. -/
  | crcFail (h : Gathered r pairs rom) (hcrc : crc8Buffer (romBytes rom) ≠ 0#8) :
      PassEnd r pairs rom (ResultReg.flagged .crcFail false) (.cleared (crc8Buffer (romBytes rom)) 0#64)
  /-- R616. -/
  | familyZero (h : Gathered r pairs rom) (hcrc : crc8Buffer (romBytes rom) = 0#8) (hfam : romByte rom 0 = 0#8) :
      PassEnd r pairs rom (ResultReg.flagged .familyZero false) (.cleared 0#8 0#64)
  /-- The code is found; LD and LFD are the last deferred branches of the code and of its family byte (R614). -/
  | found (h : Gathered r pairs rom) (hcrc : crc8Buffer (romBytes rom) = 0#8) (hfam : romByte rom 0 ≠ 0#8) (n m : Nat)
      (hn : lastDeferred r pairs 64 n) (hm : lastDeferred r pairs 8 m) :
      PassEnd r pairs rom (ResultReg.flagged .ok true)
        { ld := BitVec.ofNat 7 n, lfd := BitVec.ofNat 4 m, ldf := decide (n = 0), crc8 := 0#8, rom := rom }

/-- The verdict after 64 pairs is one of the last three ends (R614–R617). -/
theorem passEnd_verdict {r : SearchReg} {pairs : List (Bool × Bool)} {q : SearchReg × Scan} (h : PassAt r pairs q)
    (hlen : pairs.length = 64) (hno : ∀ x ∈ pairs, x ≠ (true, true)) {s : State} (hs : s.srch = q.1) :
    PassEnd r pairs q.1.rom (s.verdict q.2).1 (s.verdict q.2).2.srch := by
  obtain ⟨-, -, -, hcode, hcrc, hzero, hfam⟩ := h
  rw [hlen] at hcode hcrc hzero hfam
  have hcrc : s.srch.crc8 = crc8Buffer (romBytes q.1.rom) := by
    rw [hs, hcrc, List.take_of_length_le (by simp [romBytes])]
  have hgathered : Gathered r pairs q.1.rom := ⟨hlen, fun p hp => hno _ (List.mem_of_getElem? hp) rfl, hcode⟩
  by_cases h0 : crc8Buffer (romBytes q.1.rom) = 0#8
  · by_cases hf : romByte q.1.rom 0 = 0#8
    · obtain ⟨hr, hv⟩ := verdict_familyZero (s := s) (hcrc.trans h0) (by rw [hs, hf]) q.2
      rw [hr, hv, hcrc, h0]
      exact .familyZero hgathered h0 hf
    · obtain ⟨hr, hv⟩ := verdict_found (s := s) (hcrc.trans h0) (by rw [hs]; exact hf) q.2
      rw [hr, hv, SearchReg.track, hcrc, h0, hs]
      exact .found hgathered h0 hf _ _ hzero hfam
  · obtain ⟨hr, hv⟩ := verdict_crcFail (s := s) (fun h => h0 (hcrc.symm.trans h)) q.2
    rw [hr, hv, hcrc]
    exact .crcFail hgathered h0

/-- A pass that stops at its first (1, 1) ends with no response (R610, R617). -/
theorem passEnd_noResponse {r : SearchReg} {front : List (Bool × Bool)} {q : SearchReg × Scan} (h : PassAt r front q)
    (hlt : front.length < 64) (hno : ∀ x ∈ front, x ≠ (true, true)) :
    PassEnd r (front ++ [(true, true)]) q.1.rom (ResultReg.flagged .noResponse false) (.cleared q.1.crc8 0#64) := by
  have hbefore {p : Nat} (hp : p < front.length) : (front ++ [(true, true)])[p]? = front[p]? :=
    List.getElem?_append_left hp
  rw [h.crc]
  refine .noResponse front.length hlt (by simp) List.getElem?_concat_length (fun p hp he => ?_) (fun p x hp hx => ?_)
  · rw [hbefore hp] at he
    exact hno _ (List.mem_of_getElem? he) rfl
  · rw [hbefore hp] at hx
    exact h.stored p x hp hx

/-! ## A pass with a presence, from a ready state -/

/-- The events of a pass before its first bit: the RST slot and the ROM command byte (R607, R608). -/
def openingEvents (c : Byte) : List BusEvent :=
  .reset false :: (List.range 8).map fun i => .write (c.getLsbD i) false

/-- Events do not touch scripted draws (R431). -/
theorem foldl_observe_draws (es : List BusEvent) (script : List Bool) :
    es.foldl Bus.observe (.draws script) = .draws script := by
  induction es with
  | nil => rfl
  | cons e es ih => exact ih

/-- A state after the RST slot of a pass from LDF = 0, its sample being 0 (R605, R607). -/
def State.answered (s : State) : State :=
  { s with
    srch := { s.srch with crc8 := 0#8 }, hist := s.hist ++ [.reset false], bus := s.busAfter .rst
    draws := (s.drawLevel .rst).2.draws }

/-- With a presence the pass is its 64 bits, the ROM command byte being queued (R608). -/
theorem searchPass_answered {s : State} (h : s.Ready) (hl : s.srch.ldf = false) (hv : (s.drawLevel .rst).1 = false)
    (c : Byte) : searchPass c s = scanBits 64 Scan.start (s.answered.queue (byteSlots c)) := by
  rw [searchPass_presence hl, slot_ready h rfl, hv, searchPresence_present]
  rfl

theorem ready_answered {s : State} (h : s.Ready) : s.answered.Ready := h

/-- The ROM command byte goes out before the first bit (R608). -/
theorem settle_answered {s : State} (h : s.Ready) (c : Byte) :
    (s.answered.queue (byteSlots c)).settle = { s.answered with
      hist := s.hist ++ openingEvents c
      bus := ((byteBits c).map (BusEvent.write · false)).foldl Bus.observe (s.busAfter .rst) } := by
  rw [byteSlots, settle_writes (ready_answered h), byteBits_eq, List.map_map, State.answered]
  simp only [List.append_assoc, List.singleton_append]
  rfl

/-- What SEARCH does from LDF = 0 with a presence: it takes sample pairs until one of the ends of `PassEnd`, and appends
the opening's events and theirs; scripted draws are taken in slot order. -/
theorem searchPass_present {s : State} (h : s.Ready) (hl : s.srch.ldf = false) (hv : (s.drawLevel .rst).1 = false)
    (c : Byte) :
    ∃ (pairs : List (Bool × Bool)) (rom : RomCode) (res : ResultReg) (srch : SearchReg) (b : Bus) (d : Nat),
      (∀ (drawn : List (Bool × Bool)) (rest : List Bool), drawn.length = 64 →
        s.bus = .draws (false :: pairDraws drawn ++ rest) →
        pairs = drawn.take pairs.length ∧ b = .draws (pairDraws (drawn.drop pairs.length) ++ rest) ∧ d = s.draws) ∧
      PassEnd s.answered.srch pairs rom res srch ∧
      searchPass c s = { s with
        result := res, srch := srch, hist := s.hist ++ openingEvents c ++ passEvents s.srch pairs, bus := b
        draws := d } := by
  have hsettle := settle_answered h c
  have hflow : (s.answered.queue (byteSlots c)).Flowing := by rw [State.Flowing, hsettle]; exact h
  have hpass := searchPass_answered h hl hv c
  have hseq : s.seq = none := h.1.2.2.1
  obtain ⟨pairs, b, d, hscript, hend⟩ := scanBits_pass 64 Scan.start hflow
  rw [hsettle] at hscript hend
  simp only [queue_srch] at hend
  have hevents : pairs.length ≤ 64 →
      foldEvents (s.answered.srch, Scan.start) pairs = passEvents s.srch pairs := foldEvents_eq s.answered.srch rfl pairs
  have hdraws : ∀ (drawn : List (Bool × Bool)) (rest : List Bool), drawn.length = 64 →
      s.bus = .draws (false :: pairDraws drawn ++ rest) →
      pairs = drawn.take pairs.length ∧ b = .draws (pairDraws (drawn.drop pairs.length) ++ rest) ∧ d = s.draws := by
    intro drawn rest hlen hbus
    obtain ⟨-, hafter, hindex⟩ := draw_scripted hbus .rst
    obtain ⟨hpairs, hb, hd⟩ := hscript drawn rest hlen (by simp only [hafter]; exact foldl_observe_draws _ _)
    exact ⟨hpairs, hb, hd.trans hindex⟩
  rcases hend with ⟨hlen, hno, w, hw, hwsrch, hscan⟩ | ⟨front, rfl, hlt, hno, hscan⟩
  · have hat := passAt_fold s.answered.srch rfl pairs (by omega)
    refine ⟨pairs, _, _, _, b, d, hdraws, passEnd_verdict hat hlen hno hwsrch, ?_⟩
    rw [hpass, hscan, scanEnd_eq, hw, hevents (by omega), ← hseq]
    rfl
  · have hat := passAt_fold s.answered.srch rfl front (by omega)
    refine ⟨_, _, _, _, b, d, hdraws, passEnd_noResponse hat hlt hno, ?_⟩
    rw [hpass, hscan, hevents (by simp; omega)]
    rfl

/-- The direction of a search bit: the shared bit of two different samples, else the preferred one (R609, R610). -/
theorem passDir_eq (r : SearchReg) (p : Nat) (id cmp : Bool) :
    passDir r p (id, cmp) =
      if id ≠ cmp then id else if p + 1 < r.ld.toNat then r.rom.getLsbD p else decide (p + 1 = r.ld.toNat) := by
  rw [passDir, direction_eq, ite_not]
  rfl

/-- Settles O38: the ends of `PassEnd`, one by one. -/
theorem passFollowsItsSamples : Obligations.PassFollowsItsSamples := by
  intro s c h hl hv
  refine ⟨passDir_eq s.srch, ?_⟩
  obtain ⟨pairs, rom, res, srch, b, d, hdraws, hend, hpass⟩ := searchPass_present h hl hv c
  have hexec : exec (.search c) s = .next (searchPass c s) := exec_checked rfl (busFault_ready h _)
  refine ⟨pairs, rom, b, d, hdraws, ?_⟩
  intro after failed
  rw [hexec, hpass, openingEvents, List.append_cons s.hist]
  cases hend with
  | noResponse k hk hlen hlast hbefore hcode => exact .inl ⟨k, hk, hlen, hlast, hbefore, hcode, rfl⟩
  | crcFail hg hcrc =>
    exact .inr ⟨hg.length, hg.answered, hg.code, fun _ => rfl, fun h0 => absurd h0 hcrc, fun h0 => absurd h0 hcrc⟩
  | familyZero hg hcrc hfam =>
    exact .inr ⟨hg.length, hg.answered, hg.code, fun h0 => absurd hcrc h0, fun _ _ => rfl, fun _ hf => absurd hfam hf⟩
  | found hg hcrc hfam n m hn hm =>
    exact .inr ⟨hg.length, hg.answered, hg.code, fun h0 => absurd hcrc h0, fun _ hf => absurd hf hfam,
      fun _ _ => ⟨n, m, hn, hm, rfl⟩⟩

/-! ## One device on the reference bus (R633) -/

/-- A completed pass that reports OK took 64 pairs. -/
theorem PassEnd.length_of_ok {r : SearchReg} {pairs : List (Bool × Bool)} {rom : RomCode} {res : ResultReg}
    {srch : SearchReg} (h : PassEnd r pairs rom res srch) (hok : res.code ≠ .noResponse) : pairs.length = 64 := by
  cases h with
  | noResponse => exact absurd rfl hok
  | crcFail hg | familyZero hg | found hg => exact hg.length

/-- Three events per pair (R610). -/
theorem length_passEvents (r : SearchReg) (pairs : List (Bool × Bool)) :
    (passEvents r pairs).length = 3 * pairs.length := by
  rw [passEvents, List.length_flatMap]
  simp [Nat.mul_comm]

theorem length_openingEvents (c : Byte) : (openingEvents c).length = 9 := by simp [openingEvents]

/-- One device disagrees with its own code nowhere, so its code has no open branch. -/
theorem openBranch_single {d : Device} {n : Nat} (h : openBranch [d] d.rom n) : n = 0 := by
  obtain ⟨-, hn, -⟩ := h
  refine hn.resolve_right ?_
  rintro ⟨-, ⟨e, he, -, hne⟩, -⟩
  obtain rfl := List.mem_singleton.mp he
  exact hne rfl

/-- With no deferred branch at all there is none in the family byte. -/
theorem lastDeferred_zero {r : SearchReg} {pairs : List (Bool × Bool)} {m : Nat} (h : lastDeferred r pairs 64 0)
    (hm : lastDeferred r pairs 8 m) : m = 0 := by
  obtain ⟨hle, hd, -⟩ := hm
  refine hd.resolve_right fun hdef => ?_
  have hpos : 1 ≤ m := hdef.1
  exact h.2.2 m (by omega) (by omega) hdef

/-- FIRST with one device finds its code and leaves LDF = 1 (R614, R633). -/
theorem firstSteps_single {s : State} {d : Device} (h : s.Ready) (hbus : s.bus = .reference [d])
    (hcrc : crc8Buffer (romBytes d.rom) = 0#8) (hfam : romByte d.rom 0 ≠ 0#8) :
    (firstSteps s).Ready ∧ (firstSteps s).result = { code := .ok, data := 0#8, flag := true } ∧
      (firstSteps s).srch = { ld := 0#7, lfd := 0#4, ldf := true, crc8 := 0#8, rom := d.rom } := by
  have hreset : s.resetTracking.Ready := h
  have hvalid : ∀ e ∈ [d], crc8Buffer (romBytes e.rom) = 0#8 ∧ romByte e.rom 0 ≠ 0#8 :=
    List.forall_mem_singleton.mpr ⟨hcrc, hfam⟩
  obtain ⟨R, n, m, hR, hdir, hn, hm, hready, hresult, hsrch, -⟩ :=
    searchPass_reference hreset rfl hbus (List.cons_ne_nil d []) hvalid
  have hopen := openBranch_of hR hdir hn
  obtain ⟨e, he, rfl⟩ := hR
  obtain rfl := List.mem_singleton.mp he
  obtain rfl : n = 0 := openBranch_single hopen
  obtain rfl : m = 0 := lastDeferred_zero hn hm
  exact ⟨hready, hresult, hsrch⟩

/-- FIRST with a presence that does not end with no response appends 201 events (R618). -/
theorem length_hist_firstSteps {s : State} (h : s.Ready) (hv : (s.drawLevel .rst).1 = false)
    (hok : (firstSteps s).result.code ≠ .noResponse) : (firstSteps s).hist.length = s.hist.length + 201 := by
  have hreset : s.resetTracking.Ready := h
  obtain ⟨hsample, -, -⟩ := drawLevel_congr (s := s.resetTracking) (t := s) .rst rfl rfl
  obtain ⟨pairs, rom, res, srch, b, d, -, hend, hpass⟩ := searchPass_present hreset rfl (hsample.trans hv) 0xF0#8
  rw [firstSteps, hpass] at hok ⊢
  simp only [List.length_append, length_openingEvents, length_passEvents, hend.length_of_ok hok, resetTracking_hist]

/-- NEXT with LDF = 1 makes no slot, from a ready state (R606). -/
theorem exec_next_exhausted {s : State} (h : s.Ready) (hl : s.srch.ldf = true) :
    exec .next s = .next { s with
      result := ResultReg.flagged .exhausted false, srch := .cleared 0#8 s.srch.rom } := by
  have hseq : s.seq = none := h.1.2.2.1
  rw [exec_next_ready h, searchPass_exhausted hl, State.complete, ← hseq]
  rfl

/-- Settles O43: the one code has no open branch, so LDF = 1 and the next pass makes no slot. -/
theorem singleDeviceIsFoundThenExhausted : Obligations.SingleDeviceIsFoundThenExhausted := by
  intro s d h hbus hcrc hfam
  have hpresence : (s.drawLevel .rst).1 = false := by
    rw [drawLevel_reference hbus]
    rfl
  obtain ⟨hready, hresult, hsrch⟩ := firstSteps_single h hbus hcrc hfam
  have hhist := length_hist_firstSteps h hpresence (by rw [hresult]; nofun)
  have hnext := exec_next_exhausted hready (by rw [hsrch])
  rw [show (firstSteps s).srch.rom = d.rom by rw [hsrch]] at hnext
  exact ⟨firstSteps s, exec_first_ready h, hresult, hsrch, hhist, hnext⟩

end Sys2Proof.Machine
end

section
/-! PROOFS. FIFO_THRESH is read by RXRDY only. -/

namespace Sys2Proof.Machine

/-! ## No instruction but INIT and SET_FIFO_THRESH reads or writes CFG (R442, R459) -/

/-- An outcome with CFG replaced in its next state, if it has one. -/
def outcomeWithCfg (c : CfgReg) (o : Host.Outcome State Fault Refusal) : Host.Outcome State Fault Refusal :=
  match o with
  | .next t => .next (t.withCfg c)
  | .fault f => .fault f
  | .refused r => .refused r

theorem guarded_withCfg (f : Option Fault) (t : State) (c : CfgReg) :
    guarded f (t.withCfg c) = outcomeWithCfg c (guarded f t) := by
  cases f <;> rfl

/-- The checks of a command look at the handle, the line and the parameters. -/
theorem commandFault_withCfg (i : Instr) (s : State) (c : CfgReg) :
    commandFault i (s.withCfg c) = commandFault i s := by
  cases i <;> rfl

theorem teardownSteps_withCfg (s : State) (c : CfgReg) :
    teardownSteps (s.withCfg c) = (teardownSteps s).withCfg c := by
  simp only [teardownSteps, show (s.withCfg c).line = s.line from rfl]
  split <;> rfl

theorem commandSteps_withCfg {i : Instr} (hinit : ∀ p d e, i ≠ .init p d e) (hthresh : ∀ y, i ≠ .setFifoThresh y)
    (s : State) (c : CfgReg) : commandSteps i (s.withCfg c) = (commandSteps i s).withCfg c := by
  cases i with
  | init p d e => exact absurd rfl (hinit p d e)
  | setFifoThresh y => exact absurd rfl (hthresh y)
  | teardown => exact teardownSteps_withCfg s c
  | waitIdle => exact finishWith_withCfg s _ c
  | reset => simp only [commandSteps, resetSteps, slot_withCfg, finishWith_withCfg]
  | writeByte d => exact finishWith_withCfg (s.queue (byteSlots d)) _ c
  | writeBytePwr d => exact finishWith_withCfg (s.queue (byteSlotsPwr d)) _ c
  | endPower => exact finishWith_withCfg (s.queue (endPowerSlots s)) _ c
  | readByte => simp only [commandSteps, readByteSteps, readFrom, readBits_withCfg, finishWith_withCfg]
  | triplet pref =>
    simp only [commandSteps, tripletSteps, tripletCmp, tripletWrite, slot_withCfg, queue_withCfg, finishWith_withCfg]
  | search x => exact searchPass_withCfg x s c
  | first => exact searchPass_withCfg _ s.resetTracking c
  | next => exact searchPass_withCfg _ s c
  | select =>
    simp only [commandSteps, selectSteps, selectPresence, slot_withCfg]
    exact finishWith_withCfg ((s.slot .rst).2.queue _) _ c
  | crc8Upd _ _ | searchReset | slotRst | slotW0 | slotW1 | slotRd | slotRel | slotW0Pwr | slotW1Pwr => rfl

theorem slotMeaning_withCfg (k : Slot) (s : State) (c : CfgReg) :
    (s.withCfg c).slotMeaning k = outcomeWithCfg c (s.slotMeaning k) := by
  simp only [State.slotMeaning, finishSlot_withCfg, runSlot_withCfg, show (s.withCfg c).engine = s.engine from rfl]
  split <;> rfl

theorem exec_withCfg {i : Instr} (hinit : ∀ p d e, i ≠ .init p d e) (hthresh : ∀ y, i ≠ .setFifoThresh y)
    (s : State) (c : CfgReg) : exec i (s.withCfg c) = outcomeWithCfg c (exec i s) := by
  cases hi : i.slot? with
  | some k =>
    obtain rfl := eq_toInstr_of_slot? hi
    rw [exec_slot, exec_slot, slotMeaning_withCfg]
  | none =>
    rw [exec_command hi, exec_command hi, commandFault_withCfg, commandSteps_withCfg hinit hthresh, guarded_withCfg]

theorem writeCmd_withCfg (w : Word) (s : State) (c : CfgReg) :
    writeCmd w (s.withCfg c) = outcomeWithCfg c (writeCmd w s) := by
  simp only [writeCmd, show (s.withCfg c).busy = s.busy from rfl, commandFault_withCfg]
  split
  · rfl
  · split
    · rfl
    · exact guarded_withCfg _ (s.proceed [] _) c

theorem writeSel_withCfg (off : BitVec 6) (v : Word) (r : RomCode) (s : State) (c : CfgReg) :
    writeSel off v r (s.withCfg c) = outcomeWithCfg c (writeSel off v r s) := by
  simp only [writeSel, show (s.withCfg c).busy = s.busy from rfl]
  split <;> rfl

theorem hostWrite_withCfg (width : Nat) (off : BitVec 6) (v : Word) (s : State) (c : CfgReg) :
    hostWrite width off v (s.withCfg c) = outcomeWithCfg c (hostWrite width off v s) := by
  unfold hostWrite
  split
  · rfl
  · unfold State.writeRegister
    split_ifs
    · exact writeCmd_withCfg v s c
    · exact writeSel_withCfg off v _ s c
    · exact writeSel_withCfg off v _ s c
    · rfl

/-! ## Nor does a move of an agent (R442) -/

theorem beginCommand_withCfg {i : Instr} (hinit : ∀ p d e, i ≠ .init p d e) (hthresh : ∀ y, i ≠ .setFifoThresh y)
    (s : State) (c : CfgReg) : beginCommand i (s.withCfg c) = (beginCommand i s).withCfg c := by
  cases i with
  | init p d e => exact absurd rfl (hinit p d e)
  | setFifoThresh y => exact absurd rfl (hthresh y)
  | teardown => exact teardownSteps_withCfg s c
  | search x => exact beginPass_withCfg x s c
  | first => exact beginPass_withCfg _ s.resetTracking c
  | next => exact beginPass_withCfg _ s c
  | waitIdle | reset | writeByte _ | writeBytePwr _ | endPower | readByte | triplet _ | select | crc8Upd _ _
  | searchReset | slotRst | slotW0 | slotW1 | slotRd | slotRel | slotW0Pwr | slotW1Pwr => rfl

/-- Going on, unless that begins INIT or SET_FIFO_THRESH. -/
theorem continueWith_withCfg {k : Cont} (hinit : ∀ p d e, k ≠ .start (.init p d e))
    (hthresh : ∀ y, k ≠ .start (.setFifoThresh y)) (s : State) (c : CfgReg) :
    (s.withCfg c).continueWith k = (s.continueWith k).withCfg c := by
  cases k with
  | start i =>
    exact beginCommand_withCfg (fun p d e h => hinit p d e (congrArg _ h)) (fun y h => hthresh y (congrArg _ h)) s c
  | sample w =>
    simp only [State.continueWith, show (s.withCfg c).rxq = s.rxq from rfl]
    split
    · exact resume_withCfg w _ { s with rxq := _ } c
    · rfl
  | record sc id cmp =>
    simp only [State.continueWith, show (s.withCfg c).atRest = s.atRest from rfl, recordBit_withCfg]
    split <;> rfl
  | absent | done r =>
    simp only [State.continueWith, show (s.withCfg c).atRest = s.atRest from rfl]
    split <;> rfl

theorem sequencerTurn_withCfg {s : State} (hinit : ∀ q p d e, s.seq = some q → q.cont ≠ .start (.init p d e))
    (hthresh : ∀ q y, s.seq = some q → q.cont ≠ .start (.setFifoThresh y)) (c : CfgReg) :
    (s.withCfg c).sequencerTurn = s.sequencerTurn.withCfg c := by
  simp only [State.sequencerTurn, show (s.withCfg c).seq = s.seq from rfl]
  split
  · rfl
  · next k hs => exact continueWith_withCfg (fun p d e => hinit _ p d e hs) (fun y => hthresh _ y hs) s c
  · simp only [show (s.withCfg c).txq = s.txq from rfl, show (s.withCfg c).params = s.params from rfl]
    split <;> rfl

theorem takeSlot_withCfg (k : Slot) (s : State) (c : CfgReg) :
    (s.withCfg c).takeSlot k = (s.takeSlot k).withCfg c := by
  simp only [State.takeSlot]
  split <;> rfl

theorem engineTurn_withCfg (s : State) (c : CfgReg) : (s.withCfg c).engineTurn = s.engineTurn.withCfg c := by
  simp only [State.engineTurn, show (s.withCfg c).engine = s.engine from rfl, show (s.withCfg c).txq = s.txq from rfl]
  split
  · exact takeSlot_withCfg _ { s with txq := _ } c
  · rfl
  · rfl
  · exact nextPoint_withCfg s c

/-! ## What the registers show of it -/

theorem register_withCfg {off : BitVec 6} (hcfg : off ≠ 0x0C#6) (hstatus : off ≠ 0x04#6) (s : State) (c : CfgReg) :
    (s.withCfg c).register off = s.register off := by
  simp only [State.register, if_neg hcfg, if_neg hstatus]
  rfl

/-- RXRDY is the one bit of STATUS that reads CFG (R106, R442). -/
theorem statusWord_withCfg {b : Nat} (hb : b ≠ 3) (s : State) (c : CfgReg) :
    (s.withCfg c).statusWord.getLsbD b = s.statusWord.getLsbD b := by
  rw [statusWord_bit, statusWord_bit]
  split_ifs
  · rfl
  · rfl
  · rfl
  · omega
  · rfl
  · rfl

/-- Settles O52: the state with another FIFO_THRESH is `withCfg`, which every instruction but the two, every host write
and every move passes on. -/
theorem thresholdChangesOnlyRxrdy : Obligations.ThresholdChangesOnlyRxrdy := by
  intro s x u
  refine ⟨fun i hinit hthresh => ?exec, fun width off v => ?write, fun hinit hthresh => ?sequencer,
    engineTurn_withCfg s u.cfg, fun off hcfg hstatus => register_withCfg hcfg hstatus s u.cfg,
    fun b hb => statusWord_withCfg hb s u.cfg⟩
  case exec =>
    have he : exec i u = outcomeWithCfg u.cfg (exec i s) := exec_withCfg hinit hthresh s u.cfg
    rw [he]
    exact ⟨fun t ht => by rw [ht]; rfl, fun f hf => by rw [hf]; rfl, fun r hr => by rw [hr]; rfl⟩
  case write =>
    have hw : hostWrite width off v u = outcomeWithCfg u.cfg (hostWrite width off v s) :=
      hostWrite_withCfg width off v s u.cfg
    rw [hw]
    exact ⟨fun t ht => by rw [ht]; rfl, fun f hf => by rw [hf]; rfl⟩
  case sequencer => exact sequencerTurn_withCfg hinit hthresh u.cfg

end Sys2Proof.Machine
end

section
/-! PROOFS. The least bus time of each command (R831, R832), from the events it appends. -/

namespace Sys2Proof.Machine

/-! ## The time of events (R831) -/

theorem busTime_append (p : Params) (a b : List BusEvent) : busTime p (a ++ b) = busTime p a + busTime p b := by
  simp [busTime]

theorem busTime_cons (p : Params) (e : BusEvent) (es : List BusEvent) :
    busTime p (e :: es) = eventTime p e + busTime p es := by
  simp [busTime]

theorem eventTime_write (p : Params) (b power : Bool) : eventTime p (.write b power) = p.tSlot := by
  cases b <;> rfl

/-- Events that each end a slot of the ordinary length. -/
theorem busTime_slots {p : Params} {es : List BusEvent} (h : ∀ e ∈ es, eventTime p e = p.tSlot) :
    busTime p es = es.length * p.tSlot := by
  rw [busTime, List.map_congr_left h, List.map_const', List.sum_replicate, smul_eq_mul]

theorem busTime_map_write (p : Params) {α : Type} (xs : List α) (f : α → Bool) (power : Bool) :
    busTime p (xs.map fun x => .write (f x) power) = xs.length * p.tSlot := by
  rw [busTime_slots (by simp [eventTime_write]), List.length_map]

theorem busTime_map_read (p : Params) (vs : List Bool) : busTime p (vs.map .read) = vs.length * p.tSlot := by
  have hslots : ∀ e ∈ vs.map BusEvent.read, eventTime p e = p.tSlot := by
    intro e he
    obtain ⟨v, -, rfl⟩ := List.mem_map.mp he
    rfl
  rw [busTime_slots hslots, List.length_map]

theorem busTime_openingEvents (p : Params) (c : Byte) :
    busTime p (openingEvents c) = p.tRstl + p.tRsth + 8 * p.tSlot := by
  rw [openingEvents, busTime_cons, busTime_map_write, List.length_range]
  rfl

/-- Each pair takes three slots (R610). -/
theorem busTime_passEvents (p : Params) (r : SearchReg) (pairs : List (Bool × Bool)) :
    busTime p (passEvents r pairs) = 3 * pairs.length * p.tSlot := by
  have hslots : ∀ e ∈ passEvents r pairs, eventTime p e = p.tSlot := by
    intro e he
    obtain ⟨x, -, hx⟩ := List.mem_flatMap.mp he
    simp only [List.mem_cons, List.not_mem_nil, or_false] at hx
    rcases hx with rfl | rfl | rfl
    · rfl
    · rfl
    · exact eventTime_write p _ _
  rw [busTime_slots hslots, length_passEvents]

/-- The bus time of the events that t has more than s, with the default parameters. -/
def timeSpent (s t : State) : Nat := busTime Params.default (t.hist.drop s.hist.length)

theorem timeSpent_append {s t : State} {es : List BusEvent} (h : t.hist = s.hist ++ es) :
    timeSpent s t = busTime Params.default es := by
  rw [timeSpent, h, List.drop_left]

theorem timeSpent_same {s t : State} (h : t.hist = s.hist) : timeSpent s t = 0 :=
  timeSpent_append (es := []) (by rw [h, List.append_nil])

/-! ## The bus commands (R832) -/

/-- A bus command completes on the released line only (R713). -/
theorem ready_of_exec {s t : State} {i : Instr} (h : s.Claimed) (hl : s.line = .rel ∨ s.line = .pwr)
    (ht : exec i s = .next t) (hi : i.slot? = none) (hbus : commandFault i s = s.busFault (encode i)) : s.Ready := by
  rcases hl with hl | hl
  · exact ⟨h, hl⟩
  · cases (exec_powered h.1 hl i hi hbus).symm.trans ht

theorem timeSpent_reset {s t : State} (h : s.Ready) (ht : exec .reset s = .next t) : timeSpent s t = 960 := by
  cases (exec_reset_ready h).symm.trans ht
  exact (timeSpent_append (es := [.reset _]) rfl).trans rfl

theorem timeSpent_writeByte {s t : State} {d : Byte} (h : s.Ready) (ht : exec (.writeByte d) s = .next t) :
    timeSpent s t = 560 := by
  cases (writeByteSendsLsbFirst s d h).symm.trans ht
  exact (timeSpent_append rfl).trans (busTime_map_write _ _ _ _)

theorem timeSpent_writeBytePwr {s t : State} {d : Byte} (h : s.Ready) (ht : exec (.writeBytePwr d) s = .next t) :
    timeSpent s t = 560 := by
  cases (writeBytePwrHoldsTheLine s d h).symm.trans ht
  rw [timeSpent_append rfl, busTime_append, busTime_map_write, busTime_cons, eventTime_write]
  rfl

theorem timeSpent_readByte {s t : State} (h : s.Ready) (ht : exec .readByte s = .next t) : timeSpent s t = 560 := by
  obtain ⟨⟨vs, data, b, d, hlen, -, hexec⟩, -⟩ := readByteCollectsItsSamples s h
  cases hexec.symm.trans ht
  rw [timeSpent_append rfl, busTime_map_read, hlen]
  rfl

theorem timeSpent_triplet {s t : State} {pref : Bool} (h : s.Ready) (ht : exec (.triplet pref) s = .next t) :
    timeSpent s t = 210 := by
  obtain ⟨⟨id, cmp, b, d, hexec⟩, -⟩ := tripletReadsTwiceAndWrites s pref h
  cases hexec.symm.trans ht
  rw [timeSpent_append rfl, busTime_cons, busTime_cons, busTime_cons, eventTime_write]
  rfl

/-- SELECT after a presence (R651). -/
theorem timeSpent_select {s t : State} (h : s.Ready) (ht : exec .select s = .next t) (hflag : t.result.flag = true) :
    timeSpent s t = 6000 := by
  obtain ⟨hpresent, habsent⟩ := selectSendsTheCode s h
  cases hv : (s.drawLevel .rst).1 with
  | true =>
    cases (habsent hv).symm.trans ht
    cases hflag
  | false =>
    cases (hpresent hv).symm.trans ht
    rw [timeSpent_append (List.append_assoc _ _ _), busTime_append, busTime_append, busTime_map_write,
      busTime_map_write, List.length_range, List.length_range]
    rfl

theorem timeSpent_endPower {s t : State} (h : s.Claimed) (ht : exec .endPower s = .next t) : timeSpent s t = 0 := by
  obtain ⟨hpwr, hno⟩ := endPowerReleasesTheLine s h
  by_cases hl : s.line = .pwr
  · cases (hpwr hl).symm.trans ht
    exact (timeSpent_append (es := [.release]) rfl).trans rfl
  · cases (hno hl).symm.trans ht
    exact timeSpent_same rfl

theorem timeSpent_waitIdle {s t : State} (h : s.Claimed) (ht : exec .waitIdle s = .next t) : timeSpent s t = 0 := by
  cases (waitIdleChangesOnlyResult s h).symm.trans ht
  exact timeSpent_same rfl

/-! ## A pass (R832) -/

/-- What R832 says of the time between s and t of a pass, by its outcome. -/
structure PassTime (s t : State) : Prop where
  complete : t.result.code = .ok ∨ t.result.code = .crcFail ∨ t.result.code = .familyZero → timeSpent s t = 14960
  noPresence : t.result.code = .noPresence → timeSpent s t = 960
  exhausted : t.result.code = .exhausted → timeSpent s t = 0

theorem passTime_searchPass {s : State} (h : s.Ready) (c : Byte) : PassTime s (searchPass c s) := by
  cases hl : s.srch.ldf with
  | true =>
    rw [searchPass_exhausted hl]
    exact ⟨(by rintro (hc | hc | hc) <;> cases hc), nofun, fun _ => timeSpent_same rfl⟩
  | false =>
    cases hv : (s.drawLevel .rst).1 with
    | true =>
      rw [searchPass_presence hl, searchPresence_absent_slot h hv]
      exact ⟨(by rintro (hc | hc | hc) <;> cases hc), fun _ => (timeSpent_append (es := [.reset true]) rfl).trans rfl, nofun⟩
    | false =>
      obtain ⟨pairs, rom, res, srch, b, d, -, hend, hpass⟩ := searchPass_present h hl hv c
      have htime (hlen : pairs.length = 64) : timeSpent s (searchPass c s) = 14960 := by
        rw [hpass, timeSpent_append (List.append_assoc _ _ _), busTime_append, busTime_openingEvents,
          busTime_passEvents, hlen]
        rfl
      have hlen := hend.length_of_ok
      rw [hpass] at htime ⊢
      cases hend with
      | noResponse => exact ⟨(by rintro (hc | hc | hc) <;> cases hc), nofun, nofun⟩
      | crcFail | familyZero | found => exact ⟨fun _ => htime (hlen nofun), nofun, nofun⟩

/-- SEARCH and NEXT are a pass, and FIRST is one from a state with the same history (R622, R624). -/
theorem passTime_exec {s t : State} {i : Instr} (h : s.Claimed) (hl : s.line = .rel ∨ s.line = .pwr)
    (hi : (∃ c, i = .search c) ∨ i = .first ∨ i = .next) (ht : exec i s = .next t) : PassTime s t := by
  have hready {j : Instr} := ready_of_exec (i := j) (t := t) h hl
  rcases hi with ⟨c, rfl⟩ | rfl | rfl
  · have hr := hready ht rfl rfl
    cases (exec_search hr.1.1 (by simp [hr.2]) c).symm.trans ht
    exact passTime_searchPass hr c
  · have hr := hready ht rfl rfl
    cases (exec_first_ready hr).symm.trans ht
    have hreset : s.resetTracking.Ready := hr
    obtain ⟨hcomplete, hnoPresence, hexhausted⟩ := passTime_searchPass hreset 0xF0#8
    exact ⟨hcomplete, hnoPresence, hexhausted⟩
  · have hr := hready ht rfl rfl
    cases (exec_next_ready hr).symm.trans ht
    exact passTime_searchPass hr _

/-! ## The commands that make no slot (R832) -/

theorem timeSpent_teardownSteps (s : State) : timeSpent s (teardownSteps s) = 0 := by
  by_cases hl : s.line = .pwr
  · rw [teardownSteps_powered hl]
    exact (timeSpent_append (es := [.release]) rfl).trans rfl
  · rw [teardownSteps_unpowered hl]
    exact timeSpent_same rfl

/-- From every state the five commands spend no time on the bus. -/
theorem timeSpent_immediate {s t : State} {i : Instr} (ht : exec i s = .next t)
    (hi : (∃ p d e, i = .init p d e) ∨ i = .teardown ∨ (∃ x, i = .setFifoThresh x) ∨ (∃ a d, i = .crc8Upd a d) ∨
      i = .searchReset) : timeSpent s t = 0 := by
  rcases hi with ⟨p, d, e, rfl⟩ | rfl | ⟨x, rfl⟩ | ⟨a, d, rfl⟩ | rfl
  · obtain ⟨-, rfl⟩ := guarded_next ht
    exact timeSpent_same (hist_initSteps p d e s)
  · obtain ⟨-, rfl⟩ := guarded_next ht
    exact timeSpent_teardownSteps s
  · obtain ⟨-, rfl⟩ := guarded_next ht
    exact timeSpent_same rfl
  · cases (crcUpdateReturnsTheStep s a d).symm.trans ht
    exact timeSpent_same rfl
  · obtain ⟨-, rfl⟩ := guarded_next ht
    exact timeSpent_same rfl

/-- Settles O49: each command's events are known, and so is their time. -/
theorem commandsTakeTheirBusTime : Obligations.CommandsTakeTheirBusTime := by
  refine ⟨fun s t i h hl ht => ?_, fun s t i => timeSpent_immediate⟩
  have hready (hi : i.slot? = none) (hbus : commandFault i s = s.busFault (encode i)) : s.Ready :=
    ready_of_exec h hl ht hi hbus
  refine ⟨?reset, ?byte, ?triplet, ?still, ?pass, ?select⟩
  case reset =>
    rintro rfl
    exact timeSpent_reset (hready rfl rfl) ht
  case byte =>
    rintro (⟨d, rfl | rfl⟩ | rfl)
    · exact timeSpent_writeByte (hready rfl rfl) ht
    · exact timeSpent_writeBytePwr (hready rfl rfl) ht
    · exact timeSpent_readByte (hready rfl rfl) ht
  case triplet =>
    rintro ⟨pref, rfl⟩
    exact timeSpent_triplet (hready rfl rfl) ht
  case still =>
    rintro (rfl | rfl)
    · exact timeSpent_endPower h ht
    · exact timeSpent_waitIdle h ht
  case pass =>
    intro hi
    obtain ⟨hcomplete, hnoPresence, hexhausted⟩ := passTime_exec h hl hi ht
    exact ⟨hcomplete, hnoPresence, hexhausted⟩
  case select =>
    rintro rfl hflag
    exact timeSpent_select (hready rfl rfl) ht hflag

end Sys2Proof.Machine
end
